-- ==== Sys2Proof/Word.lean ====
section
/-! DEFINITION. The byte and word types of the engine and its bus, and nothing else: the plainest names the rest is written in. -/

namespace Sys2Proof

/-- One byte of a window or of a message (spec/10_state.md R34). -/
abbrev Byte := BitVec 8

/-- A 32-bit register, command word or bus value (spec/10_state.md R44 to R50). -/
abbrev Word32 := BitVec 32

end Sys2Proof
end

