-- ==== Sys2Proof/Machine/Codec.lean ====
section
/-! DEFINITION. Byte order and byte sequences: the big-endian codec of the data (spec/00_scope.md R12, spec/20_memory.md R80), the
little-endian one of the bus and the header (R81, R82), and overwriting part of a sequence. -/

namespace Sys2Proof.Machine

open Sys2Proof

/-- The number a byte sequence spells, most significant byte first (spec/00_scope.md R12, BE). -/
def beNat (s : List Byte) : Nat := s.foldl (fun acc x => acc * 256 + x.toNat) 0

/-- The number a byte sequence spells, least significant byte first (spec/20_memory.md R82). -/
def leNat : List Byte → Nat
  | [] => 0
  | x :: xs => x.toNat + 256 * leNat xs

/-- The last `n` bytes of a number, most significant byte first (spec/00_scope.md R12, SER). -/
def beBytes : Nat → Nat → List Byte
  | 0, _ => []
  | n + 1, x => BitVec.ofNat 8 (x >>> (8 * n)) :: beBytes n x

/-- The last `n` bytes of a number, least significant byte first (spec/00_scope.md R12, LE). -/
def leBytes : Nat → Nat → List Byte
  | 0, _ => []
  | n + 1, x => BitVec.ofNat 8 x :: leBytes n (x >>> 8)

/-- `n` zero bytes (spec/00_scope.md R9). -/
def zeros (n : Nat) : List Byte := List.replicate n 0#8

/-- s[i..i+n) (spec/00_scope.md R9). -/
def slice (s : List Byte) (i n : Nat) : List Byte := (s.drop i).take n

/-- The sequence with its bytes from `i` on overwritten by `new`. -/
def splice (s : List Byte) (i : Nat) (new : List Byte) : List Byte := s.take i ++ new ++ s.drop (i + new.length)

/-- BE_w(s, i): the w-bit word at byte `i` (spec/00_scope.md R12). -/
def beWord (w : Nat) (s : List Byte) (i : Nat) : BitVec w := BitVec.ofNat w (beNat (slice s i (w / 8)))

/-- SER_w(x) (spec/00_scope.md R12). -/
def serWord {w : Nat} (x : BitVec w) : List Byte := beBytes (w / 8) x.toNat

end Sys2Proof.Machine
end

