-- ==== Sys2Proof/Config.lean ====
section
/-! DEFINITION. What one engine instance fixes (its variant and its parameters, spec/00_scope.md R2 and R6), the power-on instance that
State.reset describes, and the free values: opaque constants for everything the spec calls unspecified. -/

namespace Sys2Proof

/-- The instance parameter VARIANT (spec/00_scope.md R2): one engine implements exactly one of the two. -/
inductive Variant where
  | sha256
  | sha512
  deriving DecidableEq, Repr

/-- The parameters of one engine instance besides VARIANT (spec/00_scope.md R6).
LATENCY is not a number here: it is how many host accesses the agenda of State holds before the engine's step
(DESIGN CHOICE, safe, notes/assumptions/4.md). -/
structure Params where
  /-- MAX_DEGREE, the "available cores" bound. -/
  maxDegree : Nat
  /-- IN_SIZE, bytes of INMEM. -/
  inSize : Nat
  /-- OUT_SIZE, bytes of OUTMEM. -/
  outSize : Nat
  /-- STRICT_PAIRING (spec/42_tree.md R293). -/
  strictPairing : Bool
  deriving DecidableEq, Repr

namespace Config

/-- The variant of the instance that State.reset describes: DESIGN CHOICE, unsafe, notes/assumptions/1.md. -/
def resetVariant : Variant := .sha256

/-- The parameters of the instance that State.reset describes, those spec/95_test_vectors.md takes unless it says otherwise:
DESIGN CHOICE, unsafe, notes/assumptions/1.md. -/
def resetParams : Params := ⟨8, 4096, 256, false⟩

/-- FREE VALUE. `unwrittenByte epoch a`: what the window byte at host address `a` holds when nothing has written it since power-on
number `epoch` (spec/70_reset_and_hazards.md R434: any value). DEDUCED, notes/assumptions/2.md. -/
opaque unwrittenByte : Nat → Nat → Byte

/-- FREE VALUE. `busyByte c a`: the byte a host read of address `a` sees while BUSY = 1 where spec/20_memory.md R87 calls it
unspecified; `c` counts the host writes and engine steps so far. DEDUCED, notes/assumptions/3.md. -/
opaque busyByte : Nat → Nat → Byte

/-- FREE VALUE. `internalBits c i w`: `w` bits of cell `i` of the engine's hidden datapath or reduction scratch, where
spec/10_state.md R32 and R52 leave the value unspecified. DESIGN CHOICE, notes/assumptions/5.md. -/
opaque internalBits : Nat → Nat → (w : Nat) → BitVec w

end Config

end Sys2Proof
end

