-- ==== Sys2Proof/Machine/State.lean ====
section
/-! DEFINITION. The whole state of the system: the engine's registers and hidden storage (spec/10_state.md), its two byte windows, the
host accesses still to come and the values the host has read. Plain data throughout. The reasons a step could stop, and reset. -/

namespace Sys2Proof.Machine

open Sys2Proof

/-- Why a step stops with a fault: no reason exists. spec/93_implementation_defined.md section 2: "no command or access can halt the
engine"; every error is a completed command with a code (spec/60_exceptions.md R380, R388). -/
inductive Fault where
  deriving DecidableEq, Repr

/-- Why a step has no meaning. -/
inductive Refusal where
  /-- Raised only by an arm of exec whose command has no meaning yet; no arm is so (safe). -/
  | notModelled (mnemonic : String)
  deriving DecidableEq, Repr

/-- One lane register, or a scratch state of the same shape (spec/10_state.md R30, R52). -/
structure Lane (w : Nat) where
  /-- H[0..7], the chaining state. -/
  words : Words w
  /-- CNT_HI. -/
  cntHi : BitVec 64
  /-- CNT_LO. -/
  cntLo : BitVec 64
  deriving DecidableEq, Repr

/-- The compression datapath's registers (spec/10_state.md R32): a to h, the schedule window and the round counter. -/
structure Datapath (w : Nat) where
  vars : Words w
  /-- W, sixteen words. -/
  window : List (BitVec w)
  /-- t, below ROUNDS. -/
  round : Nat
  deriving DecidableEq, Repr

/-- FINALIZE's reduction scratch (spec/10_state.md R52): lane hashes, branch hashes, one root state. -/
structure Scratch (w : Nat) where
  laneHashes : List Byte
  branchHashes : List Byte
  root : Lane w
  deriving DecidableEq, Repr

/-- Everything of one word width: the lane registers, the datapath and the scratch. -/
structure HashUnit (w : Nat) where
  /-- LANE[0..N_MAX) (spec/10_state.md R30). -/
  lanes : List (Lane w)
  datapath : Datapath w
  scratch : Scratch w
  deriving DecidableEq, Repr

/-- The hash unit of the instance's one variant: which constructor it is, is VARIANT (spec/00_scope.md R2). -/
inductive HashBank where
  | sha256 (u : HashUnit 32)
  | sha512 (u : HashUnit 64)
  deriving DecidableEq, Repr

/-- CFG, the source's TreeParameters (spec/10_state.md R36). -/
structure TreeParams where
  digestLength : BitVec 8
  keyLength : BitVec 8
  treeDepth : BitVec 8
  leafLength : BitVec 32
  parallelDegree : BitVec 8
  subTreeLength : BitVec 8
  nodeOffset : BitVec 8
  reserved1 : BitVec 16
  reserved2 : BitVec 32
  deriving DecidableEq, Repr

/-- The streaming state machine's states (spec/10_state.md R48). FINALIZING and PROCESSING are transient inside one atomic step, so no
step leaves the machine in them (spec/90_conflicts.md C10). -/
inductive Fsm where
  | empty
  | buffering
  | finalizing
  | wiped
  | processing
  deriving DecidableEq, Repr

/-- The internal command latch: the word and the operands an accepted CMD write caught (spec/10_state.md R33, R46, R47). -/
structure Latch where
  word : Word32
  off : Word32
  len : Word32
  deriving DecidableEq, Repr

/-- The window bytes written since power-on, as (host address, byte) pairs, addresses strictly rising. An address not listed has no
value here: nothing wrote it since power-on, and reading it gives a free value (notes/assumptions/2.md). -/
abbrev Memory := List Host.Cell

/-- The canonical form: strictly rising addresses. An unlisted address holds no value, so no listed byte could equal it. -/
abbrev Memory.wf (m : Memory) : Prop := m.Pairwise (fun x y => x.1 < y.1)

/-- One event of the total order of spec/20_memory.md R93: a host access of any address and width, the engine's step, or the hardware
reset input (spec/70_reset_and_hazards.md R431). -/
inductive Event where
  | read (addr : Word32) (width : Nat)
  | write (addr : Word32) (width : Nat) (value : Word32)
  | engine
  | hardwareReset
  deriving DecidableEq, Repr

/-- The state of the system. -/
@[ext]
structure State where
  /-- The instance parameters, never changed by a step (spec/00_scope.md R6). -/
  params : Params
  /-- Lane registers, datapath and scratch (spec/10_state.md R30, R32, R52), and with its constructor VARIANT (R2). -/
  hash : HashBank
  /-- MB[0..CMAX) (R35). -/
  mb : List Byte
  /-- MLEN (R35, R50). -/
  mlen : Nat
  /-- REACHED (R35). -/
  reached : Bool
  /-- FSM (R35, R48). -/
  fsm : Fsm
  /-- CFG (R36). -/
  cfg : TreeParams
  /-- CMD (R46). -/
  cmd : Word32
  /-- ARG_OFF (R47). -/
  argOff : Word32
  /-- ARG_LEN (R47). -/
  argLen : Word32
  /-- The command latch (R33). -/
  latch : Latch
  /-- STATUS.BUSY (R48). -/
  busy : Bool
  /-- STATUS.DEMOTED (R48). -/
  demoted : Bool
  /-- STATUS.LAST_ERR (R48). -/
  lastErr : BitVec 4
  /-- ERR_STICKY (R49). -/
  errSticky : Word32
  /-- INMEM and OUTMEM (R34). -/
  mem : Memory
  /-- The model's own: the events to come, oldest first; the host's program and the engine's LATENCY (notes/assumptions/4.md). -/
  agenda : List Event
  /-- The model's own: the values the host has read, newest first (notes/assumptions/4.md). -/
  reads : List Word32
  /-- The model's own: how often the hardware reset input was asserted, so that the free bytes of memory change with it. -/
  epoch : Nat
  /-- The model's own: how many host writes, engine steps and hardware resets have happened, so that free values are fresh. -/
  freeCtr : Nat
  deriving DecidableEq, Repr

/-- VARIANT of a hash unit. -/
def HashBank.variant : HashBank → Variant
  | .sha256 _ => .sha256
  | .sha512 _ => .sha512

/-- VARIANT of the instance (spec/00_scope.md R2). -/
def State.variant (s : State) : Variant := s.hash.variant

/-- All eight words zero. -/
def Words.zero (w : Nat) : Words w := ⟨0, 0, 0, 0, 0, 0, 0, 0⟩

/-- A lane at the initial value with a zero counter (spec/41_streaming.md R220). -/
def initLane {w : Nat} (A : Alg w) : Lane w := ⟨A.iv, 0, 0⟩

/-- A lane cleared to zero, not to the initial value (spec/41_streaming.md R222). -/
def clearLane (w : Nat) : Lane w := ⟨Words.zero w, 0, 0⟩

/-- Scratch storage holding zeros, one digest per lane register and one per possible branch (spec/43_config_control.md R339). -/
def zeroScratch (w : Nat) (v : Variant) (p : Params) : Scratch w :=
  ⟨zeros (laneRegisters v p * digestBytes v), zeros (laneRegisters v p / 2 * digestBytes v), clearLane w⟩

/-- The hash unit after power-on (spec/10_state.md R53): every lane at IV. The datapath and the scratch are unspecified there; the
model's value for them is zero (DESIGN CHOICE, notes/assumptions/5.md). -/
def powerOnUnit {w : Nat} (A : Alg w) (p : Params) : HashUnit w :=
  ⟨List.replicate (laneRegisters A.variant p) (initLane A), ⟨Words.zero w, List.replicate 16 0, 0⟩, zeroScratch w A.variant p⟩

/-- The hash unit of a variant after power-on. -/
def powerOnHash (v : Variant) (p : Params) : HashBank :=
  match v with
  | .sha256 => .sha256 (powerOnUnit alg256 p)
  | .sha512 => .sha512 (powerOnUnit alg512 p)

/-- CFG's reset column (spec/10_state.md R36): sequential, P = 1, digestLength D. -/
def resetConfig (v : Variant) : TreeParams := ⟨BitVec.ofNat 8 (digestBytes v), 0, 0, 0, 1, 0, 0, 0, 0⟩

/-- The state after power-on of an instance (spec/10_state.md R53, spec/70_reset_and_hazards.md R430), with nothing to come and nothing
read. The latch has no value in the spec; the model's is zero (DESIGN CHOICE, notes/assumptions/6.md). -/
def State.powerOn (v : Variant) (p : Params) : State where
  params := p
  hash := powerOnHash v p
  mb := zeros (bufferBytes v p)
  mlen := 0
  reached := false
  fsm := .empty
  cfg := resetConfig v
  cmd := 0
  argOff := 0
  argLen := 0
  latch := ⟨0, 0, 0⟩
  busy := false
  demoted := false
  lastErr := 0
  errSticky := 0
  mem := []
  agenda := []
  reads := []
  epoch := 0
  freeCtr := 0

/-- The machine right after power-on reset, for the instance of Config (notes/assumptions/1.md). -/
def State.reset : State := State.powerOn Config.resetVariant Config.resetParams

end Sys2Proof.Machine
end

