-- ==== Sys2Proof/Machine/Flags.lean ====
section
/-! DEFINITION. The error kinds and their codes, how a command ends (LAST_ERR, ERR_STICKY, BUSY), and the values of the host registers,
STATUS among them (spec/60_exceptions.md R380, R381; spec/10_state.md R44, R45, R48 to R50). -/

namespace Sys2Proof.Machine

open Sys2Proof

/-- The error kinds (spec/60_exceptions.md R381). The last two have reserved codes and no command raises them. -/
inductive ErrorKind where
  | invalidLength
  | bufferTooShort
  | configurationError
  | invalidDegree
  | invalidHeaderSize
  | contractViolation
  | illegalCommand
  | invalidKeySize
  | outputTooLarge
  deriving DecidableEq, Repr

/-- The code of an error kind (spec/60_exceptions.md R381). -/
def errorCode : ErrorKind → Nat
  | .invalidLength => 1
  | .bufferTooShort => 2
  | .configurationError => 3
  | .invalidDegree => 4
  | .invalidHeaderSize => 5
  | .contractViolation => 6
  | .illegalCommand => 7
  | .invalidKeySize => 8
  | .outputTooLarge => 9

/-- The ERR_STICKY bit number `n` (spec/10_state.md R49). -/
def stickyBit (n : Nat) : Word32 := 1#32 <<< n

/-- `raise E`, shared by every command: the step writes LAST_ERR and the sticky bit of the code, clears BUSY, and nothing else
(spec/60_exceptions.md R380). The engine has no traps: this is all an error does, and there is nothing to return from (R388). -/
def State.raise (e : ErrorKind) (s : State) : State :=
  { s with busy := false, lastErr := BitVec.ofNat 4 (errorCode e), errSticky := s.errSticky ||| stickyBit (errorCode e) }

/-- The end of a successful command: LAST_ERR ← 0 and BUSY clears; ERR_STICKY stays (spec/60_exceptions.md R381). -/
def State.complete (s : State) : State := { s with busy := false, lastErr := 0 }

/-- HOSTVIOL ← 1 and nothing else (spec/10_state.md R49, spec/60_exceptions.md R386). -/
def State.violation (s : State) : State := { s with errSticky := s.errSticky ||| stickyBit 15 }

/-- Write one to clear (spec/10_state.md R49). -/
def State.clearSticky (mask : Word32) (s : State) : State := { s with errSticky := s.errSticky &&& ~~~mask }

/-- Parallel mode (spec/10_state.md R45). -/
def State.parallel (s : State) : Bool := decide (1 ≤ s.cfg.treeDepth.toNat)

/-- N, the current lane count (spec/10_state.md R45). -/
def State.laneCount (s : State) : Nat := if s.parallel then s.cfg.parallelDegree.toNat * interleave s.variant else 1

/-- C, the segment size in bytes (spec/10_state.md R45). -/
def State.capacity (s : State) : Nat := s.laneCount * blockBytes s.variant

/-- The FSM field's encoding (spec/10_state.md R48). -/
def fsmCode : Fsm → Nat
  | .empty => 0
  | .buffering => 1
  | .finalizing => 2
  | .wiped => 3
  | .processing => 4

/-- The layout of STATUS (spec/10_state.md R48): bit 7 and bits [31:12] read 0. -/
def statusWord (busy : Bool) (fsm : BitVec 3) (par dem rea : Bool) (err : BitVec 4) : Word32 :=
  0#20 ++ err ++ 0#1 ++ BitVec.ofBool rea ++ BitVec.ofBool dem ++ BitVec.ofBool par ++ fsm ++ BitVec.ofBool busy

/-- STATUS while BUSY = 0 (spec/10_state.md R48). -/
def State.status (s : State) : Word32 :=
  statusWord s.busy (BitVec.ofNat 3 (fsmCode s.fsm)) s.parallel s.demoted s.reached s.lastErr

/-- ID (spec/10_state.md R44). -/
def State.idWord (s : State) : Word32 :=
  0x07#8 ++ BitVec.ofNat 8 s.params.maxDegree ++ BitVec.ofNat 8 (interleave s.variant) ++
    (match s.variant with
      | .sha256 => 0x01#8
      | .sha512 => 0x02#8)

/-- INFO (spec/10_state.md R44). -/
def State.infoWord (s : State) : Word32 :=
  BitVec.ofNat 8 (lengthBytes s.variant) ++ BitVec.ofNat 8 (rounds s.variant) ++ BitVec.ofNat 8 (blockBytes s.variant) ++
    BitVec.ofNat 8 (digestBytes s.variant)

end Sys2Proof.Machine
end

