-- ==== Sys2Proof/Machine/Operands.lean ====
section
/-! DEFINITION. The operands of a command and the checks on them: the latched ARG_OFF and ARG_LEN, the exact range checks, the lane check,
the configuration header and its validity (spec/30_encoding.md R122, spec/41_streaming.md R228, spec/10_state.md R43,
spec/43_config_control.md R332). -/

namespace Sys2Proof.Machine

open Sys2Proof

/-- o: ARG_OFF as it was when CMD was written (spec/10_state.md R47, spec/30_encoding.md R122). -/
def State.offset (s : State) : Nat := s.latch.off.toNat

/-- n: ARG_LEN as it was when CMD was written. -/
def State.length (s : State) : Nat := s.latch.len.toNat

/-- An input range is legal: exact arithmetic, no wrap (spec/41_streaming.md R228). -/
abbrev State.inRange (s : State) (o n : Nat) : Prop := o + n ≤ s.params.inSize

/-- An output range is legal: exact arithmetic (spec/41_streaming.md R228). -/
abbrev State.outRange (s : State) (o n : Nat) : Prop := o ≤ s.params.outSize ∧ n ≤ s.params.outSize - o

/-- The lane exists (spec/40_compression.md R178, spec/43_config_control.md R337). -/
abbrev State.laneExists (s : State) (k : Nat) : Prop := k < s.laneCount

/-- HDR(cfg), sixteen bytes, multi-byte fields little-endian (spec/10_state.md R43). -/
def headerBytes (c : TreeParams) : List Byte :=
  [c.digestLength, c.keyLength, c.treeDepth] ++ leBytes 4 c.leafLength.toNat ++ [c.parallelDegree, c.subTreeLength, c.nodeOffset] ++
    leBytes 2 c.reserved1.toNat ++ leBytes 4 c.reserved2.toNat

/-- The configuration sixteen header bytes spell (spec/43_config_control.md R331). -/
def parseHeader (h : List Byte) : TreeParams where
  digestLength := h.getD 0 0
  keyLength := h.getD 1 0
  treeDepth := h.getD 2 0
  leafLength := BitVec.ofNat 32 (leNat (slice h 3 4))
  parallelDegree := h.getD 7 0
  subTreeLength := h.getD 8 0
  nodeOffset := h.getD 9 0
  reserved1 := BitVec.ofNat 16 (leNat (slice h 10 2))
  reserved2 := BitVec.ofNat 32 (leNat (slice h 12 4))

/-- Valid(c), the seven checks in order (spec/43_config_control.md R332). -/
abbrev ValidConfig (v : Variant) (p : Params) (c : TreeParams) : Prop :=
  c.treeDepth.toNat ≤ 2 ∧
  c.digestLength.toNat = digestBytes v ∧
  (c.reserved1 = 0 ∧ c.reserved2 = 0) ∧
  (c.treeDepth.toNat = 0 → c.parallelDegree.toNat = 1) ∧
  (1 ≤ c.treeDepth.toNat →
    c.parallelDegree.toNat % 2 = 0 ∧ 2 ≤ c.parallelDegree.toNat ∧ c.parallelDegree.toNat ≤ p.maxDegree) ∧
  (c.treeDepth.toNat = 2 →
    2 ≤ c.subTreeLength.toNat ∧ (c.parallelDegree.toNat * interleave v) % c.subTreeLength.toNat = 0) ∧
  (c.treeDepth.toNat = 2 → p.strictPairing = true →
    c.subTreeLength.toNat % 2 = 0 ∧ (c.parallelDegree.toNat * interleave v / c.subTreeLength.toNat) % 2 = 0)

/-- The degree SETDEG refuses (spec/43_config_control.md R333). -/
abbrev badDegree (p : Params) (n : Nat) : Prop := n = 0 ∨ n % 2 = 1 ∨ p.maxDegree < n

/-- The configuration SETDEG would set: the degree, and depth 1 where it was 0 (spec/43_config_control.md R333). -/
def withDegree (c : TreeParams) (n : Nat) : TreeParams :=
  { c with parallelDegree := BitVec.ofNat 8 n, treeDepth := if c.treeDepth = 0 then 1 else c.treeDepth }

end Sys2Proof.Machine
end

