-- ==== Sys2Proof/Machine/Transform.lean ====
section
/-! DEFINITION. The compression transform as a pure function of eight words and one block (spec/40_compression.md R160 to R177), generic
in the word width. -/

namespace Sys2Proof.Machine

open Sys2Proof

/-- ROTR_n (spec/00_scope.md R11): the amount counts mod w, and a rotate by zero is the input. -/
def rotr {w : Nat} (n : Nat) (x : BitVec w) : BitVec w :=
  if n % w = 0 then x else (x >>> (n % w)) ||| (x <<< (w - n % w))

/-- ROTL_n (spec/00_scope.md R11). -/
def rotl {w : Nat} (n : Nat) (x : BitVec w) : BitVec w :=
  if n % w = 0 then x else rotr (w - n % w) x

/-- SHR_n (spec/00_scope.md R10). -/
def shr {w : Nat} (n : Nat) (x : BitVec w) : BitVec w := x >>> n

/-- Ch (spec/40_compression.md R163; its letters are positional, spec/90_conflicts.md C4). -/
def ch {w : Nat} (x y z : BitVec w) : BitVec w := (x &&& y) ^^^ (~~~x &&& z)

/-- Maj (spec/40_compression.md R163). -/
def maj {w : Nat} (x y z : BitVec w) : BitVec w := (x &&& y) ^^^ (x &&& z) ^^^ (y &&& z)

/-- A big sigma function: three rotates (spec/40_compression.md R164). -/
def bigSigma {w : Nat} (n : Nat × Nat × Nat) (x : BitVec w) : BitVec w := rotr n.1 x ^^^ rotr n.2.1 x ^^^ rotr n.2.2 x

/-- A small sigma function: two rotates and a shift (spec/40_compression.md R165). -/
def smallSigma {w : Nat} (n : Nat × Nat × Nat) (x : BitVec w) : BitVec w := rotr n.1 x ^^^ rotr n.2.1 x ^^^ shr n.2.2 x

/-- W[0..15], read big-endian (spec/40_compression.md R160, R170). -/
def loadBlock (w : Nat) (blk : List Byte) : List (BitVec w) := (List.range 16).map (fun i => beWord w blk (i * (w / 8)))

/-- The next schedule word from the sixteen before it (spec/40_compression.md R171, R176). -/
def nextWord {w : Nat} (A : Alg w) (window : List (BitVec w)) : BitVec w :=
  window.getD 0 0 + smallSigma A.smallSigma0 (window.getD 1 0) + window.getD 9 0 + smallSigma A.smallSigma1 (window.getD 14 0)

/-- `n` more schedule words over the sliding window (spec/40_compression.md R176). -/
def extend {w : Nat} (A : Alg w) : Nat → List (BitVec w) → List (BitVec w)
  | 0, _ => []
  | n + 1, window => nextWord A window :: extend A n (window.tail ++ [nextWord A window])

/-- W[0..ROUNDS) (spec/40_compression.md R170, R171). -/
def schedule {w : Nat} (A : Alg w) (blk : List Byte) : List (BitVec w) :=
  loadBlock w blk ++ extend A (rounds A.variant - 16) (loadBlock w blk)

/-- T1 of a round (spec/40_compression.md R172). -/
def roundT1 {w : Nat} (A : Alg w) (v : Words w) (k x : BitVec w) : BitVec w :=
  v.h + bigSigma A.bigSigma1 v.e + ch v.e v.f v.g + k + x

/-- T2 of a round (spec/40_compression.md R172). -/
def roundT2 {w : Nat} (A : Alg w) (v : Words w) : BitVec w := bigSigma A.bigSigma0 v.a + maj v.a v.b v.c

/-- One round on the working variables, with the round's K[t] and W[t] (spec/40_compression.md R172). -/
def roundStep {w : Nat} (A : Alg w) (v : Words w) (kx : BitVec w × BitVec w) : Words w :=
  ⟨roundT1 A v kx.1 kx.2 + roundT2 A v, v.a, v.b, v.c, v.d + roundT1 A v kx.1 kx.2, v.e, v.f, v.g⟩

/-- The working variables after all rounds (spec/40_compression.md R172, R173). -/
def runRounds {w : Nat} (A : Alg w) (v : Words w) (sched : List (BitVec w)) : Words w :=
  (A.roundConstants.zip sched).foldl (roundStep A) v

/-- Word by word addition mod 2^w (spec/40_compression.md R173). -/
def addWords {w : Nat} (x y : Words w) : Words w :=
  ⟨x.a + y.a, x.b + y.b, x.c + y.c, x.d + y.d, x.e + y.e, x.f + y.f, x.g + y.g, x.h + y.h⟩

/-- F(H, blk): the transform with its feed-forward (spec/40_compression.md R162, R173, R175). -/
def transform {w : Nat} (A : Alg w) (hash : Words w) (blk : List Byte) : Words w :=
  addWords hash (runRounds A hash (schedule A blk))

/-- A digest: the eight words big-endian, in order (spec/40_compression.md R160). -/
def serWords {w : Nat} (x : Words w) : List Byte := x.toList.flatMap serWord

end Sys2Proof.Machine
end

