-- ==== Sys2Proof/Machine/Ops.lean ====
section
/-! DEFINITION. The named operations over memory and lanes: the byte windows (spec/00_scope.md R13, spec/20_memory.md R89), one lane's
increase, compression and finishing (spec/40_compression.md R175, spec/41_streaming.md R220 to R222, R230), HashOf (spec/42_tree.md R288),
the lane file, and ResetStream (spec/41_streaming.md R234). -/

namespace Sys2Proof.Machine

open Sys2Proof

/-- The byte listed at an address, if any. -/
def memLookup : Memory → Nat → Option Byte
  | [], _ => none
  | (x, v) :: m, a => if a = x then some v else memLookup m a

/-- Store one byte, keeping the addresses strictly rising. -/
def memStore : Memory → Nat → Byte → Memory
  | [], a, b => [(a, b)]
  | (x, v) :: m, a, b => if a < x then (a, b) :: (x, v) :: m else if a = x then (a, b) :: m else (x, v) :: memStore m a b

/-- Store a byte sequence from an address on. -/
def memStoreBytes : Memory → Nat → List Byte → Memory
  | m, _, [] => m
  | m, a, b :: bs => memStoreBytes (memStore m a b) (a + 1) bs

/-- Both windows full of zeros (spec/43_config_control.md R339). -/
def zeroWindows (p : Params) : Memory :=
  (List.range p.inSize).map (fun i => (inBase + i, 0#8)) ++ (List.range p.outSize).map (fun i => (outBase + i, 0#8))

/-- The window byte at a host address: the last one written, or a free value where none was since power-on
(spec/20_memory.md R93, spec/70_reset_and_hazards.md R434). -/
def State.byteAt (s : State) (a : Nat) : Byte := (memLookup s.mem a).getD (Config.unwrittenByte s.epoch a)

/-- MemRead(o, n): INMEM[o..o+n) (spec/00_scope.md R13). -/
def State.memRead (s : State) (o n : Nat) : List Byte := (List.range n).map (fun i => s.byteAt (inBase + o + i))

/-- MemWrite(o, |bs|, bs): OUTMEM from offset o (spec/00_scope.md R13). -/
def State.memWrite (s : State) (o : Nat) (bs : List Byte) : State := { s with mem := memStoreBytes s.mem (outBase + o) bs }

/-- TOTAL of a lane (spec/10_state.md R31). -/
def laneTotal {w : Nat} (l : Lane w) : Nat := l.cntHi.toNat * 2 ^ 61 + l.cntLo.toNat

/-- Increase (spec/41_streaming.md R221): exact sum, carry into CNT_HI at 2^61. -/
def increaseLane {w : Nat} (l : Lane w) (n : Nat) : Lane w :=
  { l with
    cntHi := l.cntHi + BitVec.ofNat 64 ((l.cntLo.toNat + n) / 2 ^ 61)
    cntLo := BitVec.ofNat 64 ((l.cntLo.toNat + n) % 2 ^ 61) }

/-- Compress one block into a lane or a scratch state (spec/40_compression.md R174, R175). -/
def compressLane {w : Nat} (A : Alg w) (l : Lane w) (blk : List Byte) : Lane w :=
  increaseLane { l with words := transform A l.words blk } (blockBytes A.variant)

/-- Compress the whole blocks of a byte sequence but a last one of at most B bytes, which stays as the tail: the loops of
spec/41_streaming.md R229 and spec/42_tree.md R288. `fuel` bounds the rounds; the length of the sequence is enough. -/
def absorbBlocks {w : Nat} (A : Alg w) : Nat → Lane w → List Byte → Lane w × List Byte
  | 0, l, msg => (l, msg)
  | fuel + 1, l, msg =>
    if blockBytes A.variant < msg.length then
      absorbBlocks A fuel (compressLane A l (msg.take (blockBytes A.variant))) (msg.drop (blockBytes A.variant))
    else (l, msg)

/-- The length field: the lane's message bits mod 2^(8L), big-endian, captured before any padding compression
(spec/41_streaming.md R230, spec/90_conflicts.md C8). -/
def lengthField {w : Nat} (A : Alg w) (l : Lane w) (tail : List Byte) : List Byte :=
  beBytes (lengthBytes A.variant) (8 * (laneTotal l + tail.length))

/-- Pad a tail of fewer than B bytes and run the last one or two compressions (spec/41_streaming.md R230, R231). -/
def padLane {w : Nat} (A : Alg w) (field : List Byte) (l : Lane w) (tail : List Byte) : Lane w :=
  let padded := tail ++ [0x80#8] ++ zeros (blockBytes A.variant - tail.length - 1)
  if blockBytes A.variant - lengthBytes A.variant < tail.length + 1 then
    compressLane A (compressLane A l padded) (zeros (blockBytes A.variant - lengthBytes A.variant) ++ field)
  else compressLane A l (padded.take (blockBytes A.variant - lengthBytes A.variant) ++ field)

/-- LaneFinal: the lane after padding, from a tail of at most B bytes (spec/41_streaming.md R230). -/
def finishLane {w : Nat} (A : Alg w) (l : Lane w) (tail : List Byte) : Lane w :=
  if tail.length = blockBytes A.variant then padLane A (lengthField A l tail) (compressLane A l tail) []
  else padLane A (lengthField A l tail) l tail

/-- The D bytes LaneFinal returns (spec/41_streaming.md R230). -/
def laneFinal {w : Nat} (A : Alg w) (l : Lane w) (tail : List Byte) : List Byte := serWords (finishLane A l tail).words

/-- Absorb a byte sequence into a lane or scratch state and finish it (spec/41_streaming.md R229, spec/42_tree.md R288). -/
def finishMessage {w : Nat} (A : Alg w) (l : Lane w) (msg : List Byte) : List Byte :=
  laneFinal A (absorbBlocks A msg.length l msg).1 (absorbBlocks A msg.length l msg).2

/-- HashOf: a byte string's digest on a fresh scratch state (spec/42_tree.md R288). -/
def hashOf {w : Nat} (A : Alg w) (msg : List Byte) : List Byte := finishMessage A (initLane A) msg

/-- Give the first `n` lanes one block each of the segment, in lane order (spec/42_tree.md R281). -/
def dispatchLanes {w : Nat} (A : Alg w) : Nat → List Byte → List (Lane w) → List (Lane w)
  | 0, _, lanes => lanes
  | _ + 1, _, [] => []
  | n + 1, seg, l :: lanes =>
    compressLane A l (seg.take (blockBytes A.variant)) :: dispatchLanes A n (seg.drop (blockBytes A.variant)) lanes

/-- LANE[k], which exists for every k < N_MAX. -/
def laneAt {w : Nat} (A : Alg w) (lanes : List (Lane w)) (k : Nat) : Lane w := lanes.getD k (initLane A)

/-- A lane's state as READLANE writes it: H, CNT_HI, CNT_LO, all big-endian (spec/43_config_control.md R337). -/
def laneImage {w : Nat} (l : Lane w) : List Byte := serWords l.words ++ serWord l.cntHi ++ serWord l.cntLo

/-- Apply a function of the lane file to the instance's hash unit, whichever its variant. -/
def onLanes (f : {w : Nat} → Alg w → List (Lane w) → List (Lane w)) : HashBank → HashBank
  | .sha256 u => .sha256 { u with lanes := f alg256 u.lanes }
  | .sha512 u => .sha512 { u with lanes := f alg512 u.lanes }

/-- Read a value off the lane file, whichever the variant. -/
def fromLanes {α : Type} (f : {w : Nat} → Alg w → List (Lane w) → α) : HashBank → α
  | .sha256 u => f alg256 u.lanes
  | .sha512 u => f alg512 u.lanes

/-- Replace the scratch of the hash unit, whichever the variant. -/
def withScratch (f : {w : Nat} → Alg w → Scratch w) : HashBank → HashBank
  | .sha256 u => .sha256 { u with scratch := f alg256 }
  | .sha512 u => .sha512 { u with scratch := f alg512 }

/-- Replace the datapath registers of the hash unit, whichever the variant. -/
def withDatapath (f : {w : Nat} → Alg w → Datapath w) : HashBank → HashBank
  | .sha256 u => .sha256 { u with datapath := f alg256 }
  | .sha512 u => .sha512 { u with datapath := f alg512 }

/-- Eight unspecified words, from cell `i` of the free values on. -/
def freeWords (ctr i w : Nat) : Words w :=
  ⟨Config.internalBits ctr i w, Config.internalBits ctr (i + 1) w, Config.internalBits ctr (i + 2) w, Config.internalBits ctr (i + 3) w,
    Config.internalBits ctr (i + 4) w, Config.internalBits ctr (i + 5) w, Config.internalBits ctr (i + 6) w,
    Config.internalBits ctr (i + 7) w⟩

/-- The datapath registers between commands: unspecified, with t below ROUNDS (spec/10_state.md R32). -/
def freeDatapath {w : Nat} (ctr : Nat) (A : Alg w) : Datapath w :=
  ⟨freeWords ctr 0 w, (List.range 16).map (fun i => Config.internalBits ctr (8 + i) w),
    (Config.internalBits ctr 24 w).toNat % rounds A.variant⟩

/-- The reduction scratch after a FINALIZE that used it: unspecified (spec/10_state.md R52, spec/93_implementation_defined.md). -/
def freeScratch {w : Nat} (ctr : Nat) (p : Params) (A : Alg w) : Scratch w :=
  ⟨(List.range (laneRegisters A.variant p * digestBytes A.variant)).map (fun i => Config.internalBits ctr (64 + 2 * i) 8),
    (List.range (laneRegisters A.variant p / 2 * digestBytes A.variant)).map (fun i => Config.internalBits ctr (65 + 2 * i) 8),
    ⟨freeWords ctr 32 w, Config.internalBits ctr 40 64, Config.internalBits ctr 41 64⟩⟩

/-- ResetStream (spec/41_streaming.md R234). -/
def State.resetStream (s : State) : State :=
  { s with
    hash := onLanes (fun A lanes => lanes.map (fun _ => initLane A)) s.hash
    mb := zeros (bufferBytes s.variant s.params)
    mlen := 0
    reached := false
    fsm := .empty }

/-- The lane file with every lane cleared to zero (spec/43_config_control.md R339). -/
def clearLanes (b : HashBank) : HashBank := onLanes (fun {w} _ lanes => lanes.map (fun _ => clearLane w)) b

end Sys2Proof.Machine
end

