-- ==== Sys2Proof/Machine/Bus.lean ====
section
/-! DEFINITION. The host's side of the bus: which accesses are admitted, what reads return, what writes do, idle and busy
(spec/20_memory.md R82 to R88), and the hardware reset input (spec/70_reset_and_hazards.md R431). -/

namespace Sys2Proof.Machine

open Sys2Proof

/-- Where an admitted access lands: a register offset, or window bytes at a host address (spec/10_state.md R34). -/
inductive Target where
  | reg (offset : Nat)
  | window (addr : Nat)
  deriving DecidableEq, Repr

/-- The registers a read may name: every offset below 0x28 (spec/20_memory.md R84, R91). -/
abbrev readableReg (offset : Nat) : Prop := offset < 0x28

/-- The registers a write may name (spec/20_memory.md R83, R84). -/
abbrev writableReg (offset : Nat) : Prop := offset = 0x04 ∨ offset = 0x08 ∨ offset = 0x0C ∨ offset = 0x14

/-- The access is 1, 2 or 4 bytes and naturally aligned (spec/20_memory.md R85). -/
abbrev wellFormedAccess (a width : Nat) : Prop := (width = 1 ∨ width = 2 ∨ width = 4) ∧ a % width = 0

/-- All bytes of the access lie in INMEM, or all in OUTMEM (spec/20_memory.md R83). -/
abbrev inWindow (p : Params) (a width : Nat) : Prop :=
  (inBase ≤ a ∧ a + width ≤ inBase + p.inSize) ∨ (outBase ≤ a ∧ a + width ≤ outBase + p.outSize)

/-- The target of an access, none where it is unmapped or ill-formed (spec/20_memory.md R83 to R85). A reserved or read-only register
is sorted out by the read and the write. -/
def targetOf (p : Params) (a width : Nat) : Option Target :=
  if ¬ wellFormedAccess a width then none
  else if a + width ≤ 0x40 then (if width = 4 then some (.reg a) else none)
  else if inWindow p a width then some (.window a)
  else none

/-- The value of a register while BUSY = 0; a reserved offset has none (spec/10_state.md R44 to R50, spec/20_memory.md R91). -/
def State.regValue (s : State) (offset : Nat) : Word32 :=
  match offset with
  | 0x00 => s.idWord
  | 0x04 => s.cmd
  | 0x08 => s.argOff
  | 0x0C => s.argLen
  | 0x10 => s.status
  | 0x14 => s.errSticky
  | 0x18 => BitVec.ofNat 32 s.mlen
  | 0x1C => BitVec.ofNat 32 s.laneCount
  | 0x20 => BitVec.ofNat 32 s.capacity
  | 0x24 => s.infoWord
  | _ => 0

/-- Unspecified bytes of a read while BUSY = 1 (spec/20_memory.md R87): the same again until a write or an engine step (R88). -/
def State.busyBytes (s : State) (a width : Nat) : List Byte :=
  (List.range width).map (fun i => Config.busyByte s.freeCtr (a + i))

/-- An unspecified register value while BUSY = 1. -/
def State.busyWord (s : State) (a : Nat) : Word32 := BitVec.ofNat 32 (leNat (s.busyBytes a 4))

/-- The bits of ERR_STICKY that exist (spec/10_state.md R49). -/
def stickyMask : Word32 := 0x000083FE#32

/-- STATUS while BUSY = 1: PARALLEL as configured; FSM, DEMOTED, REACHED and LAST_ERR unspecified, FSM never 5 to 7
(spec/20_memory.md R87, spec/10_state.md R48). -/
def State.busyStatus (s : State) : Word32 :=
  statusWord true (BitVec.ofNat 3 (((s.busyWord 0x10).extractLsb' 0 16).toNat % 5)) s.parallel
    ((s.busyWord 0x10).getLsbD 16) ((s.busyWord 0x10).getLsbD 17) ((s.busyWord 0x10).extractLsb' 18 4)

/-- The value of a register while BUSY = 1 (spec/20_memory.md R87); the reserved bits of ERR_STICKY still read 0
(spec/93_implementation_defined.md). -/
def State.busyRegValue (s : State) (offset : Nat) : Word32 :=
  match offset with
  | 0x00 => s.idWord
  | 0x04 => s.cmd
  | 0x08 => s.argOff
  | 0x0C => s.argLen
  | 0x10 => s.busyStatus
  | 0x14 => s.busyWord 0x14 &&& stickyMask
  | 0x18 => s.busyWord 0x18
  | 0x1C => s.busyWord 0x1C
  | 0x20 => s.busyWord 0x20
  | 0x24 => s.infoWord
  | _ => 0

/-- The window bytes a host read sees. -/
def State.windowBytes (s : State) (a width : Nat) : List Byte :=
  if s.busy then s.busyBytes a width else (List.range width).map (fun i => s.byteAt (a + i))

/-- The value an admitted read returns, none where the read is not admitted (spec/20_memory.md R82 to R87). -/
def State.readValue (s : State) (a width : Nat) : Option Word32 :=
  match targetOf s.params a width with
  | some (.reg offset) =>
    if readableReg offset then some (if s.busy then s.busyRegValue offset else s.regValue offset) else none
  | some (.window b) => some (BitVec.ofNat 32 (leNat (s.windowBytes b width)))
  | none => none

/-- A host read: the value, or 0 and HOSTVIOL (spec/20_memory.md R84, R88). -/
def State.hostRead (s : State) (addr : Word32) (width : Nat) : State :=
  match s.readValue addr.toNat width with
  | some v => { s with reads := v :: s.reads }
  | none => { s.violation with reads := 0 :: s.reads }

/-- An accepted CMD write: latch the word and the operands, set BUSY (spec/10_state.md R33, R46, R47). -/
def State.issue (s : State) (word : Word32) : State :=
  { s with cmd := word, latch := ⟨word, s.argOff, s.argLen⟩, busy := true }

/-- The low `width` bytes of a bus value, at increasing addresses (spec/20_memory.md R82). -/
def State.storeValue (s : State) (a width : Nat) (value : Word32) : State :=
  { s with mem := memStoreBytes s.mem a (leBytes width value.toNat) }

/-- A write to a register (spec/20_memory.md R83, R88). -/
def State.regWrite (s : State) (offset : Nat) (value : Word32) : State :=
  match offset with
  | 0x04 => s.issue value
  | 0x08 => { s with argOff := value }
  | 0x0C => { s with argLen := value }
  | 0x14 => s.clearSticky value
  | _ => s.violation

/-- A write's effect on the machine: dropped with HOSTVIOL while BUSY or where it is not admitted (spec/20_memory.md R84 to R86). -/
def State.writeEffect (s : State) (a width : Nat) (value : Word32) : State :=
  if s.busy then s.violation
  else
    match targetOf s.params a width with
    | some (.reg offset) => s.regWrite offset value
    | some (.window b) => s.storeValue b width value
    | none => s.violation

/-- The free values change: a host write, an engine step or a hardware reset has happened. -/
def State.refresh (s : State) : State := { s with freeCtr := s.freeCtr + 1 }

/-- A host write. -/
def State.hostWrite (s : State) (addr : Word32) (width : Nat) (value : Word32) : State :=
  (s.writeEffect addr.toNat width value).refresh

/-- The hardware reset input: power-on again, the windows unspecified again; what the host has read and will do is its own
(spec/70_reset_and_hazards.md R431). -/
def State.hardwareReset (s : State) : State :=
  { State.powerOn s.variant s.params with
    agenda := s.agenda
    reads := s.reads
    epoch := s.epoch + 1
    freeCtr := s.freeCtr + 1 }

end Sys2Proof.Machine
end

