-- ==== Sys2Proof/Syntax.lean ====
section
/-! DEFINITION. The ten commands of the opcode map (spec/30_encoding.md R126), one constructor each, with the operand the command word
carries. The memory operands travel in ARG_OFF and ARG_LEN (R122), so they are state, not syntax. -/

namespace Sys2Proof

/-- A decoded command. A lane index or a degree is the zero-extended IMM8 (spec/30_encoding.md R121). -/
inductive Instr where
  /-- No operation (spec/43_config_control.md R341). -/
  | nop
  /-- Start a new message (spec/41_streaming.md R236). -/
  | reset
  /-- Absorb bytes of INMEM (spec/41_streaming.md R224). -/
  | update
  /-- Finish the message and write the digest (spec/41_streaming.md R227). -/
  | finalize
  /-- Compress one block of INMEM into lane `k` (spec/40_compression.md R178). -/
  | compress (k : Nat)
  /-- Load the configuration from a header in INMEM (spec/43_config_control.md R331). -/
  | loadhdr
  /-- Store the configuration's header to OUTMEM (spec/43_config_control.md R335). -/
  | storehdr
  /-- Set the parallel degree to `n` (spec/43_config_control.md R333). -/
  | setdeg (n : Nat)
  /-- Copy lane `k` to OUTMEM (spec/43_config_control.md R337). -/
  | readlane (k : Nat)
  /-- Secure erasure (spec/43_config_control.md R339). -/
  | wipe
  deriving DecidableEq, Repr

end Sys2Proof
end

