-- ==== Sys2Proof/WellFormed.lean ====
section
/-! DEFINITION. Which command terms the encoding can hold: IMM8 is eight bits wide (spec/30_encoding.md R120, R121). -/

namespace Sys2Proof

/-- The lane index or degree fits IMM8; a command without one is always well-formed. -/
def Instr.wellFormed : Instr → Bool
  | .nop => true
  | .reset => true
  | .update => true
  | .finalize => true
  | .compress k => decide (k < 256)
  | .loadhdr => true
  | .storehdr => true
  | .setdeg n => decide (n < 256)
  | .readlane k => decide (k < 256)
  | .wipe => true

/-- The check as a proposition; it is decidable because it is an equation of Bools. -/
abbrev Instr.WellFormed (i : Instr) : Prop := i.wellFormed = true

end Sys2Proof
end

