-- ==== Sys2Proof/Decode.lean ====
section
/-! DEFINITION. From a command word to a command, total and rejecting by name (spec/30_encoding.md R120 to R129), and back: the encoder,
and the opcode map as mask and match rows (R126). -/

namespace Sys2Proof

/-- Why a word is no command: the three checks of spec/30_encoding.md R123, in their order. Each one is IllegalCommand (R129). -/
inductive DecodeError where
  /-- Bits [31:16] are not 0. -/
  | reservedField
  /-- The opcode is 0x0A or above. -/
  | unassignedOpcode
  /-- IMM8 is not 0 on a command that takes none. -/
  | strayImmediate
  deriving DecidableEq, Repr

/-- OPC, bits [7:0] (spec/30_encoding.md R120). -/
def fieldOpc (word : Word32) : Nat := (word.extractLsb' 0 8).toNat

/-- IMM8, bits [15:8], zero-extended (spec/30_encoding.md R121). -/
def fieldImm (word : Word32) : Nat := (word.extractLsb' 8 8).toNat

/-- RSV, bits [31:16]. -/
def fieldRsv (word : Word32) : Nat := (word.extractLsb' 16 16).toNat

/-- The opcodes whose command reads IMM8 (spec/30_encoding.md R121). -/
def takesImm (opc : Nat) : Bool := opc == 0x04 || opc == 0x07 || opc == 0x08

/-- The command an assigned opcode selects (spec/30_encoding.md R126). -/
def commandOf (opc imm : Nat) : Except DecodeError Instr :=
  match opc with
  | 0x00 => .ok .nop
  | 0x01 => .ok .reset
  | 0x02 => .ok .update
  | 0x03 => .ok .finalize
  | 0x04 => .ok (.compress imm)
  | 0x05 => .ok .loadhdr
  | 0x06 => .ok .storehdr
  | 0x07 => .ok (.setdeg imm)
  | 0x08 => .ok (.readlane imm)
  | 0x09 => .ok .wipe
  | _ => .error .unassignedOpcode

/-- Decode (spec/30_encoding.md R123). -/
def decode (word : Word32) : Except DecodeError Instr :=
  if fieldRsv word ≠ 0 then .error .reservedField
  else if 0x09 < fieldOpc word then .error .unassignedOpcode
  else if fieldImm word ≠ 0 ∧ takesImm (fieldOpc word) = false then .error .strayImmediate
  else commandOf (fieldOpc word) (fieldImm word)

/-- The opcode of a command (spec/30_encoding.md R126). -/
def opcode : Instr → Nat
  | .nop => 0x00
  | .reset => 0x01
  | .update => 0x02
  | .finalize => 0x03
  | .compress _ => 0x04
  | .loadhdr => 0x05
  | .storehdr => 0x06
  | .setdeg _ => 0x07
  | .readlane _ => 0x08
  | .wipe => 0x09

/-- The immediate of a command, 0 where it has none (spec/30_encoding.md R121). -/
def immediate : Instr → Nat
  | .nop => 0
  | .reset => 0
  | .update => 0
  | .finalize => 0
  | .compress k => k
  | .loadhdr => 0
  | .storehdr => 0
  | .setdeg n => n
  | .readlane k => k
  | .wipe => 0

/-- The word of a command: RSV = 0, then IMM8, then OPC (spec/30_encoding.md R120, R127). -/
def encode (i : Instr) : Word32 :=
  BitVec.ofNat 16 0 ++ BitVec.ofNat 8 (immediate i) ++ BitVec.ofNat 8 (opcode i)

/-- One row of the opcode map: the fixed bits and which bits are fixed (spec/30_encoding.md R126). -/
structure OpcodeRow where
  mnemonic : String
  matchBits : Word32
  maskBits : Word32
  deriving DecidableEq, Repr

/-- The opcode map of spec/30_encoding.md R126, row by row. -/
def opcodeTable : List OpcodeRow :=
  [ ⟨"nop", 0x00000000#32, 0xFFFFFFFF#32⟩,
    ⟨"reset", 0x00000001#32, 0xFFFFFFFF#32⟩,
    ⟨"update", 0x00000002#32, 0xFFFFFFFF#32⟩,
    ⟨"finalize", 0x00000003#32, 0xFFFFFFFF#32⟩,
    ⟨"compress", 0x00000004#32, 0xFFFF00FF#32⟩ ] ++
  [ ⟨"loadhdr", 0x00000005#32, 0xFFFFFFFF#32⟩,
    ⟨"storehdr", 0x00000006#32, 0xFFFFFFFF#32⟩,
    ⟨"setdeg", 0x00000007#32, 0xFFFF00FF#32⟩,
    ⟨"readlane", 0x00000008#32, 0xFFFF00FF#32⟩,
    ⟨"wipe", 0x00000009#32, 0xFFFFFFFF#32⟩ ]

/-- A word selects a row when its fixed bits are the row's (spec/30_encoding.md R126: w ∧ mask = match). -/
def OpcodeRow.selects (r : OpcodeRow) (word : Word32) : Bool := word &&& r.maskBits == r.matchBits

/-- The table's spelling of a command. -/
def mnemonic : Instr → String
  | .nop => "nop"
  | .reset => "reset"
  | .update => "update"
  | .finalize => "finalize"
  | .compress _ => "compress"
  | .loadhdr => "loadhdr"
  | .storehdr => "storehdr"
  | .setdeg _ => "setdeg"
  | .readlane _ => "readlane"
  | .wipe => "wipe"

/-- Which operands a command reads (spec/30_encoding.md R124). -/
inductive Form where
  | none
  | range
  | offset
  | laneOffset
  | immediate
  deriving DecidableEq, Repr

/-- The operand form of each command (spec/30_encoding.md R124). -/
def formOf : Instr → Form
  | .nop => .none
  | .reset => .none
  | .update => .range
  | .finalize => .offset
  | .compress _ => .laneOffset
  | .loadhdr => .range
  | .storehdr => .offset
  | .setdeg _ => .immediate
  | .readlane _ => .laneOffset
  | .wipe => .none

/-- The forms that read ARG_OFF (spec/30_encoding.md R124). -/
def Form.readsOffset : Form → Bool
  | .none => false
  | .range => true
  | .offset => true
  | .laneOffset => true
  | .immediate => false

/-- The forms that read ARG_LEN (spec/30_encoding.md R124). -/
def Form.readsLength : Form → Bool
  | .none => false
  | .range => true
  | .offset => false
  | .laneOffset => false
  | .immediate => false

/-- The command the decoder reads from a word given as the opcode table numbers its bits; every bit above `nbits` is 0. -/
def decodeTableWord (nbits w : Nat) : Option Instr :=
  match decode (BitVec.ofNat 32 (w % 2 ^ nbits)) with
  | .ok i => some i
  | .error _ => none

end Sys2Proof
end

