-- ==== Sys2Proof/Machine/Tree.lean ====
section
/-! DEFINITION. The parallel half: how FINALIZE shares the buffered tail among the lanes and reduces the lane hashes at depth 1 and 2
(spec/42_tree.md R286 to R293). -/

namespace Sys2Proof.Machine

open Sys2Proof

/-- LH[0..n): buffered byte j belongs to lane floor(j / B), and each lane pads its own tail (spec/42_tree.md R286, R287). -/
def laneHashes {w : Nat} (A : Alg w) : Nat → List Byte → List (Lane w) → List (List Byte)
  | 0, _, _ => []
  | _ + 1, _, [] => []
  | n + 1, tail, l :: lanes =>
    laneFinal A l (tail.take (blockBytes A.variant)) :: laneHashes A n (tail.drop (blockBytes A.variant)) lanes

/-- Depth 1: one root over all lane hashes, in lane order (spec/42_tree.md R289). -/
def depth1 {w : Nat} (A : Alg w) (hashes : List (List Byte)) : List Byte := hashOf A hashes.flatten

/-- cfg_b: CFG with nodeOffset + b mod 256 (spec/42_tree.md R291). -/
def branchConfig (c : TreeParams) (b : Nat) : TreeParams := { c with nodeOffset := c.nodeOffset + BitVec.ofNat 8 b }

/-- BH[b] (spec/42_tree.md R290, R291). -/
def branchHash {w : Nat} (A : Alg w) (c : TreeParams) (hashes : List (List Byte)) (b : Nat) : List Byte :=
  hashOf A (((hashes.drop (b * c.subTreeLength.toNat)).take c.subTreeLength.toNat).flatten ++ headerBytes (branchConfig c b))

/-- Depth 2: the root over NB = N / ST branch hashes (spec/42_tree.md R290, R292). -/
def depth2 {w : Nat} (A : Alg w) (c : TreeParams) (hashes : List (List Byte)) : List Byte :=
  hashOf A ((List.range (hashes.length / c.subTreeLength.toNat)).map (branchHash A c hashes)).flatten

/-- The reduction CFG selects (spec/42_tree.md R286). -/
def reduceHashes {w : Nat} (A : Alg w) (c : TreeParams) (hashes : List (List Byte)) : List Byte :=
  if c.treeDepth.toNat = 1 then depth1 A hashes else depth2 A c hashes

/-- The message bytes waiting in the buffer: MB[0..MLEN). -/
def State.buffered (s : State) : List Byte := s.mb.take s.mlen

/-- SeqFinal: the buffered bytes through lane 0 (spec/41_streaming.md R229). -/
def State.seqFinal (s : State) : List Byte :=
  fromLanes (fun A lanes => finishMessage A (laneAt A lanes 0) s.buffered) s.hash

/-- TreeFinal (spec/42_tree.md R286). -/
def State.treeFinal (s : State) : List Byte :=
  fromLanes (fun A lanes => reduceHashes A s.cfg (laneHashes A s.laneCount s.buffered lanes)) s.hash

/-- FINALIZE takes the tree path: parallel mode, and the message reached the threshold (spec/41_streaming.md R227). -/
def State.takesTree (s : State) : Bool := s.parallel && (s.reached || decide (s.capacity ≤ s.mlen))

/-- FINALIZE takes the demotion path (spec/41_streaming.md R227, spec/42_tree.md R285). -/
def State.demotes (s : State) : Bool := s.parallel && !s.takesTree

/-- The digest FINALIZE writes (spec/41_streaming.md R227). -/
def State.digest (s : State) : List Byte := if s.takesTree then s.treeFinal else s.seqFinal

end Sys2Proof.Machine
end

