-- ==== Sys2Proof/Machine/Streaming.lean ====
section
/-! DEFINITION. The streaming commands: UPDATE, FINALIZE, RESET (spec/41_streaming.md). -/

namespace Sys2Proof.Machine

open Sys2Proof

/-- Dispatch: block k of the segment into lane k, and REACHED (spec/42_tree.md R281, R282). -/
def State.dispatch (s : State) (seg : List Byte) : State :=
  { s with hash := onLanes (fun A lanes => dispatchLanes A s.laneCount seg lanes) s.hash, reached := true }

/-- Compress(k, blk) on the lane file (spec/40_compression.md R175). -/
def State.compressAt (s : State) (k : Nat) (blk : List Byte) : State :=
  { s with hash := onLanes (fun A lanes => lanes.modify k (fun l => compressLane A l blk)) s.hash }

/-- Segment: flush C bytes (spec/41_streaming.md R223). -/
def State.segment (s : State) (seg : List Byte) : State := if s.parallel then s.dispatch seg else s.compressAt 0 seg

/-- Flush the next `n` segments of a byte sequence, straight from the input (spec/41_streaming.md R224). -/
def State.segments : Nat → List Byte → State → State
  | 0, _, s => s
  | n + 1, src, s => State.segments n (src.drop s.capacity) (s.segment (src.take s.capacity))

/-- The buffer after `src` is written at its place: MB[i..i+|src|) <- src. -/
def State.fillBuffer (s : State) (i : Nat) (src : List Byte) : State := { s with mb := splice s.mb i src }

/-- Absorb input that fits the buffer (spec/41_streaming.md R224, the else branch). -/
def State.absorbFit (s : State) (src : List Byte) : State := { s.fillBuffer s.mlen src with mlen := s.mlen + src.length }

/-- Keep what is left of the input in the emptied buffer (spec/41_streaming.md R224). -/
def State.keepRest (s : State) (rest : List Byte) : State := { s.fillBuffer 0 rest with mlen := rest.length }

/-- Absorb input that overflows the buffer: fill and flush it, flush whole segments of the input, keep the rest
(spec/41_streaming.md R224, the first branch). -/
def State.absorbOverflow (s : State) (src : List Byte) : State :=
  let fill := s.capacity - s.mlen
  let filled := s.fillBuffer s.mlen (src.take fill)
  let rest := src.drop fill
  let whole := rest.length / s.capacity
  (State.segments whole rest (filled.segment (filled.mb.take s.capacity))).keepRest (rest.drop (whole * s.capacity))

/-- FSM ← BUFFERING (spec/41_streaming.md R224). -/
def State.startBuffering (s : State) : State := { s with fsm := .buffering }

/-- What a successful UPDATE of these bytes does to the stream; of no bytes, nothing (spec/41_streaming.md R224). -/
def State.absorb (s : State) (src : List Byte) : State :=
  if src = [] then s
  else if s.capacity < s.mlen + src.length then s.startBuffering.absorbOverflow src
  else s.startBuffering.absorbFit src

/-- UPDATE (spec/41_streaming.md R224). -/
def execUpdate (s : State) : Host.Outcome State Fault Refusal :=
  if s.fsm = .wiped then .next (s.raise .contractViolation)
  else if ¬ s.inRange s.offset s.length then .next (s.raise .invalidLength)
  else .next (s.absorb (s.memRead s.offset s.length)).complete

/-- FINALIZE's scratch use: on the tree path the scratch holds intermediate values, unspecified afterwards (spec/10_state.md R52). -/
def State.useScratch (s : State) : State :=
  if s.takesTree then { s with hash := withScratch (freeScratch s.freeCtr s.params) s.hash } else s

/-- What a successful FINALIZE writes before the stream resets: the digest and DEMOTED (spec/41_streaming.md R227). -/
def State.writeDigest (s : State) : State := { s.useScratch.memWrite s.offset s.digest with demoted := s.demotes }

/-- FINALIZE (spec/41_streaming.md R227). -/
def execFinalize (s : State) : Host.Outcome State Fault Refusal :=
  if s.fsm = .wiped then .next (s.raise .contractViolation)
  else if ¬ s.outRange s.offset (digestBytes s.variant) then .next (s.raise .bufferTooShort)
  else .next s.writeDigest.resetStream.complete

/-- RESET (spec/41_streaming.md R236). -/
def execReset (s : State) : Host.Outcome State Fault Refusal := .next s.resetStream.complete

end Sys2Proof.Machine
end

