-- ==== Sys2Proof/Machine/Compression.lean ====
section
/-! DEFINITION. The COMPRESS command (spec/40_compression.md R178). -/

namespace Sys2Proof.Machine

open Sys2Proof

/-- COMPRESS k: one block of INMEM into lane k, past the message buffer (spec/40_compression.md R178). -/
def execCompress (k : Nat) (s : State) : Host.Outcome State Fault Refusal :=
  if s.fsm = .wiped then .next (s.raise .contractViolation)
  else if ¬ s.laneExists k then .next (s.raise .contractViolation)
  else if ¬ s.inRange s.offset (blockBytes s.variant) then .next (s.raise .invalidLength)
  else .next (s.compressAt k (s.memRead s.offset (blockBytes s.variant))).complete

end Sys2Proof.Machine
end

