-- ==== Sys2Proof/Machine/Control.lean ====
section
/-! DEFINITION. Configuration and control: LOADHDR, SETDEG, STOREHDR, READLANE, WIPE, NOP (spec/43_config_control.md). -/

namespace Sys2Proof.Machine

open Sys2Proof

/-- Replace CFG and start a new message (spec/43_config_control.md R330). -/
def State.reconfigure (s : State) (c : TreeParams) : State := State.resetStream { s with cfg := c }

/-- The configuration in the header at ARG_OFF. -/
def State.headerAt (s : State) (o : Nat) : TreeParams := parseHeader (s.memRead o 16)

/-- LOADHDR (spec/43_config_control.md R331). -/
def execLoadhdr (s : State) : Host.Outcome State Fault Refusal :=
  if ¬ s.inRange s.offset s.length then .next (s.raise .invalidLength)
  else if s.length < 16 then .next (s.raise .invalidHeaderSize)
  else if ¬ ValidConfig s.variant s.params (s.headerAt s.offset) then .next (s.raise .configurationError)
  else .next (s.reconfigure (s.headerAt s.offset)).complete

/-- SETDEG n (spec/43_config_control.md R333). -/
def execSetdeg (n : Nat) (s : State) : Host.Outcome State Fault Refusal :=
  if badDegree s.params n then .next (s.raise .invalidDegree)
  else if ¬ ValidConfig s.variant s.params (withDegree s.cfg n) then .next (s.raise .configurationError)
  else .next (s.reconfigure (withDegree s.cfg n)).complete

/-- STOREHDR (spec/43_config_control.md R335). -/
def execStorehdr (s : State) : Host.Outcome State Fault Refusal :=
  if ¬ s.outRange s.offset 16 then .next (s.raise .bufferTooShort)
  else .next (s.memWrite s.offset (headerBytes s.cfg)).complete

/-- What READLANE writes for lane k (spec/43_config_control.md R337). -/
def State.laneImageAt (s : State) (k : Nat) : List Byte := fromLanes (fun A lanes => laneImage (laneAt A lanes k)) s.hash

/-- READLANE k (spec/43_config_control.md R337). -/
def execReadlane (k : Nat) (s : State) : Host.Outcome State Fault Refusal :=
  if ¬ s.laneExists k then .next (s.raise .contractViolation)
  else if ¬ s.outRange s.offset (digestBytes s.variant + 16) then .next (s.raise .bufferTooShort)
  else .next (s.memWrite s.offset (s.laneImageAt k)).complete

/-- Everything WIPE erases: lanes, buffer, scratch and both windows, and WIPED (spec/43_config_control.md R339). -/
def State.erase (s : State) : State :=
  { s with
    hash := withScratch (fun {w} A => zeroScratch w A.variant s.params) (clearLanes s.hash)
    mb := zeros (bufferBytes s.variant s.params)
    mlen := 0
    reached := false
    mem := zeroWindows s.params
    fsm := .wiped }

/-- WIPE (spec/43_config_control.md R339). -/
def execWipe (s : State) : Host.Outcome State Fault Refusal := .next s.erase.complete

/-- NOP: nothing but its own success (spec/43_config_control.md R341). -/
def execNop (s : State) : Host.Outcome State Fault Refusal := .next s.complete

end Sys2Proof.Machine
end

