-- ==== Sys2Proof/Machine/Dispatch.lean ====
section
/-! DEFINITION. exec: one arm per command. -/

namespace Sys2Proof.Machine

open Sys2Proof

def exec (i : Instr) (s : State) : Host.Outcome State Fault Refusal :=
  match i with
  | .nop => Sys2Proof.Machine.execNop s
  | .reset => Sys2Proof.Machine.execReset s
  | .update => Sys2Proof.Machine.execUpdate s
  | .finalize => Sys2Proof.Machine.execFinalize s
  | .compress k => Sys2Proof.Machine.execCompress k s
  | .loadhdr => Sys2Proof.Machine.execLoadhdr s
  | .storehdr => Sys2Proof.Machine.execStorehdr s
  | .setdeg n => Sys2Proof.Machine.execSetdeg n s
  | .readlane k => Sys2Proof.Machine.execReadlane k s
  | .wipe => Sys2Proof.Machine.execWipe s

end Sys2Proof.Machine
end

