-- ==== Sys2Proof/Machine/Engine.lean ====
section
/-! DEFINITION. The engine's step over its latched command: decode, then run or raise IllegalCommand
(spec/30_encoding.md R123, R129; spec/10_state.md R33). -/

namespace Sys2Proof.Machine

open Sys2Proof

/-- After the engine's step the datapath registers hold unspecified values, and free values are fresh (spec/10_state.md R32). -/
def State.settle (s : State) : State := State.refresh { s with hash := withDatapath (freeDatapath s.freeCtr) s.hash }

/-- What the engine does with the latched word. -/
def engineStep (s : State) : Host.Outcome State Fault Refusal :=
  match decode s.latch.word with
  | .error _ => .next (s.raise .illegalCommand).settle
  | .ok i =>
    match exec i s with
    | .next t => .next t.settle
    | .fault r => .fault r
    | .refused r => .refused r

/-- The engine's turn: it runs the latched command, or, with none, nothing happens. -/
def engineTurn (s : State) : Host.Outcome State Fault Refusal := if s.busy then engineStep s else .next s

/-- One event of the total order (spec/20_memory.md R93). -/
def runEvent (e : Event) (s : State) : Host.Outcome State Fault Refusal :=
  match e with
  | .read addr width => .next (s.hostRead addr width)
  | .write addr width value => .next (s.hostWrite addr width value)
  | .engine => engineTurn s
  | .hardwareReset => .next s.hardwareReset

/-- The state with what is left of the agenda. -/
def State.setAgenda (s : State) (rest : List Event) : State := { s with agenda := rest }

/-- Take the next event off the agenda and run it; with none left, it is the engine's turn (spec/20_memory.md R93, points 1 and 4). -/
def systemStep (s : State) : Host.Outcome State Fault Refusal :=
  match s.agenda with
  | [] => engineTurn s
  | e :: rest => runEvent e (s.setAgenda rest)

/-- A command word issued, as an accepted CMD write issues it, with the engine's step as the next event. -/
def State.issueNow (s : State) (word : Word32) : State := { s.issue word with agenda := .engine :: s.agenda }

end Sys2Proof.Machine
end

