-- ==== Sys2Proof/Machine/Step.lean ====
section
/-! DEFINITION. One step of the system, and how the host places a command for it. -/

namespace Sys2Proof.Machine

open Sys2Proof

/-- One step: the next event of the order of spec/20_memory.md R93. -/
def step (s : State) : Host.Outcome State Fault Refusal := systemStep s

/-- The command word `w` placed as an accepted CMD write places it, so that the very next step runs it with the operands in ARG_OFF and
ARG_LEN (spec/10_state.md R46, R47; notes/assumptions/7.md). -/
def State.withFetchWord (s : State) (nbits w : Nat) : State := s.issueNow (BitVec.ofNat 32 (w % 2 ^ nbits))

end Sys2Proof.Machine
end

