-- ==== Sys2Proof/Machine/Program.lean ====
section
/-! DEFINITION. Host programs: the bus sequence each assembler line and directive stands for (spec/30_encoding.md R130 to R132), as
events of the agenda. -/

namespace Sys2Proof.Machine

open Sys2Proof

/-- The registers by name (spec/20_memory.md R91). -/
inductive RegName where
  | id
  | cmd
  | argOff
  | argLen
  | status
  | errSticky
  | mlen
  | lanes
  | capacity
  | info
  deriving DecidableEq, Repr

/-- A register's host address (spec/20_memory.md R91). -/
def regAddress : RegName → Word32
  | .id => 0x00000000#32
  | .cmd => 0x00000004#32
  | .argOff => 0x00000008#32
  | .argLen => 0x0000000C#32
  | .status => 0x00000010#32
  | .errSticky => 0x00000014#32
  | .mlen => 0x00000018#32
  | .lanes => 0x0000001C#32
  | .capacity => 0x00000020#32
  | .info => 0x00000024#32

/-- A 32-bit write to a register. -/
def writeReg (r : RegName) (v : Word32) : Event := .write (regAddress r) 4 v

/-- One line of a host program: a command with its memory operands, the pseudo-command `hash`, or a directive
(spec/30_encoding.md R130 to R132). -/
inductive Line where
  | command (i : Instr) (o n : Word32)
  | hash (i n o : Word32)
  | input (o : Nat) (bytes : List Byte)
  | output (o n : Nat)
  | readReg (r : RegName)
  | clear (mask : Word32)
  deriving DecidableEq, Repr

/-- A command's bus sequence: the ARG writes its form reads, the CMD write, STATUS polls that still see BUSY, the engine's step, and the
poll that sees BUSY = 0 (spec/30_encoding.md R130, spec/20_memory.md R93). `polls` is LATENCY as the host sees it, any number: DESIGN CHOICE,
safe, notes/assumptions/12.md. -/
def commandEvents (polls : Nat) (i : Instr) (o n : Word32) : List Event :=
  (if (formOf i).readsOffset then [writeReg .argOff o] else []) ++ (if (formOf i).readsLength then [writeReg .argLen n] else []) ++
    [writeReg .cmd (encode i)] ++ List.replicate polls (.read (regAddress .status) 4) ++ [.engine, .read (regAddress .status) 4]

/-- The events of a line (spec/30_encoding.md R130 to R132). Every command has its own number of polls, since LATENCY may differ between
commands (spec/70_reset_and_hazards.md R442): `polls` for the line's first command, `polls'` for the second one of `hash`. -/
def lineEvents (polls polls' : Nat) : Line → List Event
  | .command i o n => commandEvents polls i o n
  | .hash i n o => commandEvents polls .update i n ++ commandEvents polls' .finalize o 0
  | .input o bytes => bytes.zipIdx.map (fun b => .write (BitVec.ofNat 32 (inBase + o + b.2)) 1 (b.1.setWidth 32))
  | .output o n => (List.range n).map (fun j => .read (BitVec.ofNat 32 (outBase + o + j)) 1)
  | .readReg r => [.read (regAddress r) 4]
  | .clear mask => [writeReg .errSticky mask]

/-- The events of a whole host program, each line with the polls of its commands. -/
def programEvents (lines : List (Line × Nat × Nat)) : List Event := lines.flatMap (fun l => lineEvents l.2.1 l.2.2 l.1)

end Sys2Proof.Machine
end

