-- ==== Sys2Proof/Safety.lean ====
section
/-! DEFINITION. The terms claims are stated in: well-formed states, runs, which error a command reports, what two lane files have in
common, and the FIPS 180-4 reference (byte order, transform, padding, digest) with the tree of such digests, written apart from the machine. -/

namespace Sys2Proof.Safety

open Sys2Proof Sys2Proof.Machine

/-- Parameters the spec allows (spec/00_scope.md R6). -/
abbrev LegalParams (v : Variant) (p : Params) : Prop :=
  p.maxDegree % 2 = 0 ∧ p.maxDegree ≤ 254 ∧ blockBytes v ≤ p.inSize ∧ p.inSize ≤ 65536 ∧
    digestBytes v + 16 ≤ p.outSize ∧ p.outSize ≤ 65536

/-- A property of every lane register, which may depend on the lane's index. -/
def everyLane (P : {w : Nat} → Alg w → Nat → Lane w → Prop) : HashBank → Prop
  | .sha256 u => ∀ k l, u.lanes[k]? = some l → P alg256 k l
  | .sha512 u => ∀ k l, u.lanes[k]? = some l → P alg512 k l

/-- A relation between the lanes of two lane files of one variant and one length, index by index. -/
def lanesRelated (R : {w : Nat} → Alg w → Nat → Lane w → Lane w → Prop) : HashBank → HashBank → Prop
  | .sha256 u, .sha256 v =>
    u.lanes.length = v.lanes.length ∧ ∀ k l l', u.lanes[k]? = some l → v.lanes[k]? = some l' → R alg256 k l l'
  | .sha512 u, .sha512 v =>
    u.lanes.length = v.lanes.length ∧ ∀ k l l', u.lanes[k]? = some l → v.lanes[k]? = some l' → R alg512 k l l'
  | .sha256 _, .sha512 _ => False
  | .sha512 _, .sha256 _ => False

/-- How many lane registers there are. -/
def laneFileSize (b : HashBank) : Nat := fromLanes (fun _ lanes => lanes.length) b

/-- The hash unit's hidden parts have their sizes: a window of sixteen words and a round counter below ROUNDS (spec/10_state.md R32). -/
def datapathShaped : HashBank → Prop
  | .sha256 u => u.datapath.window.length = 16 ∧ u.datapath.round < rounds .sha256
  | .sha512 u => u.datapath.window.length = 16 ∧ u.datapath.round < rounds .sha512

/-- The hash unit with its unspecified datapath registers blanked, to compare two states in everything a rule can see. -/
def blankDatapath (b : HashBank) : HashBank := withDatapath (fun {w} _ => ⟨Words.zero w, [], 0⟩) b

/-- The hash unit with its datapath and its scratch blanked: only the lane registers are left. -/
def onlyLanes (b : HashBank) : HashBank := withScratch (fun {w} _ => ⟨[], [], clearLane w⟩) (blankDatapath b)

/-- A window address of the instance (spec/10_state.md R34). -/
abbrev mapped (p : Params) (a : Nat) : Prop := (inBase ≤ a ∧ a < inBase + p.inSize) ∨ (outBase ≤ a ∧ a < outBase + p.outSize)

/-- Valid(c) as spec/43_config_control.md R332 lists it, check by check, with the numbers of spec/00_scope.md R2 and apart from the model's
own check: the depth, digestLength = D, the reserved fields, P = 1 at depth 0, an even P from 2 to MAX_DEGREE at depth 1 or 2, and at depth
2 a subtree length of at least 2 that divides N', which under STRICT_PAIRING is even with an even quotient. -/
abbrev LegalConfig (v : Variant) (p : Params) (c : TreeParams) : Prop :=
  (c.treeDepth = 0 ∨ c.treeDepth = 1 ∨ c.treeDepth = 2) ∧
  c.digestLength = (if v = .sha256 then 32#8 else 64#8) ∧
  c.reserved1 = 0 ∧ c.reserved2 = 0 ∧
  (c.treeDepth = 0 → c.parallelDegree = 1) ∧
  (c.treeDepth = 1 ∨ c.treeDepth = 2 →
    c.parallelDegree.getLsbD 0 = false ∧ 2 ≤ c.parallelDegree.toNat ∧ c.parallelDegree.toNat ≤ p.maxDegree) ∧
  (c.treeDepth = 2 →
    2 ≤ c.subTreeLength.toNat ∧ c.subTreeLength.toNat ∣ c.parallelDegree.toNat * (if v = .sha256 then 4 else 2)) ∧
  (c.treeDepth = 2 → p.strictPairing = true →
    2 ∣ c.subTreeLength.toNat ∧ 2 ∣ c.parallelDegree.toNat * (if v = .sha256 then 4 else 2) / c.subTreeLength.toNat)

/-- The bits of ERR_STICKY a run can set: codes 1 to 7 and HOSTVIOL (spec/10_state.md R49, spec/60_exceptions.md R381). -/
def raisableMask : Word32 := 0x000080FE#32

/-- A well-formed state: what every state a run reaches satisfies. -/
structure Inv (s : State) : Prop where
  params : LegalParams s.variant s.params
  /-- N_MAX lane registers (spec/10_state.md R30). -/
  lane_file : laneFileSize s.hash = laneRegisters s.variant s.params
  /-- CNT_LO < 2^61 (spec/10_state.md R31). -/
  counters : everyLane (fun _ _ l => l.cntLo.toNat < 2 ^ 61) s.hash
  /-- The lanes from N on hold their reset value, unless the engine is WIPED (spec/10_state.md R30). -/
  idle_lanes : s.fsm ≠ .wiped → everyLane (fun A k l => s.laneCount ≤ k → l = initLane A) s.hash
  /-- A WIPED engine's lanes are zero (spec/43_config_control.md R339). -/
  wiped_lanes : s.fsm = .wiped → everyLane (fun {w} _ _ l => l = clearLane w) s.hash
  datapath : datapathShaped s.hash
  /-- CMAX bytes (spec/10_state.md R35). -/
  buffer : s.mb.length = bufferBytes s.variant s.params
  /-- MLEN ≤ C (spec/10_state.md R35). -/
  occupancy : s.mlen ≤ s.capacity
  /-- Only a BUFFERING engine holds bytes or has flushed (spec/10_state.md R48). -/
  unstarted : s.fsm ≠ .buffering → s.mlen = 0 ∧ s.reached = false
  /-- The transient encodings never outlast a command (spec/90_conflicts.md C10). -/
  settled : s.fsm ≠ .finalizing ∧ s.fsm ≠ .processing
  /-- REACHED records a parallel dispatch (spec/42_tree.md R282). -/
  reached_parallel : s.reached = true → s.parallel = true
  /-- CFG is legal (spec/43_config_control.md R332). -/
  config : LegalConfig s.variant s.params s.cfg
  /-- Codes 8 to 15 are never produced (spec/60_exceptions.md R381). -/
  last_error : s.lastErr.toNat ≤ 7
  sticky : s.errSticky &&& ~~~raisableMask = 0
  memory : Memory.wf s.mem
  /-- Only window bytes are ever stored. -/
  memory_mapped : ∀ c ∈ s.mem, mapped s.params c.1
  /-- While a command runs, the latch agrees with the registers it caught (spec/20_memory.md R86). -/
  latched : s.busy = true → s.latch = ⟨s.cmd, s.argOff, s.argLen⟩

/-- A fresh stream: nothing absorbed and every lane at IV, as after any of the resets of spec/70_reset_and_hazards.md R432 but WIPE. -/
abbrev FreshStream (s : State) : Prop := s.fsm = .empty ∧ everyLane (fun A _ l => l = initLane A) s.hash

/-- `n` steps, if none stops. -/
def runSteps : Nat → State → Host.Outcome State Fault Refusal
  | 0, s => .next s
  | n + 1, s =>
    match step s with
    | .next t => runSteps n t
    | .fault r => .fault r
    | .refused r => .refused r

/-- The checks of a command in the order of the table of spec/60_exceptions.md R383: the first error that applies. -/
def firstError (i : Instr) (s : State) : Option ErrorKind :=
  match i with
  | .nop => none
  | .reset => none
  | .wipe => none
  | .update =>
    if s.fsm = .wiped then some .contractViolation
    else if s.params.inSize < s.offset + s.length then some .invalidLength else none
  | .finalize =>
    if s.fsm = .wiped then some .contractViolation
    else if s.params.outSize < s.offset + digestBytes s.variant then some .bufferTooShort else none
  | .compress k =>
    if s.fsm = .wiped then some .contractViolation
    else if s.laneCount ≤ k then some .contractViolation
    else if s.params.inSize < s.offset + blockBytes s.variant then some .invalidLength else none
  | .loadhdr =>
    if s.params.inSize < s.offset + s.length then some .invalidLength
    else if s.length < 16 then some .invalidHeaderSize
    else if ¬ LegalConfig s.variant s.params (parseHeader (s.memRead s.offset 16)) then some .configurationError else none
  | .storehdr => if s.params.outSize < s.offset + 16 then some .bufferTooShort else none
  | .setdeg n =>
    if n = 0 ∨ n % 2 = 1 ∨ s.params.maxDegree < n then some .invalidDegree
    else if ¬ LegalConfig s.variant s.params (withDegree s.cfg n) then some .configurationError else none
  | .readlane k =>
    if s.laneCount ≤ k then some .contractViolation
    else if s.params.outSize < s.offset + (digestBytes s.variant + 16) then some .bufferTooShort else none

/-- The numbers of the table of spec/60_exceptions.md R381, written out apart from the model's own. -/
def reportedCode : ErrorKind → Nat
  | .invalidLength => 1
  | .bufferTooShort => 2
  | .configurationError => 3
  | .invalidDegree => 4
  | .invalidHeaderSize => 5
  | .contractViolation => 6
  | .illegalCommand => 7
  | .invalidKeySize => 8
  | .outputTooLarge => 9

/-- The code a command ends with (spec/60_exceptions.md R381, R383). -/
def endCode (i : Instr) (s : State) : Nat :=
  match firstError i s with
  | none => 0
  | some e => reportedCode e

/-- How many bytes of OUTMEM a command writes at ARG_OFF when it succeeds (spec/20_memory.md R90); WIPE writes both windows instead. -/
def outBytes (i : Instr) (s : State) : Nat :=
  match i with
  | .finalize => digestBytes s.variant
  | .storehdr => 16
  | .readlane _ => digestBytes s.variant + 16
  | .nop => 0
  | .reset => 0
  | .update => 0
  | .compress _ => 0
  | .loadhdr => 0
  | .setdeg _ => 0
  | .wipe => 0

/-- SER of spec/00_scope.md R12 byte by byte, apart from the model's codec: of `n` bytes, byte j is the number shifted right by 8(n - 1 - j). -/
def refBytes (n x : Nat) : List Byte := (List.range n).map (fun j => BitVec.ofNat 8 (x / 2 ^ (8 * (n - 1 - j))))

/-- BE_w(s, i) as the sum of spec/00_scope.md R12, apart from the model's codec. -/
def refWord (w : Nat) (s : List Byte) (i : Nat) : BitVec w :=
  BitVec.ofNat w ((List.range (w / 8)).map (fun j => (s.getD (i + j) 0).toNat * 2 ^ (8 * (w / 8 - 1 - j)))).sum

/-- What the reference hash of one variant is built from: numbers of spec/00_scope.md R2 and the functions and tables of
spec/40_compression.md R164 to R168. -/
structure Reference (w : Nat) where
  /-- B. -/
  block : Nat
  /-- L. -/
  lengthField : Nat
  rounds : Nat
  bigSigma0 : BitVec w → BitVec w
  bigSigma1 : BitVec w → BitVec w
  smallSigma0 : BitVec w → BitVec w
  smallSigma1 : BitVec w → BitVec w
  k : List (BitVec w)
  iv : Words w

/-- SHA256, its functions and numbers written out; its tables are the model's, which ConstantsAreRootsOfPrimes ties to R169. -/
def fips256 : Reference 32 where
  block := 64
  lengthField := 8
  rounds := 64
  bigSigma0 x := x.rotateRight 2 ^^^ x.rotateRight 13 ^^^ x.rotateRight 22
  bigSigma1 x := x.rotateRight 6 ^^^ x.rotateRight 11 ^^^ x.rotateRight 25
  smallSigma0 x := x.rotateRight 7 ^^^ x.rotateRight 18 ^^^ x >>> 3
  smallSigma1 x := x.rotateRight 17 ^^^ x.rotateRight 19 ^^^ x >>> 10
  k := alg256.roundConstants
  iv := alg256.iv

/-- SHA512, its functions and numbers written out; its tables are the model's, which ConstantsAreRootsOfPrimes ties to R169. -/
def fips512 : Reference 64 where
  block := 128
  lengthField := 16
  rounds := 80
  bigSigma0 x := x.rotateRight 28 ^^^ x.rotateRight 34 ^^^ x.rotateRight 39
  bigSigma1 x := x.rotateRight 14 ^^^ x.rotateRight 18 ^^^ x.rotateRight 41
  smallSigma0 x := x.rotateRight 1 ^^^ x.rotateRight 8 ^^^ x >>> 7
  smallSigma1 x := x.rotateRight 19 ^^^ x.rotateRight 61 ^^^ x >>> 6
  k := alg512.roundConstants
  iv := alg512.iv

/-- W[0], …, W[15 + n]: the block's sixteen words, then word after word by the recurrence over the whole list
(spec/40_compression.md R170, R171). -/
def Reference.schedule {w : Nat} (R : Reference w) (blk : List Byte) : Nat → List (BitVec w)
  | 0 => (List.range 16).map (fun i => refWord w blk (i * (w / 8)))
  | n + 1 =>
    let i := 16 + n
    let ws := R.schedule blk n
    ws ++ [ws.getD (i - 16) 0 + R.smallSigma0 (ws.getD (i - 15) 0) + ws.getD (i - 7) 0 + R.smallSigma1 (ws.getD (i - 2) 0)]

/-- One round on a to h, with K[t] and W[t], Ch and Maj written out (spec/40_compression.md R163, R172). -/
def Reference.round {w : Nat} (R : Reference w) (kt wt : BitVec w) (v : Words w) : Words w :=
  let t1 := v.h + R.bigSigma1 v.e + ((v.e &&& v.f) ^^^ (~~~v.e &&& v.g)) + kt + wt
  let t2 := R.bigSigma0 v.a + ((v.a &&& v.b) ^^^ (v.a &&& v.c) ^^^ (v.b &&& v.c))
  ⟨t1 + t2, v.a, v.b, v.c, v.d + t1, v.e, v.f, v.g⟩

/-- The working variables before round `t`, from H on (spec/40_compression.md R172, R173). -/
def Reference.working {w : Nat} (R : Reference w) (ws : List (BitVec w)) (hash : Words w) : Nat → Words w
  | 0 => hash
  | t + 1 => R.round (R.k.getD t 0) (ws.getD t 0) (R.working ws hash t)

/-- H plus the working variables after ROUNDS rounds, word by word (spec/40_compression.md R173). -/
def Reference.transform {w : Nat} (R : Reference w) (hash : Words w) (blk : List Byte) : Words w :=
  let v := R.working (R.schedule blk (R.rounds - 16)) hash R.rounds
  ⟨hash.a + v.a, hash.b + v.b, hash.c + v.c, hash.d + v.d, hash.e + v.e, hash.f + v.f, hash.g + v.g, hash.h + v.h⟩

/-- FIPS 180-4 padding of a whole message: 0x80, the fewest zeros, the bit length mod 2^(8L) in L bytes. -/
def fipsPad {w : Nat} (R : Reference w) (m : List Byte) : List Byte :=
  m ++ [0x80] ++ List.replicate ((R.block - (m.length + 1 + R.lengthField) % R.block) % R.block) 0 ++
    refBytes R.lengthField (8 * m.length)

/-- The digest of a whole padded message, block after block from IV, by the reference's own transform, padding and byte order. -/
def fipsDigest {w : Nat} (R : Reference w) (m : List Byte) : List Byte :=
  let padded := fipsPad R m
  let blocks := (List.range (padded.length / R.block)).map (fun i => (padded.drop (i * R.block)).take R.block)
  let h := blocks.foldl R.transform R.iv
  [h.a, h.b, h.c, h.d, h.e, h.f, h.g, h.h].flatMap (fun x => refBytes (w / 8) x.toNat)

/-- The instance's FIPS 180-4 digest. -/
def plainDigest (v : Variant) (m : List Byte) : List Byte :=
  match v with
  | .sha256 => fipsDigest fips256 m
  | .sha512 => fipsDigest fips512 m

/-- The bytes of a message that lane `k` of `n` hashes: those of blocks k, k + n, k + 2n, … (spec/42_tree.md R281, R286, R287). -/
def laneMessage (v : Variant) (n k : Nat) (m : List Byte) : List Byte :=
  (m.zipIdx.filter (fun x => x.2 / blockBytes v % n = k)).map Prod.fst

/-- The tree digest as a tree of whole digests (spec/42_tree.md R287 to R292). -/
def treeDigest (v : Variant) (c : TreeParams) (m : List Byte) : List Byte :=
  let n := c.parallelDegree.toNat * interleave v
  let leaf := (List.range n).map (fun k => plainDigest v (laneMessage v n k m))
  if c.treeDepth.toNat = 1 then plainDigest v leaf.flatten
  else
    let st := c.subTreeLength.toNat
    let branch := (List.range (n / st)).map
      (fun b => plainDigest v (((List.range st).map (fun j => leaf.getD (b * st + j) [])).flatten ++
        headerBytes { c with nodeOffset := BitVec.ofNat 8 (c.nodeOffset.toNat + b) }))
    plainDigest v branch.flatten

/-- What no command changes: the parameters, the host registers, the latch, the host's agenda and what it has read, and the counters of
the free values (spec/30_encoding.md R122, spec/10_state.md R46). -/
abbrev HostSideKept (s t : State) : Prop :=
  t.params = s.params ∧ t.cmd = s.cmd ∧ t.argOff = s.argOff ∧ t.argLen = s.argLen ∧ t.latch = s.latch ∧ t.agenda = s.agenda ∧
    t.reads = s.reads ∧ t.epoch = s.epoch ∧ t.freeCtr = s.freeCtr

/-- The hash unit without its lanes: the hidden parts, to say they are unchanged. -/
def hiddenParts (b : HashBank) : HashBank := onLanes (fun _ _ => []) b

/-- A property of the scratch storage. -/
def scratchIs (P : {w : Nat} → Alg w → Scratch w → Prop) : HashBank → Prop
  | .sha256 u => P alg256 u.scratch
  | .sha512 u => P alg512 u.scratch

/-- From `s` the stream has restarted in `t`: every lane at IV with a zero counter, an empty buffer, EMPTY
(spec/41_streaming.md R234). -/
abbrev StreamRestarted (s t : State) : Prop :=
  lanesRelated (fun A _ _ l' => l' = initLane A) s.hash t.hash ∧ t.mb = zeros (bufferBytes s.variant s.params) ∧ t.mlen = 0 ∧
    t.reached = false ∧ t.fsm = .empty

/-- The read accesses the interface admits (spec/20_memory.md R83 to R85): a register that exists, whole, or aligned bytes of one
window. -/
abbrev ReadAdmitted (p : Params) (a width : Nat) : Prop :=
  (width = 4 ∧ a % 4 = 0 ∧ a < 0x28) ∨
    ((width = 1 ∨ width = 2 ∨ width = 4) ∧ a % width = 0 ∧
      ((0x00010000 ≤ a ∧ a + width ≤ 0x00010000 + p.inSize) ∨ (0x00020000 ≤ a ∧ a + width ≤ 0x00020000 + p.outSize)))

/-- The write accesses the interface admits while BUSY = 0 (spec/20_memory.md R83 to R85). -/
abbrev WriteAdmitted (p : Params) (a width : Nat) : Prop :=
  (width = 4 ∧ (a = 0x04 ∨ a = 0x08 ∨ a = 0x0C ∨ a = 0x14)) ∨
    ((width = 1 ∨ width = 2 ∨ width = 4) ∧ a % width = 0 ∧
      ((0x00010000 ≤ a ∧ a + width ≤ 0x00010000 + p.inSize) ∨ (0x00020000 ≤ a ∧ a + width ≤ 0x00020000 + p.outSize)))

/-- A register's or a command word's field as the spec numbers bits: x[hi:lo] (spec/00_scope.md R9). -/
def bits (x : Word32) (hi lo : Nat) : Nat := x.toNat / 2 ^ lo % 2 ^ (hi + 1 - lo)

/-- The fields of ID: variant code, I, MAX_DEGREE, revision (spec/10_state.md R44, with the numbers of spec/00_scope.md R2). -/
abbrev IdFields (v : Variant) (p : Params) (x : Word32) : Prop :=
  bits x 7 0 = (match v with | .sha256 => 1 | .sha512 => 2) ∧ bits x 15 8 = (match v with | .sha256 => 4 | .sha512 => 2) ∧
    bits x 23 16 = p.maxDegree ∧ bits x 31 24 = 7

/-- The fields of INFO: D, B, ROUNDS, L (spec/10_state.md R44, with the numbers of spec/00_scope.md R2). -/
abbrev InfoFields (v : Variant) (x : Word32) : Prop :=
  bits x 7 0 = (match v with | .sha256 => 32 | .sha512 => 64) ∧ bits x 15 8 = (match v with | .sha256 => 64 | .sha512 => 128) ∧
    bits x 23 16 = (match v with | .sha256 => 64 | .sha512 => 80) ∧ bits x 31 24 = (match v with | .sha256 => 8 | .sha512 => 16)

end Sys2Proof.Safety
end

