-- ==== Sys2Proof/Certificates/Slice0/Obligations.lean ====
section
/-! DEFINITION. The statements about the model, one definition each: encoding, the step, every command's result and frame, the rules over
all commands, the transform, the stream, the tree, the bus and reset. -/

open Sys2Proof Sys2Proof.Machine Sys2Proof.Safety

-- ---------------------------------------------------------------- encoding

/-- spec/30_encoding.md R120, R121, R123, R127: decoding an encoded well-formed command gives it back, and a word that decodes is the
encoding of the well-formed command it decodes to. -/
def Obligations.DecodeAndEncodeAgree : Prop :=
  (∀ i : Instr, i.WellFormed → decode (encode i) = .ok i) ∧
  (∀ (w : Word32) (i : Instr), decode w = .ok i → i.WellFormed ∧ encode i = w)

/-- spec/30_encoding.md R126: a word selects a command exactly when its masked bits match the command's row, and a word that selects no
row decodes to nothing. -/
def Obligations.OpcodeMapSelectsTheCommand : Prop :=
  ∀ w : Word32,
    (∀ i, decode w = .ok i → ∀ r ∈ opcodeTable, (w &&& r.maskBits = r.matchBits ↔ r.mnemonic = mnemonic i)) ∧
    ((∃ i, decode w = .ok i) ↔ ∃ r ∈ opcodeTable, w &&& r.maskBits = r.matchBits)

/-- spec/30_encoding.md R128: the reserved words, all of them and no other, are refused by the decoder. -/
def Obligations.ReservedWordsAreIllegal : Prop :=
  ∀ w : Word32,
    (∃ e, decode w = .error e) ↔
      (0x0A ≤ bits w 7 0 ∨ bits w 31 16 ≠ 0 ∨ (bits w 15 8 ≠ 0 ∧ bits w 7 0 ≠ 0x04 ∧ bits w 7 0 ≠ 0x07 ∧ bits w 7 0 ≠ 0x08))

/-- spec/95_test_vectors.md section 0: the words it lists decode as it lists them. -/
def Obligations.ListedWordsDecode : Prop :=
  decode 0x00000000#32 = .ok .nop ∧ decode 0x00000001#32 = .ok .reset ∧ decode 0x00000002#32 = .ok .update ∧
  decode 0x00000003#32 = .ok .finalize ∧ decode 0x00000004#32 = .ok (.compress 0) ∧ decode 0x00000304#32 = .ok (.compress 3) ∧ decode 0x0000ff04#32 = .ok (.compress 255) ∧
  decode 0x00000005#32 = .ok .loadhdr ∧ decode 0x00000006#32 = .ok .storehdr ∧ decode 0x00000407#32 = .ok (.setdeg 4) ∧ decode 0x0000fe07#32 = .ok (.setdeg 254) ∧
  decode 0x00000108#32 = .ok (.readlane 1) ∧ decode 0x00000009#32 = .ok .wipe ∧
  (∀ w ∈ [0x0000000a#32, 0x000000ff#32, 0x00000102#32, 0x00000109#32, 0x80000004#32, 0x00010007#32], ∃ e, decode w = .error e)

-- ---------------------------------------------------------------- the step

/-- spec/10_state.md R33, spec/20_memory.md R93: when the latched word decodes to a command and it is the engine's turn, the step is the
command's meaning; around it the step only takes the engine's event off the agenda and leaves the datapath registers unspecified
(R32, notes/assumptions/5.md). -/
def Obligations.StepRunsTheDecodedCommand : Prop :=
  ∀ (s t : State) (i : Instr), s.busy = true → decode s.latch.word = .ok i →
    (s.agenda = [] → exec i s = .next t → step s = .next t.settle) ∧
    (∀ rest, s.agenda = .engine :: rest → exec i { s with agenda := rest } = .next t → step s = .next t.settle) ∧
    t.settle = { t with hash := t.settle.hash, freeCtr := t.freeCtr + 1 } ∧
    blankDatapath t.settle.hash = blankDatapath t.hash

/-- spec/10_state.md R46, R47: a word placed as an accepted CMD write places it is the command the very next step runs, on the values
ARG_OFF and ARG_LEN have. -/
def Obligations.PlacedCommandRunsNext : Prop :=
  ∀ (s t : State) (i : Instr), i.WellFormed →
    decodeTableWord 32 (encode i).toNat = some i ∧
    (exec i { s with cmd := encode i, latch := ⟨encode i, s.argOff, s.argLen⟩, busy := true } = .next t →
      step (s.withFetchWord 32 (encode i).toNat) = .next t.settle)

/-- spec/30_encoding.md R129: a reserved word, written to CMD on an idle engine, completes with LAST_ERR 7 and sticky bit 7, and changes
nothing else but CMD, the latch behind it, and the unspecified datapath registers. -/
def Obligations.ReservedWordCompletesAsIllegalCommand : Prop :=
  ∀ (s : State) (w : Word32) (rest : List Event), s.busy = false → (∃ e, decode w = .error e) →
    s.agenda = .write 0x00000004#32 4 w :: .engine :: rest →
    ∃ u t, step s = .next u ∧ u.busy = true ∧ step u = .next t ∧
      t = { s with
            cmd := w, latch := ⟨w, s.argOff, s.argLen⟩, lastErr := 7, errSticky := s.errSticky ||| 0x00000080#32, agenda := rest,
            hash := t.hash, freeCtr := t.freeCtr } ∧
      blankDatapath t.hash = blankDatapath s.hash

/-- spec/93_implementation_defined.md section 2 ("no command or access can halt the engine"): every step of every state answers a next
state. -/
def Obligations.NoStepHalts : Prop := ∀ s : State, ∃ t, step s = .next t

/-- spec/60_exceptions.md R380: a command that ends with an error changes LAST_ERR, the sticky bit of its code and BUSY, and nothing
else, and the engine is idle again. -/
def Obligations.ErrorsArePrecise : Prop :=
  ∀ (i : Instr) (s t : State), exec i s = .next t → t.lastErr ≠ 0 →
    t = { s with busy := false, lastErr := t.lastErr, errSticky := s.errSticky ||| (1#32 <<< t.lastErr.toNat) }

/-- spec/60_exceptions.md R381, last sentence, with BUSY: a command that succeeds leaves ERR_STICKY alone and clears BUSY. -/
def Obligations.SuccessKeepsErrSticky : Prop :=
  ∀ (i : Instr) (s t : State), exec i s = .next t → t.lastErr = 0 → t.errSticky = s.errSticky ∧ t.busy = false

/-- spec/60_exceptions.md R381, R383: at every turn of the engine, decoding first, then the command's checks in the order of the rule's
table; the first one that applies is the code reported, in LAST_ERR and in ERR_STICKY, by the numbers of R381. -/
def Obligations.FirstErrorIsReported : Prop :=
  ∀ (s t : State), s.busy = true → (s.agenda = [] ∨ s.agenda.head? = some .engine) → step s = .next t →
    (∀ e, decode s.latch.word = .error e → t.lastErr = 7 ∧ t.errSticky = s.errSticky ||| 0x00000080#32) ∧
    (∀ i, decode s.latch.word = .ok i →
      t.lastErr.toNat = endCode i s ∧
      (firstError i s = none → t.errSticky = s.errSticky) ∧
      (∀ e, firstError i s = some e → t.errSticky = s.errSticky ||| (1#32 <<< reportedCode e)))

-- ---------------------------------------------------------------- every command's result and frame

/-- spec/43_config_control.md R341: the word 0 alone is NOP; it completes in every state, clears LAST_ERR, and changes nothing else. -/
def Obligations.NopOnlyClearsLastError : Prop :=
  (∀ w : Word32, decode w = .ok .nop ↔ w = 0x00000000#32) ∧
  ∀ s : State, exec .nop s = .next { s with busy := false, lastErr := 0 }

/-- spec/41_streaming.md R234, R236: the word 1 alone is RESET; it completes in every state, WIPED included, restarts the stream, and
keeps CFG, DEMOTED, ERR_STICKY and both windows. -/
def Obligations.ResetRestartsTheStream : Prop :=
  (∀ w : Word32, decode w = .ok .reset ↔ w = 0x00000001#32) ∧
  ∀ s : State, ∃ t, exec .reset s = .next t ∧
    StreamRestarted s t ∧ t.lastErr = 0 ∧ t.busy = false ∧
    t.cfg = s.cfg ∧ t.demoted = s.demoted ∧ t.errSticky = s.errSticky ∧ t.mem = s.mem ∧
    hiddenParts t.hash = hiddenParts s.hash ∧ HostSideKept s t

/-- spec/41_streaming.md R224, first corner case: UPDATE of no bytes at a legal offset succeeds and changes only LAST_ERR. -/
def Obligations.EmptyUpdateChangesNothing : Prop :=
  ∀ s : State, s.fsm ≠ .wiped → s.offset ≤ s.params.inSize → s.length = 0 →
    exec .update s = .next { s with busy := false, lastErr := 0 }

/-- spec/41_streaming.md R224, the else branch and its second corner case: input that fits, up to exactly C bytes in all, is appended to
the buffer, and nothing is flushed. -/
def Obligations.FittingUpdateIsBuffered : Prop :=
  ∀ s : State, Inv s → s.fsm ≠ .wiped → s.offset + s.length ≤ s.params.inSize → 0 < s.length → s.mlen + s.length ≤ s.capacity →
    ∃ t, exec .update s = .next t ∧
      t.buffered = s.buffered ++ (List.range s.length).map (fun j => s.byteAt (inBase + s.offset + j)) ∧
      t = { s with mb := t.mb, mlen := s.mlen + s.length, fsm := .buffering, busy := false, lastErr := 0 } ∧
      t.mb.length = s.mb.length ∧ t.mb.drop (s.mlen + s.length) = s.mb.drop (s.mlen + s.length)

/-- spec/41_streaming.md R224, the overflow branch, with spec/42_tree.md R281: of the buffered bytes followed by the input, every whole
segment is flushed in order, lane k compressing the block at k·B of each, and the rest stays in the buffer. -/
def Obligations.OverflowingUpdateFlushesSegments : Prop :=
  ∀ s : State, Inv s → s.fsm ≠ .wiped → s.offset + s.length ≤ s.params.inSize → s.capacity < s.mlen + s.length →
    let m := s.buffered ++ (List.range s.length).map (fun j => s.byteAt (inBase + s.offset + j))
    ∃ t, exec .update s = .next t ∧
      t.mlen = (s.mlen + s.length) % s.capacity ∧
      t.buffered = m.drop (m.length / s.capacity * s.capacity) ∧
      lanesRelated (fun A k l l' =>
        l' = if k < s.laneCount then
            (List.range (m.length / s.capacity)).foldl
              (fun x j => compressLane A x (slice m (j * s.capacity + k * blockBytes A.variant) (blockBytes A.variant))) l
          else l) s.hash t.hash ∧
      hiddenParts t.hash = hiddenParts s.hash ∧
      t = { s with
            hash := t.hash, mb := t.mb, mlen := t.mlen, reached := s.reached || s.parallel, fsm := .buffering, busy := false,
            lastErr := 0 }

/-- spec/41_streaming.md R224: a legal UPDATE is State.absorb of the bytes it reads, which the statements about whole messages use. -/
def Obligations.UpdateAbsorbsItsBytes : Prop :=
  ∀ s : State, s.fsm ≠ .wiped → s.offset + s.length ≤ s.params.inSize →
    exec .update s =
      .next { s.absorb ((List.range s.length).map (fun j => s.byteAt (inBase + s.offset + j))) with busy := false, lastErr := 0 }

/-- spec/41_streaming.md R227: FINALIZE with room for D bytes writes the digest of the path the mode and the message select, records
DEMOTED, restarts the stream, and changes no other byte, CFG, ERR_STICKY or host register. -/
def Obligations.FinalizeWritesTheDigest : Prop :=
  ∀ s : State, s.fsm ≠ .wiped → s.offset ≤ s.params.outSize → digestBytes s.variant ≤ s.params.outSize - s.offset →
    ∃ (t : State) (dg : List Byte) (dem : Bool), exec .finalize s = .next t ∧
      (s.parallel = false → dg = s.seqFinal ∧ dem = false) ∧
      (s.parallel = true → s.reached = false → s.mlen < s.capacity → dg = s.seqFinal ∧ dem = true) ∧
      (s.parallel = true → (s.reached = true ∨ s.capacity ≤ s.mlen) → dg = s.treeFinal ∧ dem = false) ∧
      dg.length = digestBytes s.variant ∧
      (∀ j, j < digestBytes s.variant → t.byteAt (outBase + s.offset + j) = dg.getD j 0) ∧
      (∀ a, ¬ (outBase + s.offset ≤ a ∧ a < outBase + s.offset + digestBytes s.variant) → t.byteAt a = s.byteAt a) ∧
      t.demoted = dem ∧ StreamRestarted s t ∧ t.lastErr = 0 ∧ t.busy = false ∧
      t.cfg = s.cfg ∧ t.errSticky = s.errSticky ∧ HostSideKept s t

/-- spec/40_compression.md R178: COMPRESS of a lane that exists, from a block inside INMEM, applies the transform to that lane and adds B to
its count; every other lane, the buffer, MLEN, REACHED, FSM and all else stay. -/
def Obligations.CompressChangesOneLane : Prop :=
  ∀ (s : State) (k : Nat), Inv s → s.fsm ≠ .wiped → k < s.laneCount → s.offset + blockBytes s.variant ≤ s.params.inSize →
    ∃ t, exec (.compress k) s = .next t ∧ k < laneFileSize t.hash ∧
      lanesRelated (fun A j l l' =>
        (j ≠ k → l' = l) ∧
        (j = k →
          l'.words = transform A l.words
            ((List.range (blockBytes A.variant)).map (fun i => s.byteAt (inBase + s.offset + i))) ∧
          laneTotal l' = (laneTotal l + blockBytes A.variant) % 2 ^ 125)) s.hash t.hash ∧
      hiddenParts t.hash = hiddenParts s.hash ∧
      t = { s with hash := t.hash, busy := false, lastErr := 0 }

/-- spec/43_config_control.md R331, R332: LOADHDR of a legal range of at least 16 bytes. Where the first 16, read little-endian, are a legal
configuration by the checks of R332, it sets CFG to them and restarts the stream; DEMOTED, ERR_STICKY, both windows and the host registers
stay. Where one of the checks fails, it raises ConfigurationError and changes nothing else. -/
def Obligations.LoadhdrSetsTheConfiguration : Prop :=
  ∀ s : State, s.offset + s.length ≤ s.params.inSize → 16 ≤ s.length →
    let h := fun j => s.byteAt (inBase + s.offset + j)
    let c : TreeParams :=
      { digestLength := h 0, keyLength := h 1, treeDepth := h 2, leafLength := h 6 ++ h 5 ++ h 4 ++ h 3, parallelDegree := h 7,
        subTreeLength := h 8, nodeOffset := h 9, reserved1 := h 11 ++ h 10, reserved2 := h 15 ++ h 14 ++ h 13 ++ h 12 }
    ∃ t, exec .loadhdr s = .next t ∧
      (LegalConfig s.variant s.params c →
        t.cfg = c ∧ StreamRestarted s t ∧ t.lastErr = 0 ∧ t.busy = false ∧
        t.demoted = s.demoted ∧ t.errSticky = s.errSticky ∧ t.mem = s.mem ∧ hiddenParts t.hash = hiddenParts s.hash ∧ HostSideKept s t) ∧
      (¬ LegalConfig s.variant s.params c →
        t = { s with busy := false, lastErr := 3, errSticky := s.errSticky ||| 0x00000008#32 })

/-- spec/43_config_control.md R333: SETDEG of an even degree from 2 to MAX_DEGREE, where a depth-2 subtree length still fits it, sets the
degree, turns depth 0 into 1, keeps the other fields and restarts the stream. From a well-formed state only the subtree checks can fail. -/
def Obligations.SetdegSetsTheDegree : Prop :=
  ∀ (s : State) (n : Nat), Inv s → n % 2 = 0 → 2 ≤ n → n ≤ s.params.maxDegree →
    (s.cfg.treeDepth.toNat = 2 → (n * interleave s.variant) % s.cfg.subTreeLength.toNat = 0 ∧
      (s.params.strictPairing = true →
        s.cfg.subTreeLength.toNat % 2 = 0 ∧ (n * interleave s.variant / s.cfg.subTreeLength.toNat) % 2 = 0)) →
    ∃ t, exec (.setdeg n) s = .next t ∧
      t.cfg.parallelDegree.toNat = n ∧
      t.cfg.treeDepth = (if s.cfg.treeDepth = 0 then 1 else s.cfg.treeDepth) ∧
      t.cfg = { s.cfg with parallelDegree := t.cfg.parallelDegree, treeDepth := t.cfg.treeDepth } ∧
      StreamRestarted s t ∧ t.parallel = true ∧ t.lastErr = 0 ∧ t.busy = false ∧
      t.demoted = s.demoted ∧ t.errSticky = s.errSticky ∧ t.mem = s.mem ∧ hiddenParts t.hash = hiddenParts s.hash ∧ HostSideKept s t

/-- spec/43_config_control.md R335 with spec/10_state.md R43: STOREHDR with room for 16 bytes writes the header of CFG, byte by byte as the
rule lays it out, and changes nothing else but LAST_ERR. -/
def Obligations.StorehdrWritesTheHeader : Prop :=
  ∀ s : State, s.offset ≤ s.params.outSize → 16 ≤ s.params.outSize - s.offset →
    ∃ t, exec .storehdr s = .next t ∧
      (List.range 16).map (fun j => t.byteAt (outBase + s.offset + j)) =
        [s.cfg.digestLength, s.cfg.keyLength, s.cfg.treeDepth,
          s.cfg.leafLength.extractLsb' 0 8, s.cfg.leafLength.extractLsb' 8 8, s.cfg.leafLength.extractLsb' 16 8,
          s.cfg.leafLength.extractLsb' 24 8,
          s.cfg.parallelDegree, s.cfg.subTreeLength, s.cfg.nodeOffset,
          s.cfg.reserved1.extractLsb' 0 8, s.cfg.reserved1.extractLsb' 8 8,
          s.cfg.reserved2.extractLsb' 0 8, s.cfg.reserved2.extractLsb' 8 8, s.cfg.reserved2.extractLsb' 16 8,
          s.cfg.reserved2.extractLsb' 24 8] ∧
      (∀ a, ¬ (outBase + s.offset ≤ a ∧ a < outBase + s.offset + 16) → t.byteAt a = s.byteAt a) ∧
      t = { s with mem := t.mem, busy := false, lastErr := 0 }

/-- spec/43_config_control.md R337: READLANE of a lane that exists, with room for D + 16 bytes, writes its eight words and its two counter
limbs big-endian and changes nothing else but LAST_ERR; WIPED or not. -/
def Obligations.ReadlaneWritesTheLane : Prop :=
  ∀ (s : State) (k : Nat), Inv s → k < s.laneCount → s.offset ≤ s.params.outSize →
    digestBytes s.variant + 16 ≤ s.params.outSize - s.offset →
    ∃ t, exec (.readlane k) s = .next t ∧ k < laneFileSize s.hash ∧
      everyLane (fun {w} _ j l => j = k →
        ∀ i, i < digestBytes s.variant + 16 →
          t.byteAt (outBase + s.offset + i) =
            (([l.words.a, l.words.b, l.words.c, l.words.d, l.words.e, l.words.f, l.words.g, l.words.h].flatMap
              (fun x => refBytes (w / 8) x.toNat)) ++ refBytes 8 l.cntHi.toNat ++ refBytes 8 l.cntLo.toNat).getD i 0) s.hash ∧
      (∀ a, ¬ (outBase + s.offset ≤ a ∧ a < outBase + s.offset + (digestBytes s.variant + 16)) → t.byteAt a = s.byteAt a) ∧
      t = { s with mem := t.mem, busy := false, lastErr := 0 }

/-- spec/43_config_control.md R339: the word 9 alone is WIPE; it completes in every state, zeroes every lane (not to IV), the buffer, the scratch and every byte of
both windows, and enters WIPED; CFG, DEMOTED, ERR_STICKY and the host registers stay. -/
def Obligations.WipeErasesEverything : Prop :=
  (∀ w : Word32, decode w = .ok .wipe ↔ w = 0x00000009#32) ∧
  ∀ s : State, ∃ t, exec .wipe s = .next t ∧
    lanesRelated (fun {w} _ _ _ l' => l' = clearLane w) s.hash t.hash ∧
    t.mb = zeros (bufferBytes s.variant s.params) ∧ t.mlen = 0 ∧ t.reached = false ∧
    scratchIs (fun {w} _ x => (∀ b ∈ x.laneHashes, b = 0) ∧ (∀ b ∈ x.branchHashes, b = 0) ∧ x.root = clearLane w) t.hash ∧
    (∀ a, mapped s.params a → t.byteAt a = 0) ∧
    t.fsm = .wiped ∧ t.lastErr = 0 ∧ t.busy = false ∧
    t.cfg = s.cfg ∧ t.demoted = s.demoted ∧ t.errSticky = s.errSticky ∧ HostSideKept s t

-- ---------------------------------------------------------------- rules over all commands

/-- spec/30_encoding.md R122 ("The registers are not changed by any command") with spec/00_scope.md R6: no command changes the operand
registers, CMD, the parameters or the host's side. -/
def Obligations.CommandsKeepTheHostSide : Prop := ∀ (i : Instr) (s t : State), exec i s = .next t → HostSideKept s t

/-- spec/20_memory.md R90: a command that succeeds stores only the bytes the rule's table gives it, at ARG_OFF; one that fails stores
none. WIPE is the exception the table names. -/
def Obligations.CommandsStoreOnlyTheirBytes : Prop :=
  ∀ (i : Instr) (s t : State), exec i s = .next t → i ≠ .wipe →
    (firstError i s ≠ none → t.mem = s.mem) ∧
    (∀ a, ¬ (outBase + s.offset ≤ a ∧ a < outBase + s.offset + outBytes i s) → t.byteAt a = s.byteAt a)

/-- spec/10_state.md R36 ("CFG is written only by LOADHDR and SETDEG") over every step: CFG changes only when it is the engine's turn and it
runs one of the two with success, or at a hardware reset (spec/70_reset_and_hazards.md R431). -/
def Obligations.OnlyConfigurationChangesCfg : Prop :=
  ∀ s t : State, step s = .next t → t.cfg ≠ s.cfg →
    ((s.agenda = [] ∨ s.agenda.head? = some .engine) ∧ s.busy = true ∧
      (decode s.latch.word = .ok .loadhdr ∨ ∃ n, decode s.latch.word = .ok (.setdeg n)) ∧ t.lastErr = 0) ∨
    s.agenda.head? = some .hardwareReset

/-- spec/10_state.md R48: DEMOTED changes only when it is the engine's turn and it runs a FINALIZE with success, or at a hardware reset. -/
def Obligations.OnlyFinalizeWritesDemoted : Prop :=
  ∀ s t : State, step s = .next t → t.demoted ≠ s.demoted →
    ((s.agenda = [] ∨ s.agenda.head? = some .engine) ∧ s.busy = true ∧ decode s.latch.word = .ok .finalize ∧ t.lastErr = 0) ∨
    s.agenda.head? = some .hardwareReset

/-- spec/42_tree.md R282: a dispatch sets REACHED; it is set only at the engine's turn, by an UPDATE that succeeds and overflows the buffer
in parallel mode, and cleared only at the engine's turn, by the success of a command that resets the stream or of WIPE, and at power-on. -/
def Obligations.ReachedIsSetByDispatchAlone : Prop :=
  (∀ (s : State) (seg : List Byte), (s.dispatch seg).reached = true) ∧
  ∀ s t : State, step s = .next t →
    (s.reached = false → t.reached = true →
      (s.agenda = [] ∨ s.agenda.head? = some .engine) ∧ s.busy = true ∧ s.parallel = true ∧ decode s.latch.word = .ok .update ∧
      s.capacity < s.mlen + s.length ∧ t.lastErr = 0) ∧
    (s.reached = true → t.reached = false →
      ((s.agenda = [] ∨ s.agenda.head? = some .engine) ∧ s.busy = true ∧ t.lastErr = 0 ∧ ∃ i, decode s.latch.word = .ok i ∧
        (i = .finalize ∨ i = .reset ∨ i = .loadhdr ∨ (∃ n, i = .setdeg n) ∨ i = .wipe)) ∨
      s.agenda.head? = some .hardwareReset)

/-- spec/41_streaming.md R235: the streaming state after a command, for every command and outcome. -/
def Obligations.StreamingStateTransitions : Prop :=
  ∀ (i : Instr) (s t : State), exec i s = .next t →
    (t.lastErr ≠ 0 → t.fsm = s.fsm) ∧
    (t.lastErr = 0 →
      (i = .update → s.length ≠ 0 → (s.fsm = .empty ∨ s.fsm = .buffering) → t.fsm = .buffering) ∧
      (i = .update → s.length = 0 → t.fsm = s.fsm) ∧
      (i = .finalize → t.fsm = .empty) ∧
      (i = .reset ∨ i = .loadhdr ∨ (∃ n, i = .setdeg n) → t.fsm = .empty) ∧
      (i = .wipe → t.fsm = .wiped) ∧
      (i = .nop ∨ (∃ k, i = .compress k) ∨ (∃ k, i = .readlane k) ∨ i = .storehdr → t.fsm = s.fsm))

/-- spec/43_config_control.md R340: on a WIPED engine UPDATE, FINALIZE and COMPRESS raise ContractViolation; RESET, and LOADHDR and SETDEG
wherever they would succeed on an EMPTY engine, succeed and leave the state; the other four do what they do on an EMPTY engine. -/
def Obligations.WipedEngineRefusesUse : Prop :=
  ∀ s : State, s.fsm = .wiped →
    (∀ i, (i = .update ∨ i = .finalize ∨ ∃ k, i = .compress k) →
      exec i s = .next { s with busy := false, lastErr := 6, errSticky := s.errSticky ||| 0x00000040#32 }) ∧
    (∃ t, exec .reset s = .next t ∧ t.lastErr = 0 ∧ t.fsm = .empty) ∧
    (∀ i, (i = .loadhdr ∨ ∃ n, i = .setdeg n) →
      ∃ t u, exec i s = .next t ∧ exec i { s with fsm := .empty } = .next u ∧ t.lastErr = u.lastErr ∧ (t.lastErr = 0 → t = u ∧ t.fsm = .empty)) ∧
    (∀ i, (i = .nop ∨ i = .storehdr ∨ i = .wipe ∨ ∃ k, i = .readlane k) →
      ∃ t u, exec i s = .next t ∧ exec i { s with fsm := .empty } = .next u ∧ t = { u with fsm := .wiped })

-- ---------------------------------------------------------------- the transform

/-- spec/00_scope.md R11: the rotates at every width and amount. -/
def Obligations.RotatesFollowTheRule : Prop :=
  ∀ (w n : Nat) (x : BitVec w),
    (0 < n → n < w → rotr n x = ((x >>> n) ||| (x <<< (w - n))) ∧ rotl n x = rotr (w - n) x) ∧
    rotr 0 x = x ∧ rotl 0 x = x ∧
    (w ≤ n → rotr n x = rotr (n % w) x ∧ rotl n x = rotl (n % w) x) ∧
    (∀ i, i < w → n < w → (rotr n x).getLsbD i = x.getLsbD ((i + n) % w))

/-- spec/40_compression.md R163 to R165, R170 to R173: the whole transform, for both variants, every words H and every block: the schedule
is the block's words (R12) and then those of the recurrence, and the transform is H plus, word by word, the working variables after ROUNDS
rounds. Safety.lean writes R164 and R165 with their rotate and shift amounts (fips256, fips512), T1, T2, Ch and Maj (Reference.round), the
schedule and the feed-forward (Reference.transform) apart from the model's. -/
def Obligations.ScheduleFollowsTheRecurrence : Prop :=
  (∀ blk : List Byte, (schedule alg256 blk).length = 64 ∧
    (∀ i, i < 16 → (schedule alg256 blk).getD i 0 = beWord 32 blk (4 * i)) ∧
    (∀ i, 16 ≤ i → i < 64 → (schedule alg256 blk).getD i 0 =
      (schedule alg256 blk).getD (i - 16) 0 + fips256.smallSigma0 ((schedule alg256 blk).getD (i - 15) 0) +
        (schedule alg256 blk).getD (i - 7) 0 + fips256.smallSigma1 ((schedule alg256 blk).getD (i - 2) 0))) ∧
  (∀ (hash : Words 32) (blk : List Byte), blk.length = 64 →
    (∀ i, i < 16 → (schedule alg256 blk).getD i 0 = refWord 32 blk (4 * i)) ∧
    transform alg256 hash blk = fips256.transform hash blk) ∧
  (∀ blk : List Byte, (schedule alg512 blk).length = 80 ∧
    (∀ i, i < 16 → (schedule alg512 blk).getD i 0 = beWord 64 blk (8 * i)) ∧
    (∀ i, 16 ≤ i → i < 80 → (schedule alg512 blk).getD i 0 =
      (schedule alg512 blk).getD (i - 16) 0 + fips512.smallSigma0 ((schedule alg512 blk).getD (i - 15) 0) +
        (schedule alg512 blk).getD (i - 7) 0 + fips512.smallSigma1 ((schedule alg512 blk).getD (i - 2) 0))) ∧
  (∀ (hash : Words 64) (blk : List Byte), blk.length = 128 →
    (∀ i, i < 16 → (schedule alg512 blk).getD i 0 = refWord 64 blk (8 * i)) ∧
    transform alg512 hash blk = fips512.transform hash blk)

/-- spec/41_streaming.md R221: Increase adds to TOTAL modulo 2^125 and keeps CNT_LO below 2^61. -/
def Obligations.IncreaseCountsBytes : Prop :=
  ∀ (w n : Nat) (l : Lane w), l.cntLo.toNat < 2 ^ 61 → n < 2 ^ 32 →
    laneTotal (increaseLane l n) = (laneTotal l + n) % 2 ^ 125 ∧ (increaseLane l n).cntLo.toNat < 2 ^ 61 ∧
    (increaseLane l n).words = l.words

/-- spec/41_streaming.md R232: the length field is the limbs of an increased copy of the lane, both words for SHA512, the low one for
SHA256. -/
def Obligations.LengthFieldIsTheLimbs : Prop :=
  (∀ (l : Lane 64) (tail : List Byte), l.cntLo.toNat < 2 ^ 61 → tail.length ≤ 128 →
    lengthField alg512 l tail =
      refBytes 8 (increaseLane l tail.length).cntHi.toNat ++ refBytes 8 (8 * (increaseLane l tail.length).cntLo.toNat)) ∧
  (∀ (l : Lane 32) (tail : List Byte), l.cntLo.toNat < 2 ^ 61 → tail.length ≤ 64 →
    lengthField alg256 l tail = refBytes 8 (8 * (increaseLane l tail.length).cntLo.toNat))

/-- spec/41_streaming.md R231, read off the byte counter (R174): LaneFinal runs one compression for a tail of at most B − L − 1 bytes and
two for a longer one up to B. -/
def Obligations.PaddingTakesOneOrTwoBlocks : Prop :=
  (∀ (l : Lane 32) (tail : List Byte), l.cntLo.toNat < 2 ^ 61 → tail.length ≤ 64 →
    laneTotal (finishLane alg256 l tail) = (laneTotal l + (if tail.length ≤ 55 then 64 else 128)) % 2 ^ 125) ∧
  (∀ (l : Lane 64) (tail : List Byte), l.cntLo.toNat < 2 ^ 61 → tail.length ≤ 128 →
    laneTotal (finishLane alg512 l tail) = (laneTotal l + (if tail.length ≤ 111 then 128 else 256)) % 2 ^ 125)

/-- spec/40_compression.md R169: the round constants are the first fractional bits of the cube roots of the first primes, and the initial
values those of the square roots, floor by floor. -/
def Obligations.ConstantsAreRootsOfPrimes : Prop :=
  let primes := (List.range 410).filter (fun n => decide (2 ≤ n) && (List.range n).all (fun d => decide (d < 2) || n % d != 0))
  (∀ t, t < 64 → ∃ q, q % 2 ^ 32 = ((alg256.roundConstants).getD t 0).toNat ∧
    q ^ 3 ≤ primes.getD t 0 * 2 ^ 96 ∧ primes.getD t 0 * 2 ^ 96 < (q + 1) ^ 3) ∧
  (∀ t, t < 80 → ∃ q, q % 2 ^ 64 = ((alg512.roundConstants).getD t 0).toNat ∧
    q ^ 3 ≤ primes.getD t 0 * 2 ^ 192 ∧ primes.getD t 0 * 2 ^ 192 < (q + 1) ^ 3) ∧
  (∀ t, t < 8 → ∃ q, q % 2 ^ 32 = (alg256.iv.toList.getD t 0).toNat ∧
    q ^ 2 ≤ primes.getD t 0 * 2 ^ 64 ∧ primes.getD t 0 * 2 ^ 64 < (q + 1) ^ 2) ∧
  (∀ t, t < 8 → ∃ q, q % 2 ^ 64 = (alg512.iv.toList.getD t 0).toNat ∧
    q ^ 2 ≤ primes.getD t 0 * 2 ^ 128 ∧ primes.getD t 0 * 2 ^ 128 < (q + 1) ^ 2)

-- ---------------------------------------------------------------- the stream and the tree

/-- spec/41_streaming.md R226: whatever way a message is split into UPDATEs, the digest FINALIZE would write and whether it would demote
are those of one UPDATE of the whole. -/
def Obligations.DigestIsChunkInvariant : Prop :=
  ∀ (s : State) (chunks : List (List Byte)), Inv s →
    (chunks.foldl State.absorb s).digest = (s.absorb chunks.flatten).digest ∧
    (chunks.foldl State.absorb s).demotes = (s.absorb chunks.flatten).demotes

/-- spec/41_streaming.md R225: after any UPDATEs of a message m from an empty buffer, the first q segments of m have been flushed in order
and the buffer holds the rest, with q and MLEN one of the two pairs the rule gives. -/
def Obligations.BufferHoldsTheUnflushedBytes : Prop :=
  ∀ (s : State) (chunks : List (List Byte)), Inv s → s.mlen = 0 →
    let t := chunks.foldl State.absorb s
    let m := chunks.flatten
    ∃ q, ((q = m.length / s.capacity ∧ t.mlen = m.length % s.capacity) ∨
        (0 < m.length ∧ m.length % s.capacity = 0 ∧ q + 1 = m.length / s.capacity ∧ t.mlen = s.capacity)) ∧
      t.buffered = m.drop (q * s.capacity) ∧
      lanesRelated (fun A k l l' =>
        l' = if k < s.laneCount then
            (List.range q).foldl
              (fun x j => compressLane A x (slice m (j * s.capacity + k * blockBytes A.variant) (blockBytes A.variant))) l
          else l) s.hash t.hash

/-- spec/42_tree.md R284: in parallel mode, FINALIZE sees REACHED = 0 and MLEN < C exactly when fewer than C bytes were absorbed since the
reset, whatever the split. -/
def Obligations.DemotionIsDecidedByLength : Prop :=
  ∀ (s : State) (chunks : List (List Byte)), Inv s → s.fsm = .empty → s.parallel = true →
    let t := chunks.foldl State.absorb s
    (t.reached = false ∧ t.mlen < t.capacity) ↔ chunks.flatten.length < s.capacity

/-- spec/42_tree.md section 3 (R288): HashOf is the digest of the reference of Safety.lean, which has a padding, a transform and a byte order
of its own and shares only the tables K and IV with the model. At the lengths FIPS 180-4 allows that is the FIPS 180-4 digest; beyond them
the reference wraps its length field too, the model's reading (spec/41_streaming.md R233, DEDUCED, notes/assumptions/8.md). -/
def Obligations.HashOfIsFips : Prop :=
  (∀ m : List Byte, hashOf alg256 m = fipsDigest fips256 m) ∧ (∀ m : List Byte, hashOf alg512 m = fipsDigest fips512 m)

/-- spec/41_streaming.md R229, R230 with spec/00_scope.md R3: in sequential mode the digest of a message absorbed on a fresh stream is the
FIPS 180-4 digest of the message; for a message longer than FIPS 180-4 allows, the reference wraps its length field too
(spec/41_streaming.md R233, notes/assumptions/8.md). -/
def Obligations.SequentialDigestIsFips : Prop :=
  ∀ (s : State) (m : List Byte), Inv s → FreshStream s → s.parallel = false →
    (s.absorb m).demotes = false ∧ (s.absorb m).digest = plainDigest s.variant m

/-- spec/42_tree.md R285: a message shorter than C, absorbed on a fresh stream in parallel mode, is demoted, and its digest is the plain
FIPS 180-4 digest. -/
def Obligations.DemotedDigestIsFips : Prop :=
  ∀ (s : State) (m : List Byte), Inv s → FreshStream s → s.parallel = true → m.length < s.capacity →
    (s.absorb m).demotes = true ∧ (s.absorb m).digest = plainDigest s.variant m

/-- spec/42_tree.md R286, R287, R289 to R292: a message of at least C bytes, absorbed on a fresh stream in parallel mode, gives the tree of
whole digests: lane k hashes blocks k, k + N, …; depth 1 hashes the lane hashes; depth 2 hashes branch hashes, each over its lane hashes
and the header with its node offset. For a lane's bytes longer than FIPS 180-4 allows, the reference wraps its length field too
(spec/41_streaming.md R233, notes/assumptions/8.md). -/
def Obligations.ParallelDigestIsTheTree : Prop :=
  ∀ (s : State) (m : List Byte), Inv s → FreshStream s → s.parallel = true → s.capacity ≤ m.length →
    (s.absorb m).demotes = false ∧ (s.absorb m).digest = treeDigest s.variant s.cfg m

/-- spec/10_state.md R30 ("The higher lanes hold their reset value and are not read"): lanes from N on have no influence on any digest,
lane readback, or on the lanes below N after absorbing. -/
def Obligations.IdleLanesAreNotRead : Prop :=
  ∀ (s : State) (h : HashBank) (m : List Byte), 1 ≤ s.laneCount → s.laneCount ≤ laneFileSize s.hash →
    lanesRelated (fun _ k l l' => k < s.laneCount → l = l') s.hash h →
    s.digest = State.digest { s with hash := h } ∧
    (∀ k, k < s.laneCount → s.laneImageAt k = State.laneImageAt { s with hash := h } k) ∧
    lanesRelated (fun _ k l l' => k < s.laneCount → l = l') (s.absorb m).hash (State.absorb { s with hash := h } m).hash

/-- spec/42_tree.md R281, R283, spec/40_compression.md R179: a dispatch gives each lane its own block, in whatever order the lanes run. -/
def Obligations.LaneOrderDoesNotMatter : Prop :=
  ∀ (s : State) (seg : List Byte) (order : List Nat), order.Perm (List.range s.laneCount) →
    (order.foldl (fun x k => x.compressAt k (slice seg (k * blockBytes s.variant) (blockBytes s.variant))) s).hash =
      (s.dispatch seg).hash

/-- spec/10_state.md R43: the header is sixteen bytes, laid out as the rule says, and deserialization is the inverse of serialization. -/
def Obligations.HeaderRoundTrips : Prop :=
  (∀ c : TreeParams,
    headerBytes c =
      [c.digestLength, c.keyLength, c.treeDepth,
        c.leafLength.extractLsb' 0 8, c.leafLength.extractLsb' 8 8, c.leafLength.extractLsb' 16 8, c.leafLength.extractLsb' 24 8,
        c.parallelDegree, c.subTreeLength, c.nodeOffset,
        c.reserved1.extractLsb' 0 8, c.reserved1.extractLsb' 8 8,
        c.reserved2.extractLsb' 0 8, c.reserved2.extractLsb' 8 8, c.reserved2.extractLsb' 16 8, c.reserved2.extractLsb' 24 8] ∧
    parseHeader (headerBytes c) = c) ∧
  (∀ h : List Byte, h.length = 16 → headerBytes (parseHeader h) = h)

-- ---------------------------------------------------------------- the host bus

/-- spec/20_memory.md R84 to R86: an access the interface does not admit, or a write while BUSY, has no effect but HOSTVIOL, and such a
read returns 0. -/
def Obligations.RefusedAccessOnlyFlags : Prop :=
  ∀ (s : State) (a : Word32) (width : Nat) (v : Word32),
    (¬ ReadAdmitted s.params a.toNat width →
      s.hostRead a width = { s with errSticky := s.errSticky ||| 0x00008000#32, reads := 0 :: s.reads }) ∧
    (¬ WriteAdmitted s.params a.toNat width ∨ s.busy = true →
      s.hostWrite a width v = { s with errSticky := s.errSticky ||| 0x00008000#32, freeCtr := (s.hostWrite a width v).freeCtr })

/-- spec/20_memory.md R88: an admitted read changes nothing, and reading again gives the same value. While BUSY = 1, that the second read
of a value spec/20_memory.md R87 leaves unspecified agrees with the first is the model's reading of R88, DEDUCED
(notes/assumptions/3.md). -/
def Obligations.AdmittedReadHasNoEffect : Prop :=
  ∀ (s : State) (a : Word32) (width : Nat), ReadAdmitted s.params a.toNat width →
    ∃ v, s.hostRead a width = { s with reads := v :: s.reads } ∧
      (s.hostRead a width).hostRead a width = { s with reads := v :: v :: s.reads }

/-- spec/20_memory.md R82: the bus is little-endian: an admitted window write puts byte j of the value at a + j and changes no other byte,
and an idle read of s bytes returns the sum of byte(a + j) · 2^(8j). -/
def Obligations.BusIsLittleEndian : Prop :=
  ∀ (s : State) (a : Word32) (width : Nat) (v : Word32), s.busy = false → inBase ≤ a.toNat →
    WriteAdmitted s.params a.toNat width →
    (∀ j, j < width → (s.hostWrite a width v).byteAt (a.toNat + j) = v.extractLsb' (8 * j) 8) ∧
    (∀ b, ¬ (a.toNat ≤ b ∧ b < a.toNat + width) → (s.hostWrite a width v).byteAt b = s.byteAt b) ∧
    (s.hostWrite a width v = { s with mem := (s.hostWrite a width v).mem, freeCtr := (s.hostWrite a width v).freeCtr }) ∧
    ((s.hostRead a width).reads =
      BitVec.ofNat 32 (((List.range width).map (fun j => (s.byteAt (a.toNat + j)).toNat * 2 ^ (8 * j))).sum) :: s.reads)

/-- spec/10_state.md R46, R47, R49: on an idle engine a CMD write latches the word and the operand registers and sets BUSY, the ARG writes
store, and an ERR_STICKY write clears exactly the bits written as 1. -/
def Obligations.RegisterWritesTakeEffect : Prop :=
  ∀ (s : State) (v : Word32), s.busy = false →
    (∃ n, s.hostWrite 0x00000004#32 4 v =
      { s with cmd := v, latch := ⟨v, s.argOff, s.argLen⟩, busy := true, freeCtr := n }) ∧
    (∃ n, s.hostWrite 0x00000008#32 4 v = { s with argOff := v, freeCtr := n }) ∧
    (∃ n, s.hostWrite 0x0000000C#32 4 v = { s with argLen := v, freeCtr := n }) ∧
    (∃ n e, s.hostWrite 0x00000014#32 4 v = { s with errSticky := e, freeCtr := n } ∧
      ∀ i, e.getLsbD i = (s.errSticky.getLsbD i && !v.getLsbD i))

/-- spec/10_state.md R44 to R50, spec/20_memory.md R91: what an idle host reads from each register, ID, INFO and STATUS field by field, with
the numbers of spec/00_scope.md R2 and the FSM codes of R48; LANES is N and CAPACITY is C of R45. -/
def Obligations.IdleRegisterReads : Prop :=
  ∀ s : State, s.busy = false → LegalParams s.variant s.params →
    let n := if s.cfg.treeDepth = 0 then 1 else s.cfg.parallelDegree.toNat * (match s.variant with | .sha256 => 4 | .sha512 => 2)
    (∃ x, (s.hostRead 0x00000000#32 4).reads = x :: s.reads ∧ IdFields s.variant s.params x) ∧
    (s.hostRead 0x00000004#32 4).reads = s.cmd :: s.reads ∧
    (s.hostRead 0x00000008#32 4).reads = s.argOff :: s.reads ∧
    (s.hostRead 0x0000000C#32 4).reads = s.argLen :: s.reads ∧
    (∃ x, (s.hostRead 0x00000010#32 4).reads = x :: s.reads ∧
      bits x 0 0 = 0 ∧ bits x 3 1 = (match s.fsm with | .empty => 0 | .buffering => 1 | .finalizing => 2 | .wiped => 3 | .processing => 4) ∧
      bits x 4 4 = (if 1 ≤ s.cfg.treeDepth.toNat then 1 else 0) ∧
      bits x 5 5 = (if s.demoted then 1 else 0) ∧ bits x 6 6 = (if s.reached then 1 else 0) ∧ bits x 7 7 = 0 ∧
      bits x 11 8 = s.lastErr.toNat ∧ bits x 31 12 = 0) ∧
    (s.hostRead 0x00000014#32 4).reads = s.errSticky :: s.reads ∧
    (s.hostRead 0x00000018#32 4).reads = BitVec.ofNat 32 s.mlen :: s.reads ∧
    (s.hostRead 0x0000001C#32 4).reads = BitVec.ofNat 32 n :: s.reads ∧
    (s.hostRead 0x00000020#32 4).reads = BitVec.ofNat 32 (n * (match s.variant with | .sha256 => 64 | .sha512 => 128)) :: s.reads ∧
    (∃ x, (s.hostRead 0x00000024#32 4).reads = x :: s.reads ∧ InfoFields s.variant x)

/-- spec/20_memory.md R87: while a command runs, ID, INFO, CMD, ARG_OFF and ARG_LEN read as they are, STATUS reads BUSY = 1 with PARALLEL as
configured and its fixed bits 0, and no admitted read sets HOSTVIOL. Its other fields are free values (notes/assumptions/3.md): the
statement says nothing of them but that FSM never shows 5 to 7 (spec/10_state.md R48). -/
def Obligations.BusyReadsShowBusy : Prop :=
  ∀ s : State, s.busy = true →
    (s.hostRead 0x00000000#32 4).reads = s.idWord :: s.reads ∧
    (s.hostRead 0x00000024#32 4).reads = s.infoWord :: s.reads ∧
    (LegalParams s.variant s.params → IdFields s.variant s.params s.idWord) ∧ InfoFields s.variant s.infoWord ∧
    (s.hostRead 0x00000004#32 4).reads = s.cmd :: s.reads ∧
    (s.hostRead 0x00000008#32 4).reads = s.argOff :: s.reads ∧
    (s.hostRead 0x0000000C#32 4).reads = s.argLen :: s.reads ∧
    (∃ x, (s.hostRead 0x00000010#32 4).reads = x :: s.reads ∧
      bits x 0 0 = 1 ∧ bits x 4 4 = (if 1 ≤ s.cfg.treeDepth.toNat then 1 else 0) ∧ bits x 3 1 ≤ 4 ∧ bits x 7 7 = 0 ∧
      bits x 31 12 = 0) ∧
    (∀ (a : Word32) (width : Nat), ReadAdmitted s.params a.toNat width →
      (s.hostRead a width).errSticky = s.errSticky)

/-- spec/20_memory.md R93, point 4: from a busy state BUSY returns to 0 within the host events still to come and one step more. -/
def Obligations.BusyReturnsToZero : Prop :=
  ∀ s : State, s.busy = true → ∃ n t, n ≤ s.agenda.length + 1 ∧ runSteps n s = .next t ∧ t.busy = false

/-- spec/30_encoding.md R130 with spec/20_memory.md R93: a line of a host program, run on an idle engine with any number of polls before the
engine's step, runs its command exactly once on the operands of the line; the last poll is the first that reads BUSY = 0, and it reads the
command's STATUS. -/
def Obligations.CommandLineRunsOnce : Prop :=
  ∀ (s : State) (i : Instr) (o n : Word32) (polls : Nat) (rest : List Event),
    s.busy = false → i.WellFormed → s.agenda = commandEvents polls i o n ++ rest →
    ∃ u v t : State,
      u = { s with
            argOff := if (formOf i).readsOffset then o else s.argOff, argLen := if (formOf i).readsLength then n else s.argLen,
            cmd := encode i, latch := ⟨encode i, u.argOff, u.argLen⟩, busy := true, agenda := u.agenda, reads := u.reads,
            freeCtr := u.freeCtr } ∧
      exec i u = .next v ∧
      runSteps (commandEvents polls i o n).length s = .next t ∧
      t = { v with hash := t.hash, agenda := rest, reads := t.reads, freeCtr := t.freeCtr } ∧
      blankDatapath t.hash = blankDatapath v.hash ∧ t.busy = false ∧
      (∃ seen : List Word32, t.reads = t.status :: (seen ++ s.reads) ∧ seen.length = polls ∧
        (∀ x ∈ seen, bits x 0 0 = 1) ∧ bits t.status 0 0 = 0)

/-- spec/30_encoding.md R131 with R130: the pseudo-command hash, run on an idle engine with any number of polls for either command. First,
always: its result is that of UPDATE and then FINALIZE, each run once on the line's operands, FINALIZE on what UPDATE leaves even where
UPDATE fails. Second, with a fresh stream and legal ranges: both succeed, and the D bytes at its output offset are the FIPS 180-4 digest
of the input bytes, or in parallel mode, for a message of at least C bytes, the tree digest (spec/41_streaming.md R227); every other
byte stays, and the stream restarts. -/
def Obligations.HashLineWritesTheDigest : Prop :=
  ∀ (s : State) (i n o : Word32) (polls polls' : Nat) (rest : List Event),
    s.busy = false → s.agenda = lineEvents polls polls' (.hash i n o) ++ rest →
    (∃ u v x y t : State,
      u = { s with
            argOff := i, argLen := n, cmd := encode .update, latch := ⟨encode .update, i, n⟩, busy := true, agenda := u.agenda,
            reads := u.reads, freeCtr := u.freeCtr } ∧
      exec .update u = .next v ∧
      x = { v with
            argOff := o, cmd := encode .finalize, latch := ⟨encode .finalize, o, n⟩, busy := true, hash := x.hash, agenda := x.agenda,
            reads := x.reads, freeCtr := x.freeCtr } ∧
      blankDatapath x.hash = blankDatapath v.hash ∧
      exec .finalize x = .next y ∧
      runSteps (lineEvents polls polls' (.hash i n o)).length s = .next t ∧
      t = { y with hash := t.hash, agenda := rest, reads := t.reads, freeCtr := t.freeCtr } ∧
      blankDatapath t.hash = blankDatapath y.hash) ∧
    (Inv s → FreshStream s → i.toNat + n.toNat ≤ s.params.inSize → o.toNat + digestBytes s.variant ≤ s.params.outSize →
      let m := (List.range n.toNat).map (fun j => s.byteAt (inBase + i.toNat + j))
      ∃ t, runSteps (lineEvents polls polls' (.hash i n o)).length s = .next t ∧
        (List.range (digestBytes s.variant)).map (fun j => t.byteAt (outBase + o.toNat + j)) =
          (if s.parallel = true ∧ s.capacity ≤ m.length then treeDigest s.variant s.cfg m else plainDigest s.variant m) ∧
        (∀ a, ¬ (outBase + o.toNat ≤ a ∧ a < outBase + o.toNat + digestBytes s.variant) → t.byteAt a = s.byteAt a) ∧
        (t.demoted = true ↔ s.parallel = true ∧ m.length < s.capacity) ∧
        StreamRestarted s t ∧ t.lastErr = 0 ∧ t.busy = false ∧ t.errSticky = s.errSticky ∧ t.cfg = s.cfg ∧ t.agenda = rest)

-- ---------------------------------------------------------------- reset

/-- spec/10_state.md R53, spec/70_reset_and_hazards.md R430: the power-on value of everything the rule gives a value, for every instance,
with N_MAX, CMAX, B and D by the numbers of spec/00_scope.md R2 and R6. -/
def Obligations.PowerOnValues : Prop :=
  ∀ (v : Variant) (p : Params),
    let s := State.powerOn v p
    let lanes := max 1 (p.maxDegree * (match v with | .sha256 => 4 | .sha512 => 2))
    s.variant = v ∧ s.params = p ∧ laneFileSize s.hash = lanes ∧
    everyLane (fun A _ l => l.words = A.iv ∧ l.cntHi = 0 ∧ l.cntLo = 0) s.hash ∧
    s.mb = List.replicate (lanes * (match v with | .sha256 => 64 | .sha512 => 128)) 0 ∧ s.mlen = 0 ∧ s.reached = false ∧ s.fsm = .empty ∧
    s.cfg = { digestLength := (match v with | .sha256 => 32 | .sha512 => 64), keyLength := 0, treeDepth := 0, leafLength := 0, parallelDegree := 1,
              subTreeLength := 0, nodeOffset := 0, reserved1 := 0, reserved2 := 0 } ∧
    s.cmd = 0 ∧ s.argOff = 0 ∧ s.argLen = 0 ∧ s.busy = false ∧ s.demoted = false ∧ s.lastErr = 0 ∧ s.errSticky = 0 ∧
    s.laneCount = 1 ∧ s.capacity = (match v with | .sha256 => 64 | .sha512 => 128)

/-- spec/70_reset_and_hazards.md R431: the hardware reset input puts the engine at its power-on values whenever it is asserted, also while a
command runs, which is abandoned; of the state only the instance's parameters and what is the host's own remain. The equality with the whole
of State.powerOn also fixes what the spec leaves open, by the model's choice: the datapath registers and the scratch at zero
(notes/assumptions/5.md, DESIGN CHOICE), the latch at zero (notes/assumptions/6.md, DESIGN CHOICE), and the windows unspecified again with
the host's agenda and readings kept (notes/assumptions/9.md, DEDUCED). -/
def Obligations.HardwareResetPowersOn : Prop :=
  ∀ (s : State) (rest : List Event), s.agenda = .hardwareReset :: rest →
    ∃ t, step s = .next t ∧
      t = { State.powerOn s.variant s.params with agenda := rest, reads := s.reads, epoch := t.epoch, freeCtr := t.freeCtr } ∧
      t.busy = false ∧ t.epoch ≠ s.epoch

/-- The state after power-on of every legal instance is well-formed. State.reset is that of the instance of Config, which is the model's
choice (notes/assumptions/1.md). -/
def Obligations.PowerOnIsWellFormed : Prop :=
  (∀ (v : Variant) (p : Params), LegalParams v p → Inv (State.powerOn v p)) ∧
  State.reset = State.powerOn Config.resetVariant Config.resetParams ∧ Inv State.reset

/-- Every step of the system, command, bus access or hardware reset, keeps a well-formed state well-formed: the lane file and its counters
(spec/10_state.md R30, R31), the buffer and its occupancy (R35), the configuration (spec/43_config_control.md R332), the streaming state
(spec/90_conflicts.md C10), the error registers (spec/60_exceptions.md R381), the canonical memory and the latch. -/
def Obligations.StepsKeepStatesWellFormed : Prop := ∀ s t : State, Inv s → step s = .next t → Inv t
end

