-- ==== Sys2Proof/Laws/State.lean ====
section
/-! SUPPORT. One equation per field and named update of State, so that no proof unfolds a record update; then what the derived values
(VARIANT, mode, lane count, capacity) are after each. -/

namespace Sys2Proof.Machine

open Sys2Proof

variable (s : State)

@[simp] theorem State.raise_params (e : ErrorKind) : (s.raise e).params = s.params := rfl
@[simp] theorem State.raise_hash (e : ErrorKind) : (s.raise e).hash = s.hash := rfl
@[simp] theorem State.raise_mb (e : ErrorKind) : (s.raise e).mb = s.mb := rfl
@[simp] theorem State.raise_mlen (e : ErrorKind) : (s.raise e).mlen = s.mlen := rfl
@[simp] theorem State.raise_reached (e : ErrorKind) : (s.raise e).reached = s.reached := rfl
@[simp] theorem State.raise_fsm (e : ErrorKind) : (s.raise e).fsm = s.fsm := rfl
@[simp] theorem State.raise_cfg (e : ErrorKind) : (s.raise e).cfg = s.cfg := rfl
@[simp] theorem State.raise_cmd (e : ErrorKind) : (s.raise e).cmd = s.cmd := rfl
@[simp] theorem State.raise_argOff (e : ErrorKind) : (s.raise e).argOff = s.argOff := rfl
@[simp] theorem State.raise_argLen (e : ErrorKind) : (s.raise e).argLen = s.argLen := rfl
@[simp] theorem State.raise_latch (e : ErrorKind) : (s.raise e).latch = s.latch := rfl
@[simp] theorem State.raise_busy (e : ErrorKind) : (s.raise e).busy = false := rfl
@[simp] theorem State.raise_demoted (e : ErrorKind) : (s.raise e).demoted = s.demoted := rfl
@[simp] theorem State.raise_lastErr (e : ErrorKind) : (s.raise e).lastErr = BitVec.ofNat 4 (errorCode e) := rfl
@[simp] theorem State.raise_errSticky (e : ErrorKind) : (s.raise e).errSticky = s.errSticky ||| stickyBit (errorCode e) := rfl
@[simp] theorem State.raise_mem (e : ErrorKind) : (s.raise e).mem = s.mem := rfl
@[simp] theorem State.raise_agenda (e : ErrorKind) : (s.raise e).agenda = s.agenda := rfl
@[simp] theorem State.raise_reads (e : ErrorKind) : (s.raise e).reads = s.reads := rfl
@[simp] theorem State.raise_epoch (e : ErrorKind) : (s.raise e).epoch = s.epoch := rfl
@[simp] theorem State.raise_freeCtr (e : ErrorKind) : (s.raise e).freeCtr = s.freeCtr := rfl

@[simp] theorem State.complete_params : (s.complete).params = s.params := rfl
@[simp] theorem State.complete_hash : (s.complete).hash = s.hash := rfl
@[simp] theorem State.complete_mb : (s.complete).mb = s.mb := rfl
@[simp] theorem State.complete_mlen : (s.complete).mlen = s.mlen := rfl
@[simp] theorem State.complete_reached : (s.complete).reached = s.reached := rfl
@[simp] theorem State.complete_fsm : (s.complete).fsm = s.fsm := rfl
@[simp] theorem State.complete_cfg : (s.complete).cfg = s.cfg := rfl
@[simp] theorem State.complete_cmd : (s.complete).cmd = s.cmd := rfl
@[simp] theorem State.complete_argOff : (s.complete).argOff = s.argOff := rfl
@[simp] theorem State.complete_argLen : (s.complete).argLen = s.argLen := rfl
@[simp] theorem State.complete_latch : (s.complete).latch = s.latch := rfl
@[simp] theorem State.complete_busy : (s.complete).busy = false := rfl
@[simp] theorem State.complete_demoted : (s.complete).demoted = s.demoted := rfl
@[simp] theorem State.complete_lastErr : (s.complete).lastErr = 0 := rfl
@[simp] theorem State.complete_errSticky : (s.complete).errSticky = s.errSticky := rfl
@[simp] theorem State.complete_mem : (s.complete).mem = s.mem := rfl
@[simp] theorem State.complete_agenda : (s.complete).agenda = s.agenda := rfl
@[simp] theorem State.complete_reads : (s.complete).reads = s.reads := rfl
@[simp] theorem State.complete_epoch : (s.complete).epoch = s.epoch := rfl
@[simp] theorem State.complete_freeCtr : (s.complete).freeCtr = s.freeCtr := rfl

@[simp] theorem State.startBuffering_params : (s.startBuffering).params = s.params := rfl
@[simp] theorem State.startBuffering_hash : (s.startBuffering).hash = s.hash := rfl
@[simp] theorem State.startBuffering_mb : (s.startBuffering).mb = s.mb := rfl
@[simp] theorem State.startBuffering_mlen : (s.startBuffering).mlen = s.mlen := rfl
@[simp] theorem State.startBuffering_reached : (s.startBuffering).reached = s.reached := rfl
@[simp] theorem State.startBuffering_fsm : (s.startBuffering).fsm = .buffering := rfl
@[simp] theorem State.startBuffering_cfg : (s.startBuffering).cfg = s.cfg := rfl
@[simp] theorem State.startBuffering_cmd : (s.startBuffering).cmd = s.cmd := rfl
@[simp] theorem State.startBuffering_argOff : (s.startBuffering).argOff = s.argOff := rfl
@[simp] theorem State.startBuffering_argLen : (s.startBuffering).argLen = s.argLen := rfl
@[simp] theorem State.startBuffering_latch : (s.startBuffering).latch = s.latch := rfl
@[simp] theorem State.startBuffering_busy : (s.startBuffering).busy = s.busy := rfl
@[simp] theorem State.startBuffering_demoted : (s.startBuffering).demoted = s.demoted := rfl
@[simp] theorem State.startBuffering_lastErr : (s.startBuffering).lastErr = s.lastErr := rfl
@[simp] theorem State.startBuffering_errSticky : (s.startBuffering).errSticky = s.errSticky := rfl
@[simp] theorem State.startBuffering_mem : (s.startBuffering).mem = s.mem := rfl
@[simp] theorem State.startBuffering_agenda : (s.startBuffering).agenda = s.agenda := rfl
@[simp] theorem State.startBuffering_reads : (s.startBuffering).reads = s.reads := rfl
@[simp] theorem State.startBuffering_epoch : (s.startBuffering).epoch = s.epoch := rfl
@[simp] theorem State.startBuffering_freeCtr : (s.startBuffering).freeCtr = s.freeCtr := rfl

@[simp] theorem State.violation_params : (s.violation).params = s.params := rfl
@[simp] theorem State.violation_hash : (s.violation).hash = s.hash := rfl
@[simp] theorem State.violation_mb : (s.violation).mb = s.mb := rfl
@[simp] theorem State.violation_mlen : (s.violation).mlen = s.mlen := rfl
@[simp] theorem State.violation_reached : (s.violation).reached = s.reached := rfl
@[simp] theorem State.violation_fsm : (s.violation).fsm = s.fsm := rfl
@[simp] theorem State.violation_cfg : (s.violation).cfg = s.cfg := rfl
@[simp] theorem State.violation_cmd : (s.violation).cmd = s.cmd := rfl
@[simp] theorem State.violation_argOff : (s.violation).argOff = s.argOff := rfl
@[simp] theorem State.violation_argLen : (s.violation).argLen = s.argLen := rfl
@[simp] theorem State.violation_latch : (s.violation).latch = s.latch := rfl
@[simp] theorem State.violation_busy : (s.violation).busy = s.busy := rfl
@[simp] theorem State.violation_demoted : (s.violation).demoted = s.demoted := rfl
@[simp] theorem State.violation_lastErr : (s.violation).lastErr = s.lastErr := rfl
@[simp] theorem State.violation_errSticky : (s.violation).errSticky = s.errSticky ||| stickyBit 15 := rfl
@[simp] theorem State.violation_mem : (s.violation).mem = s.mem := rfl
@[simp] theorem State.violation_agenda : (s.violation).agenda = s.agenda := rfl
@[simp] theorem State.violation_reads : (s.violation).reads = s.reads := rfl
@[simp] theorem State.violation_epoch : (s.violation).epoch = s.epoch := rfl
@[simp] theorem State.violation_freeCtr : (s.violation).freeCtr = s.freeCtr := rfl

@[simp] theorem State.clearSticky_params (v : Word32) : (s.clearSticky v).params = s.params := rfl
@[simp] theorem State.clearSticky_hash (v : Word32) : (s.clearSticky v).hash = s.hash := rfl
@[simp] theorem State.clearSticky_mb (v : Word32) : (s.clearSticky v).mb = s.mb := rfl
@[simp] theorem State.clearSticky_mlen (v : Word32) : (s.clearSticky v).mlen = s.mlen := rfl
@[simp] theorem State.clearSticky_reached (v : Word32) : (s.clearSticky v).reached = s.reached := rfl
@[simp] theorem State.clearSticky_fsm (v : Word32) : (s.clearSticky v).fsm = s.fsm := rfl
@[simp] theorem State.clearSticky_cfg (v : Word32) : (s.clearSticky v).cfg = s.cfg := rfl
@[simp] theorem State.clearSticky_cmd (v : Word32) : (s.clearSticky v).cmd = s.cmd := rfl
@[simp] theorem State.clearSticky_argOff (v : Word32) : (s.clearSticky v).argOff = s.argOff := rfl
@[simp] theorem State.clearSticky_argLen (v : Word32) : (s.clearSticky v).argLen = s.argLen := rfl
@[simp] theorem State.clearSticky_latch (v : Word32) : (s.clearSticky v).latch = s.latch := rfl
@[simp] theorem State.clearSticky_busy (v : Word32) : (s.clearSticky v).busy = s.busy := rfl
@[simp] theorem State.clearSticky_demoted (v : Word32) : (s.clearSticky v).demoted = s.demoted := rfl
@[simp] theorem State.clearSticky_lastErr (v : Word32) : (s.clearSticky v).lastErr = s.lastErr := rfl
@[simp] theorem State.clearSticky_errSticky (v : Word32) : (s.clearSticky v).errSticky = s.errSticky &&& ~~~v := rfl
@[simp] theorem State.clearSticky_mem (v : Word32) : (s.clearSticky v).mem = s.mem := rfl
@[simp] theorem State.clearSticky_agenda (v : Word32) : (s.clearSticky v).agenda = s.agenda := rfl
@[simp] theorem State.clearSticky_reads (v : Word32) : (s.clearSticky v).reads = s.reads := rfl
@[simp] theorem State.clearSticky_epoch (v : Word32) : (s.clearSticky v).epoch = s.epoch := rfl
@[simp] theorem State.clearSticky_freeCtr (v : Word32) : (s.clearSticky v).freeCtr = s.freeCtr := rfl

@[simp] theorem State.memWrite_params (o : Nat) (bs : List Byte) : (s.memWrite o bs).params = s.params := rfl
@[simp] theorem State.memWrite_hash (o : Nat) (bs : List Byte) : (s.memWrite o bs).hash = s.hash := rfl
@[simp] theorem State.memWrite_mb (o : Nat) (bs : List Byte) : (s.memWrite o bs).mb = s.mb := rfl
@[simp] theorem State.memWrite_mlen (o : Nat) (bs : List Byte) : (s.memWrite o bs).mlen = s.mlen := rfl
@[simp] theorem State.memWrite_reached (o : Nat) (bs : List Byte) : (s.memWrite o bs).reached = s.reached := rfl
@[simp] theorem State.memWrite_fsm (o : Nat) (bs : List Byte) : (s.memWrite o bs).fsm = s.fsm := rfl
@[simp] theorem State.memWrite_cfg (o : Nat) (bs : List Byte) : (s.memWrite o bs).cfg = s.cfg := rfl
@[simp] theorem State.memWrite_cmd (o : Nat) (bs : List Byte) : (s.memWrite o bs).cmd = s.cmd := rfl
@[simp] theorem State.memWrite_argOff (o : Nat) (bs : List Byte) : (s.memWrite o bs).argOff = s.argOff := rfl
@[simp] theorem State.memWrite_argLen (o : Nat) (bs : List Byte) : (s.memWrite o bs).argLen = s.argLen := rfl
@[simp] theorem State.memWrite_latch (o : Nat) (bs : List Byte) : (s.memWrite o bs).latch = s.latch := rfl
@[simp] theorem State.memWrite_busy (o : Nat) (bs : List Byte) : (s.memWrite o bs).busy = s.busy := rfl
@[simp] theorem State.memWrite_demoted (o : Nat) (bs : List Byte) : (s.memWrite o bs).demoted = s.demoted := rfl
@[simp] theorem State.memWrite_lastErr (o : Nat) (bs : List Byte) : (s.memWrite o bs).lastErr = s.lastErr := rfl
@[simp] theorem State.memWrite_errSticky (o : Nat) (bs : List Byte) : (s.memWrite o bs).errSticky = s.errSticky := rfl
@[simp] theorem State.memWrite_mem (o : Nat) (bs : List Byte) : (s.memWrite o bs).mem = memStoreBytes s.mem (outBase + o) bs := rfl
@[simp] theorem State.memWrite_agenda (o : Nat) (bs : List Byte) : (s.memWrite o bs).agenda = s.agenda := rfl
@[simp] theorem State.memWrite_reads (o : Nat) (bs : List Byte) : (s.memWrite o bs).reads = s.reads := rfl
@[simp] theorem State.memWrite_epoch (o : Nat) (bs : List Byte) : (s.memWrite o bs).epoch = s.epoch := rfl
@[simp] theorem State.memWrite_freeCtr (o : Nat) (bs : List Byte) : (s.memWrite o bs).freeCtr = s.freeCtr := rfl

@[simp] theorem State.resetStream_params : (s.resetStream).params = s.params := rfl
@[simp] theorem State.resetStream_hash : (s.resetStream).hash = onLanes (fun A lanes => lanes.map (fun _ => initLane A)) s.hash := rfl
@[simp] theorem State.resetStream_mb : (s.resetStream).mb = zeros (bufferBytes s.variant s.params) := rfl
@[simp] theorem State.resetStream_mlen : (s.resetStream).mlen = 0 := rfl
@[simp] theorem State.resetStream_reached : (s.resetStream).reached = false := rfl
@[simp] theorem State.resetStream_fsm : (s.resetStream).fsm = .empty := rfl
@[simp] theorem State.resetStream_cfg : (s.resetStream).cfg = s.cfg := rfl
@[simp] theorem State.resetStream_cmd : (s.resetStream).cmd = s.cmd := rfl
@[simp] theorem State.resetStream_argOff : (s.resetStream).argOff = s.argOff := rfl
@[simp] theorem State.resetStream_argLen : (s.resetStream).argLen = s.argLen := rfl
@[simp] theorem State.resetStream_latch : (s.resetStream).latch = s.latch := rfl
@[simp] theorem State.resetStream_busy : (s.resetStream).busy = s.busy := rfl
@[simp] theorem State.resetStream_demoted : (s.resetStream).demoted = s.demoted := rfl
@[simp] theorem State.resetStream_lastErr : (s.resetStream).lastErr = s.lastErr := rfl
@[simp] theorem State.resetStream_errSticky : (s.resetStream).errSticky = s.errSticky := rfl
@[simp] theorem State.resetStream_mem : (s.resetStream).mem = s.mem := rfl
@[simp] theorem State.resetStream_agenda : (s.resetStream).agenda = s.agenda := rfl
@[simp] theorem State.resetStream_reads : (s.resetStream).reads = s.reads := rfl
@[simp] theorem State.resetStream_epoch : (s.resetStream).epoch = s.epoch := rfl
@[simp] theorem State.resetStream_freeCtr : (s.resetStream).freeCtr = s.freeCtr := rfl

@[simp] theorem State.reconfigure_params (c : TreeParams) : (s.reconfigure c).params = s.params := rfl
@[simp] theorem State.reconfigure_hash (c : TreeParams) : (s.reconfigure c).hash = onLanes (fun A lanes => lanes.map (fun _ => initLane A)) s.hash := rfl
@[simp] theorem State.reconfigure_mb (c : TreeParams) : (s.reconfigure c).mb = zeros (bufferBytes s.variant s.params) := rfl
@[simp] theorem State.reconfigure_mlen (c : TreeParams) : (s.reconfigure c).mlen = 0 := rfl
@[simp] theorem State.reconfigure_reached (c : TreeParams) : (s.reconfigure c).reached = false := rfl
@[simp] theorem State.reconfigure_fsm (c : TreeParams) : (s.reconfigure c).fsm = .empty := rfl
@[simp] theorem State.reconfigure_cfg (c : TreeParams) : (s.reconfigure c).cfg = c := rfl
@[simp] theorem State.reconfigure_cmd (c : TreeParams) : (s.reconfigure c).cmd = s.cmd := rfl
@[simp] theorem State.reconfigure_argOff (c : TreeParams) : (s.reconfigure c).argOff = s.argOff := rfl
@[simp] theorem State.reconfigure_argLen (c : TreeParams) : (s.reconfigure c).argLen = s.argLen := rfl
@[simp] theorem State.reconfigure_latch (c : TreeParams) : (s.reconfigure c).latch = s.latch := rfl
@[simp] theorem State.reconfigure_busy (c : TreeParams) : (s.reconfigure c).busy = s.busy := rfl
@[simp] theorem State.reconfigure_demoted (c : TreeParams) : (s.reconfigure c).demoted = s.demoted := rfl
@[simp] theorem State.reconfigure_lastErr (c : TreeParams) : (s.reconfigure c).lastErr = s.lastErr := rfl
@[simp] theorem State.reconfigure_errSticky (c : TreeParams) : (s.reconfigure c).errSticky = s.errSticky := rfl
@[simp] theorem State.reconfigure_mem (c : TreeParams) : (s.reconfigure c).mem = s.mem := rfl
@[simp] theorem State.reconfigure_agenda (c : TreeParams) : (s.reconfigure c).agenda = s.agenda := rfl
@[simp] theorem State.reconfigure_reads (c : TreeParams) : (s.reconfigure c).reads = s.reads := rfl
@[simp] theorem State.reconfigure_epoch (c : TreeParams) : (s.reconfigure c).epoch = s.epoch := rfl
@[simp] theorem State.reconfigure_freeCtr (c : TreeParams) : (s.reconfigure c).freeCtr = s.freeCtr := rfl

@[simp] theorem State.erase_params : (s.erase).params = s.params := rfl
@[simp] theorem State.erase_hash : (s.erase).hash = withScratch (fun {w} A => zeroScratch w A.variant s.params) (clearLanes s.hash) := rfl
@[simp] theorem State.erase_mb : (s.erase).mb = zeros (bufferBytes s.variant s.params) := rfl
@[simp] theorem State.erase_mlen : (s.erase).mlen = 0 := rfl
@[simp] theorem State.erase_reached : (s.erase).reached = false := rfl
@[simp] theorem State.erase_fsm : (s.erase).fsm = .wiped := rfl
@[simp] theorem State.erase_cfg : (s.erase).cfg = s.cfg := rfl
@[simp] theorem State.erase_cmd : (s.erase).cmd = s.cmd := rfl
@[simp] theorem State.erase_argOff : (s.erase).argOff = s.argOff := rfl
@[simp] theorem State.erase_argLen : (s.erase).argLen = s.argLen := rfl
@[simp] theorem State.erase_latch : (s.erase).latch = s.latch := rfl
@[simp] theorem State.erase_busy : (s.erase).busy = s.busy := rfl
@[simp] theorem State.erase_demoted : (s.erase).demoted = s.demoted := rfl
@[simp] theorem State.erase_lastErr : (s.erase).lastErr = s.lastErr := rfl
@[simp] theorem State.erase_errSticky : (s.erase).errSticky = s.errSticky := rfl
@[simp] theorem State.erase_mem : (s.erase).mem = zeroWindows s.params := rfl
@[simp] theorem State.erase_agenda : (s.erase).agenda = s.agenda := rfl
@[simp] theorem State.erase_reads : (s.erase).reads = s.reads := rfl
@[simp] theorem State.erase_epoch : (s.erase).epoch = s.epoch := rfl
@[simp] theorem State.erase_freeCtr : (s.erase).freeCtr = s.freeCtr := rfl

@[simp] theorem State.dispatch_params (seg : List Byte) : (s.dispatch seg).params = s.params := rfl
@[simp] theorem State.dispatch_hash (seg : List Byte) : (s.dispatch seg).hash = onLanes (fun A lanes => dispatchLanes A s.laneCount seg lanes) s.hash := rfl
@[simp] theorem State.dispatch_mb (seg : List Byte) : (s.dispatch seg).mb = s.mb := rfl
@[simp] theorem State.dispatch_mlen (seg : List Byte) : (s.dispatch seg).mlen = s.mlen := rfl
@[simp] theorem State.dispatch_reached (seg : List Byte) : (s.dispatch seg).reached = true := rfl
@[simp] theorem State.dispatch_fsm (seg : List Byte) : (s.dispatch seg).fsm = s.fsm := rfl
@[simp] theorem State.dispatch_cfg (seg : List Byte) : (s.dispatch seg).cfg = s.cfg := rfl
@[simp] theorem State.dispatch_cmd (seg : List Byte) : (s.dispatch seg).cmd = s.cmd := rfl
@[simp] theorem State.dispatch_argOff (seg : List Byte) : (s.dispatch seg).argOff = s.argOff := rfl
@[simp] theorem State.dispatch_argLen (seg : List Byte) : (s.dispatch seg).argLen = s.argLen := rfl
@[simp] theorem State.dispatch_latch (seg : List Byte) : (s.dispatch seg).latch = s.latch := rfl
@[simp] theorem State.dispatch_busy (seg : List Byte) : (s.dispatch seg).busy = s.busy := rfl
@[simp] theorem State.dispatch_demoted (seg : List Byte) : (s.dispatch seg).demoted = s.demoted := rfl
@[simp] theorem State.dispatch_lastErr (seg : List Byte) : (s.dispatch seg).lastErr = s.lastErr := rfl
@[simp] theorem State.dispatch_errSticky (seg : List Byte) : (s.dispatch seg).errSticky = s.errSticky := rfl
@[simp] theorem State.dispatch_mem (seg : List Byte) : (s.dispatch seg).mem = s.mem := rfl
@[simp] theorem State.dispatch_agenda (seg : List Byte) : (s.dispatch seg).agenda = s.agenda := rfl
@[simp] theorem State.dispatch_reads (seg : List Byte) : (s.dispatch seg).reads = s.reads := rfl
@[simp] theorem State.dispatch_epoch (seg : List Byte) : (s.dispatch seg).epoch = s.epoch := rfl
@[simp] theorem State.dispatch_freeCtr (seg : List Byte) : (s.dispatch seg).freeCtr = s.freeCtr := rfl

@[simp] theorem State.compressAt_params (k : Nat) (blk : List Byte) : (s.compressAt k blk).params = s.params := rfl
@[simp] theorem State.compressAt_hash (k : Nat) (blk : List Byte) : (s.compressAt k blk).hash = onLanes (fun A lanes => lanes.modify k (fun l => compressLane A l blk)) s.hash := rfl
@[simp] theorem State.compressAt_mb (k : Nat) (blk : List Byte) : (s.compressAt k blk).mb = s.mb := rfl
@[simp] theorem State.compressAt_mlen (k : Nat) (blk : List Byte) : (s.compressAt k blk).mlen = s.mlen := rfl
@[simp] theorem State.compressAt_reached (k : Nat) (blk : List Byte) : (s.compressAt k blk).reached = s.reached := rfl
@[simp] theorem State.compressAt_fsm (k : Nat) (blk : List Byte) : (s.compressAt k blk).fsm = s.fsm := rfl
@[simp] theorem State.compressAt_cfg (k : Nat) (blk : List Byte) : (s.compressAt k blk).cfg = s.cfg := rfl
@[simp] theorem State.compressAt_cmd (k : Nat) (blk : List Byte) : (s.compressAt k blk).cmd = s.cmd := rfl
@[simp] theorem State.compressAt_argOff (k : Nat) (blk : List Byte) : (s.compressAt k blk).argOff = s.argOff := rfl
@[simp] theorem State.compressAt_argLen (k : Nat) (blk : List Byte) : (s.compressAt k blk).argLen = s.argLen := rfl
@[simp] theorem State.compressAt_latch (k : Nat) (blk : List Byte) : (s.compressAt k blk).latch = s.latch := rfl
@[simp] theorem State.compressAt_busy (k : Nat) (blk : List Byte) : (s.compressAt k blk).busy = s.busy := rfl
@[simp] theorem State.compressAt_demoted (k : Nat) (blk : List Byte) : (s.compressAt k blk).demoted = s.demoted := rfl
@[simp] theorem State.compressAt_lastErr (k : Nat) (blk : List Byte) : (s.compressAt k blk).lastErr = s.lastErr := rfl
@[simp] theorem State.compressAt_errSticky (k : Nat) (blk : List Byte) : (s.compressAt k blk).errSticky = s.errSticky := rfl
@[simp] theorem State.compressAt_mem (k : Nat) (blk : List Byte) : (s.compressAt k blk).mem = s.mem := rfl
@[simp] theorem State.compressAt_agenda (k : Nat) (blk : List Byte) : (s.compressAt k blk).agenda = s.agenda := rfl
@[simp] theorem State.compressAt_reads (k : Nat) (blk : List Byte) : (s.compressAt k blk).reads = s.reads := rfl
@[simp] theorem State.compressAt_epoch (k : Nat) (blk : List Byte) : (s.compressAt k blk).epoch = s.epoch := rfl
@[simp] theorem State.compressAt_freeCtr (k : Nat) (blk : List Byte) : (s.compressAt k blk).freeCtr = s.freeCtr := rfl

@[simp] theorem State.fillBuffer_params (i : Nat) (src : List Byte) : (s.fillBuffer i src).params = s.params := rfl
@[simp] theorem State.fillBuffer_hash (i : Nat) (src : List Byte) : (s.fillBuffer i src).hash = s.hash := rfl
@[simp] theorem State.fillBuffer_mb (i : Nat) (src : List Byte) : (s.fillBuffer i src).mb = splice s.mb i src := rfl
@[simp] theorem State.fillBuffer_mlen (i : Nat) (src : List Byte) : (s.fillBuffer i src).mlen = s.mlen := rfl
@[simp] theorem State.fillBuffer_reached (i : Nat) (src : List Byte) : (s.fillBuffer i src).reached = s.reached := rfl
@[simp] theorem State.fillBuffer_fsm (i : Nat) (src : List Byte) : (s.fillBuffer i src).fsm = s.fsm := rfl
@[simp] theorem State.fillBuffer_cfg (i : Nat) (src : List Byte) : (s.fillBuffer i src).cfg = s.cfg := rfl
@[simp] theorem State.fillBuffer_cmd (i : Nat) (src : List Byte) : (s.fillBuffer i src).cmd = s.cmd := rfl
@[simp] theorem State.fillBuffer_argOff (i : Nat) (src : List Byte) : (s.fillBuffer i src).argOff = s.argOff := rfl
@[simp] theorem State.fillBuffer_argLen (i : Nat) (src : List Byte) : (s.fillBuffer i src).argLen = s.argLen := rfl
@[simp] theorem State.fillBuffer_latch (i : Nat) (src : List Byte) : (s.fillBuffer i src).latch = s.latch := rfl
@[simp] theorem State.fillBuffer_busy (i : Nat) (src : List Byte) : (s.fillBuffer i src).busy = s.busy := rfl
@[simp] theorem State.fillBuffer_demoted (i : Nat) (src : List Byte) : (s.fillBuffer i src).demoted = s.demoted := rfl
@[simp] theorem State.fillBuffer_lastErr (i : Nat) (src : List Byte) : (s.fillBuffer i src).lastErr = s.lastErr := rfl
@[simp] theorem State.fillBuffer_errSticky (i : Nat) (src : List Byte) : (s.fillBuffer i src).errSticky = s.errSticky := rfl
@[simp] theorem State.fillBuffer_mem (i : Nat) (src : List Byte) : (s.fillBuffer i src).mem = s.mem := rfl
@[simp] theorem State.fillBuffer_agenda (i : Nat) (src : List Byte) : (s.fillBuffer i src).agenda = s.agenda := rfl
@[simp] theorem State.fillBuffer_reads (i : Nat) (src : List Byte) : (s.fillBuffer i src).reads = s.reads := rfl
@[simp] theorem State.fillBuffer_epoch (i : Nat) (src : List Byte) : (s.fillBuffer i src).epoch = s.epoch := rfl
@[simp] theorem State.fillBuffer_freeCtr (i : Nat) (src : List Byte) : (s.fillBuffer i src).freeCtr = s.freeCtr := rfl

@[simp] theorem State.absorbFit_params (src : List Byte) : (s.absorbFit src).params = s.params := rfl
@[simp] theorem State.absorbFit_hash (src : List Byte) : (s.absorbFit src).hash = s.hash := rfl
@[simp] theorem State.absorbFit_mb (src : List Byte) : (s.absorbFit src).mb = splice s.mb s.mlen src := rfl
@[simp] theorem State.absorbFit_mlen (src : List Byte) : (s.absorbFit src).mlen = s.mlen + src.length := rfl
@[simp] theorem State.absorbFit_reached (src : List Byte) : (s.absorbFit src).reached = s.reached := rfl
@[simp] theorem State.absorbFit_fsm (src : List Byte) : (s.absorbFit src).fsm = s.fsm := rfl
@[simp] theorem State.absorbFit_cfg (src : List Byte) : (s.absorbFit src).cfg = s.cfg := rfl
@[simp] theorem State.absorbFit_cmd (src : List Byte) : (s.absorbFit src).cmd = s.cmd := rfl
@[simp] theorem State.absorbFit_argOff (src : List Byte) : (s.absorbFit src).argOff = s.argOff := rfl
@[simp] theorem State.absorbFit_argLen (src : List Byte) : (s.absorbFit src).argLen = s.argLen := rfl
@[simp] theorem State.absorbFit_latch (src : List Byte) : (s.absorbFit src).latch = s.latch := rfl
@[simp] theorem State.absorbFit_busy (src : List Byte) : (s.absorbFit src).busy = s.busy := rfl
@[simp] theorem State.absorbFit_demoted (src : List Byte) : (s.absorbFit src).demoted = s.demoted := rfl
@[simp] theorem State.absorbFit_lastErr (src : List Byte) : (s.absorbFit src).lastErr = s.lastErr := rfl
@[simp] theorem State.absorbFit_errSticky (src : List Byte) : (s.absorbFit src).errSticky = s.errSticky := rfl
@[simp] theorem State.absorbFit_mem (src : List Byte) : (s.absorbFit src).mem = s.mem := rfl
@[simp] theorem State.absorbFit_agenda (src : List Byte) : (s.absorbFit src).agenda = s.agenda := rfl
@[simp] theorem State.absorbFit_reads (src : List Byte) : (s.absorbFit src).reads = s.reads := rfl
@[simp] theorem State.absorbFit_epoch (src : List Byte) : (s.absorbFit src).epoch = s.epoch := rfl
@[simp] theorem State.absorbFit_freeCtr (src : List Byte) : (s.absorbFit src).freeCtr = s.freeCtr := rfl

@[simp] theorem State.keepRest_params (rest : List Byte) : (s.keepRest rest).params = s.params := rfl
@[simp] theorem State.keepRest_hash (rest : List Byte) : (s.keepRest rest).hash = s.hash := rfl
@[simp] theorem State.keepRest_mb (rest : List Byte) : (s.keepRest rest).mb = splice s.mb 0 rest := rfl
@[simp] theorem State.keepRest_mlen (rest : List Byte) : (s.keepRest rest).mlen = rest.length := rfl
@[simp] theorem State.keepRest_reached (rest : List Byte) : (s.keepRest rest).reached = s.reached := rfl
@[simp] theorem State.keepRest_fsm (rest : List Byte) : (s.keepRest rest).fsm = s.fsm := rfl
@[simp] theorem State.keepRest_cfg (rest : List Byte) : (s.keepRest rest).cfg = s.cfg := rfl
@[simp] theorem State.keepRest_cmd (rest : List Byte) : (s.keepRest rest).cmd = s.cmd := rfl
@[simp] theorem State.keepRest_argOff (rest : List Byte) : (s.keepRest rest).argOff = s.argOff := rfl
@[simp] theorem State.keepRest_argLen (rest : List Byte) : (s.keepRest rest).argLen = s.argLen := rfl
@[simp] theorem State.keepRest_latch (rest : List Byte) : (s.keepRest rest).latch = s.latch := rfl
@[simp] theorem State.keepRest_busy (rest : List Byte) : (s.keepRest rest).busy = s.busy := rfl
@[simp] theorem State.keepRest_demoted (rest : List Byte) : (s.keepRest rest).demoted = s.demoted := rfl
@[simp] theorem State.keepRest_lastErr (rest : List Byte) : (s.keepRest rest).lastErr = s.lastErr := rfl
@[simp] theorem State.keepRest_errSticky (rest : List Byte) : (s.keepRest rest).errSticky = s.errSticky := rfl
@[simp] theorem State.keepRest_mem (rest : List Byte) : (s.keepRest rest).mem = s.mem := rfl
@[simp] theorem State.keepRest_agenda (rest : List Byte) : (s.keepRest rest).agenda = s.agenda := rfl
@[simp] theorem State.keepRest_reads (rest : List Byte) : (s.keepRest rest).reads = s.reads := rfl
@[simp] theorem State.keepRest_epoch (rest : List Byte) : (s.keepRest rest).epoch = s.epoch := rfl
@[simp] theorem State.keepRest_freeCtr (rest : List Byte) : (s.keepRest rest).freeCtr = s.freeCtr := rfl

@[simp] theorem State.issue_params (w : Word32) : (s.issue w).params = s.params := rfl
@[simp] theorem State.issue_hash (w : Word32) : (s.issue w).hash = s.hash := rfl
@[simp] theorem State.issue_mb (w : Word32) : (s.issue w).mb = s.mb := rfl
@[simp] theorem State.issue_mlen (w : Word32) : (s.issue w).mlen = s.mlen := rfl
@[simp] theorem State.issue_reached (w : Word32) : (s.issue w).reached = s.reached := rfl
@[simp] theorem State.issue_fsm (w : Word32) : (s.issue w).fsm = s.fsm := rfl
@[simp] theorem State.issue_cfg (w : Word32) : (s.issue w).cfg = s.cfg := rfl
@[simp] theorem State.issue_cmd (w : Word32) : (s.issue w).cmd = w := rfl
@[simp] theorem State.issue_argOff (w : Word32) : (s.issue w).argOff = s.argOff := rfl
@[simp] theorem State.issue_argLen (w : Word32) : (s.issue w).argLen = s.argLen := rfl
@[simp] theorem State.issue_latch (w : Word32) : (s.issue w).latch = ⟨w, s.argOff, s.argLen⟩ := rfl
@[simp] theorem State.issue_busy (w : Word32) : (s.issue w).busy = true := rfl
@[simp] theorem State.issue_demoted (w : Word32) : (s.issue w).demoted = s.demoted := rfl
@[simp] theorem State.issue_lastErr (w : Word32) : (s.issue w).lastErr = s.lastErr := rfl
@[simp] theorem State.issue_errSticky (w : Word32) : (s.issue w).errSticky = s.errSticky := rfl
@[simp] theorem State.issue_mem (w : Word32) : (s.issue w).mem = s.mem := rfl
@[simp] theorem State.issue_agenda (w : Word32) : (s.issue w).agenda = s.agenda := rfl
@[simp] theorem State.issue_reads (w : Word32) : (s.issue w).reads = s.reads := rfl
@[simp] theorem State.issue_epoch (w : Word32) : (s.issue w).epoch = s.epoch := rfl
@[simp] theorem State.issue_freeCtr (w : Word32) : (s.issue w).freeCtr = s.freeCtr := rfl

@[simp] theorem State.storeValue_params (a width : Nat) (v : Word32) : (s.storeValue a width v).params = s.params := rfl
@[simp] theorem State.storeValue_hash (a width : Nat) (v : Word32) : (s.storeValue a width v).hash = s.hash := rfl
@[simp] theorem State.storeValue_mb (a width : Nat) (v : Word32) : (s.storeValue a width v).mb = s.mb := rfl
@[simp] theorem State.storeValue_mlen (a width : Nat) (v : Word32) : (s.storeValue a width v).mlen = s.mlen := rfl
@[simp] theorem State.storeValue_reached (a width : Nat) (v : Word32) : (s.storeValue a width v).reached = s.reached := rfl
@[simp] theorem State.storeValue_fsm (a width : Nat) (v : Word32) : (s.storeValue a width v).fsm = s.fsm := rfl
@[simp] theorem State.storeValue_cfg (a width : Nat) (v : Word32) : (s.storeValue a width v).cfg = s.cfg := rfl
@[simp] theorem State.storeValue_cmd (a width : Nat) (v : Word32) : (s.storeValue a width v).cmd = s.cmd := rfl
@[simp] theorem State.storeValue_argOff (a width : Nat) (v : Word32) : (s.storeValue a width v).argOff = s.argOff := rfl
@[simp] theorem State.storeValue_argLen (a width : Nat) (v : Word32) : (s.storeValue a width v).argLen = s.argLen := rfl
@[simp] theorem State.storeValue_latch (a width : Nat) (v : Word32) : (s.storeValue a width v).latch = s.latch := rfl
@[simp] theorem State.storeValue_busy (a width : Nat) (v : Word32) : (s.storeValue a width v).busy = s.busy := rfl
@[simp] theorem State.storeValue_demoted (a width : Nat) (v : Word32) : (s.storeValue a width v).demoted = s.demoted := rfl
@[simp] theorem State.storeValue_lastErr (a width : Nat) (v : Word32) : (s.storeValue a width v).lastErr = s.lastErr := rfl
@[simp] theorem State.storeValue_errSticky (a width : Nat) (v : Word32) : (s.storeValue a width v).errSticky = s.errSticky := rfl
@[simp] theorem State.storeValue_mem (a width : Nat) (v : Word32) : (s.storeValue a width v).mem = memStoreBytes s.mem a (leBytes width v.toNat) := rfl
@[simp] theorem State.storeValue_agenda (a width : Nat) (v : Word32) : (s.storeValue a width v).agenda = s.agenda := rfl
@[simp] theorem State.storeValue_reads (a width : Nat) (v : Word32) : (s.storeValue a width v).reads = s.reads := rfl
@[simp] theorem State.storeValue_epoch (a width : Nat) (v : Word32) : (s.storeValue a width v).epoch = s.epoch := rfl
@[simp] theorem State.storeValue_freeCtr (a width : Nat) (v : Word32) : (s.storeValue a width v).freeCtr = s.freeCtr := rfl

@[simp] theorem State.setAgenda_params (rest : List Event) : (s.setAgenda rest).params = s.params := rfl
@[simp] theorem State.setAgenda_hash (rest : List Event) : (s.setAgenda rest).hash = s.hash := rfl
@[simp] theorem State.setAgenda_mb (rest : List Event) : (s.setAgenda rest).mb = s.mb := rfl
@[simp] theorem State.setAgenda_mlen (rest : List Event) : (s.setAgenda rest).mlen = s.mlen := rfl
@[simp] theorem State.setAgenda_reached (rest : List Event) : (s.setAgenda rest).reached = s.reached := rfl
@[simp] theorem State.setAgenda_fsm (rest : List Event) : (s.setAgenda rest).fsm = s.fsm := rfl
@[simp] theorem State.setAgenda_cfg (rest : List Event) : (s.setAgenda rest).cfg = s.cfg := rfl
@[simp] theorem State.setAgenda_cmd (rest : List Event) : (s.setAgenda rest).cmd = s.cmd := rfl
@[simp] theorem State.setAgenda_argOff (rest : List Event) : (s.setAgenda rest).argOff = s.argOff := rfl
@[simp] theorem State.setAgenda_argLen (rest : List Event) : (s.setAgenda rest).argLen = s.argLen := rfl
@[simp] theorem State.setAgenda_latch (rest : List Event) : (s.setAgenda rest).latch = s.latch := rfl
@[simp] theorem State.setAgenda_busy (rest : List Event) : (s.setAgenda rest).busy = s.busy := rfl
@[simp] theorem State.setAgenda_demoted (rest : List Event) : (s.setAgenda rest).demoted = s.demoted := rfl
@[simp] theorem State.setAgenda_lastErr (rest : List Event) : (s.setAgenda rest).lastErr = s.lastErr := rfl
@[simp] theorem State.setAgenda_errSticky (rest : List Event) : (s.setAgenda rest).errSticky = s.errSticky := rfl
@[simp] theorem State.setAgenda_mem (rest : List Event) : (s.setAgenda rest).mem = s.mem := rfl
@[simp] theorem State.setAgenda_agenda (rest : List Event) : (s.setAgenda rest).agenda = rest := rfl
@[simp] theorem State.setAgenda_reads (rest : List Event) : (s.setAgenda rest).reads = s.reads := rfl
@[simp] theorem State.setAgenda_epoch (rest : List Event) : (s.setAgenda rest).epoch = s.epoch := rfl
@[simp] theorem State.setAgenda_freeCtr (rest : List Event) : (s.setAgenda rest).freeCtr = s.freeCtr := rfl

@[simp] theorem State.refresh_params : (s.refresh).params = s.params := rfl
@[simp] theorem State.refresh_hash : (s.refresh).hash = s.hash := rfl
@[simp] theorem State.refresh_mb : (s.refresh).mb = s.mb := rfl
@[simp] theorem State.refresh_mlen : (s.refresh).mlen = s.mlen := rfl
@[simp] theorem State.refresh_reached : (s.refresh).reached = s.reached := rfl
@[simp] theorem State.refresh_fsm : (s.refresh).fsm = s.fsm := rfl
@[simp] theorem State.refresh_cfg : (s.refresh).cfg = s.cfg := rfl
@[simp] theorem State.refresh_cmd : (s.refresh).cmd = s.cmd := rfl
@[simp] theorem State.refresh_argOff : (s.refresh).argOff = s.argOff := rfl
@[simp] theorem State.refresh_argLen : (s.refresh).argLen = s.argLen := rfl
@[simp] theorem State.refresh_latch : (s.refresh).latch = s.latch := rfl
@[simp] theorem State.refresh_busy : (s.refresh).busy = s.busy := rfl
@[simp] theorem State.refresh_demoted : (s.refresh).demoted = s.demoted := rfl
@[simp] theorem State.refresh_lastErr : (s.refresh).lastErr = s.lastErr := rfl
@[simp] theorem State.refresh_errSticky : (s.refresh).errSticky = s.errSticky := rfl
@[simp] theorem State.refresh_mem : (s.refresh).mem = s.mem := rfl
@[simp] theorem State.refresh_agenda : (s.refresh).agenda = s.agenda := rfl
@[simp] theorem State.refresh_reads : (s.refresh).reads = s.reads := rfl
@[simp] theorem State.refresh_epoch : (s.refresh).epoch = s.epoch := rfl
@[simp] theorem State.refresh_freeCtr : (s.refresh).freeCtr = s.freeCtr + 1 := rfl

@[simp] theorem State.settle_params : (s.settle).params = s.params := rfl
@[simp] theorem State.settle_hash : (s.settle).hash = withDatapath (freeDatapath s.freeCtr) s.hash := rfl
@[simp] theorem State.settle_mb : (s.settle).mb = s.mb := rfl
@[simp] theorem State.settle_mlen : (s.settle).mlen = s.mlen := rfl
@[simp] theorem State.settle_reached : (s.settle).reached = s.reached := rfl
@[simp] theorem State.settle_fsm : (s.settle).fsm = s.fsm := rfl
@[simp] theorem State.settle_cfg : (s.settle).cfg = s.cfg := rfl
@[simp] theorem State.settle_cmd : (s.settle).cmd = s.cmd := rfl
@[simp] theorem State.settle_argOff : (s.settle).argOff = s.argOff := rfl
@[simp] theorem State.settle_argLen : (s.settle).argLen = s.argLen := rfl
@[simp] theorem State.settle_latch : (s.settle).latch = s.latch := rfl
@[simp] theorem State.settle_busy : (s.settle).busy = s.busy := rfl
@[simp] theorem State.settle_demoted : (s.settle).demoted = s.demoted := rfl
@[simp] theorem State.settle_lastErr : (s.settle).lastErr = s.lastErr := rfl
@[simp] theorem State.settle_errSticky : (s.settle).errSticky = s.errSticky := rfl
@[simp] theorem State.settle_mem : (s.settle).mem = s.mem := rfl
@[simp] theorem State.settle_agenda : (s.settle).agenda = s.agenda := rfl
@[simp] theorem State.settle_reads : (s.settle).reads = s.reads := rfl
@[simp] theorem State.settle_epoch : (s.settle).epoch = s.epoch := rfl
@[simp] theorem State.settle_freeCtr : (s.settle).freeCtr = s.freeCtr + 1 := rfl

@[simp] theorem onLanes_variant (f : {w : Nat} → Alg w → List (Lane w) → List (Lane w)) (b : HashBank) :
    (onLanes f b).variant = b.variant := by cases b <;> rfl
@[simp] theorem withScratch_variant (f : {w : Nat} → Alg w → Scratch w) (b : HashBank) : (withScratch f b).variant = b.variant := by
  cases b <;> rfl
@[simp] theorem withDatapath_variant (f : {w : Nat} → Alg w → Datapath w) (b : HashBank) : (withDatapath f b).variant = b.variant := by
  cases b <;> rfl
@[simp] theorem clearLanes_variant (b : HashBank) : (clearLanes b).variant = b.variant := by cases b <;> rfl
@[simp] theorem powerOnHash_variant (v : Variant) (p : Params) : (powerOnHash v p).variant = v := by cases v <;> rfl

@[simp] theorem State.raise_variant (e : ErrorKind) : (s.raise e).variant = s.variant := by simp [State.variant]
@[simp] theorem State.raise_parallel (e : ErrorKind) : (s.raise e).parallel = s.parallel := rfl
@[simp] theorem State.raise_laneCount (e : ErrorKind) : (s.raise e).laneCount = s.laneCount := by simp [State.laneCount]
@[simp] theorem State.raise_capacity (e : ErrorKind) : (s.raise e).capacity = s.capacity := by simp [State.capacity]
@[simp] theorem State.complete_variant : (s.complete).variant = s.variant := by simp [State.variant]
@[simp] theorem State.complete_parallel : (s.complete).parallel = s.parallel := rfl
@[simp] theorem State.complete_laneCount : (s.complete).laneCount = s.laneCount := by simp [State.laneCount]
@[simp] theorem State.complete_capacity : (s.complete).capacity = s.capacity := by simp [State.capacity]
@[simp] theorem State.violation_variant : (s.violation).variant = s.variant := by simp [State.variant]
@[simp] theorem State.violation_parallel : (s.violation).parallel = s.parallel := rfl
@[simp] theorem State.violation_laneCount : (s.violation).laneCount = s.laneCount := by simp [State.laneCount]
@[simp] theorem State.violation_capacity : (s.violation).capacity = s.capacity := by simp [State.capacity]
@[simp] theorem State.clearSticky_variant (v : Word32) : (s.clearSticky v).variant = s.variant := by simp [State.variant]
@[simp] theorem State.clearSticky_parallel (v : Word32) : (s.clearSticky v).parallel = s.parallel := rfl
@[simp] theorem State.clearSticky_laneCount (v : Word32) : (s.clearSticky v).laneCount = s.laneCount := by simp [State.laneCount]
@[simp] theorem State.clearSticky_capacity (v : Word32) : (s.clearSticky v).capacity = s.capacity := by simp [State.capacity]
@[simp] theorem State.memWrite_variant (o : Nat) (bs : List Byte) : (s.memWrite o bs).variant = s.variant := by simp [State.variant]
@[simp] theorem State.memWrite_parallel (o : Nat) (bs : List Byte) : (s.memWrite o bs).parallel = s.parallel := rfl
@[simp] theorem State.memWrite_laneCount (o : Nat) (bs : List Byte) : (s.memWrite o bs).laneCount = s.laneCount := by simp [State.laneCount]
@[simp] theorem State.memWrite_capacity (o : Nat) (bs : List Byte) : (s.memWrite o bs).capacity = s.capacity := by simp [State.capacity]
@[simp] theorem State.resetStream_variant : (s.resetStream).variant = s.variant := by simp [State.variant]
@[simp] theorem State.resetStream_parallel : (s.resetStream).parallel = s.parallel := rfl
@[simp] theorem State.resetStream_laneCount : (s.resetStream).laneCount = s.laneCount := by simp [State.laneCount]
@[simp] theorem State.resetStream_capacity : (s.resetStream).capacity = s.capacity := by simp [State.capacity]
@[simp] theorem State.reconfigure_variant (c : TreeParams) : (s.reconfigure c).variant = s.variant := by simp [State.variant]
@[simp] theorem State.erase_variant : (s.erase).variant = s.variant := by simp [State.variant]
@[simp] theorem State.erase_parallel : (s.erase).parallel = s.parallel := rfl
@[simp] theorem State.erase_laneCount : (s.erase).laneCount = s.laneCount := by simp [State.laneCount]
@[simp] theorem State.erase_capacity : (s.erase).capacity = s.capacity := by simp [State.capacity]
@[simp] theorem State.dispatch_variant (seg : List Byte) : (s.dispatch seg).variant = s.variant := by simp [State.variant]
@[simp] theorem State.dispatch_parallel (seg : List Byte) : (s.dispatch seg).parallel = s.parallel := rfl
@[simp] theorem State.dispatch_laneCount (seg : List Byte) : (s.dispatch seg).laneCount = s.laneCount := by simp [State.laneCount]
@[simp] theorem State.dispatch_capacity (seg : List Byte) : (s.dispatch seg).capacity = s.capacity := by simp [State.capacity]
@[simp] theorem State.compressAt_variant (k : Nat) (blk : List Byte) : (s.compressAt k blk).variant = s.variant := by simp [State.variant]
@[simp] theorem State.compressAt_parallel (k : Nat) (blk : List Byte) : (s.compressAt k blk).parallel = s.parallel := rfl
@[simp] theorem State.compressAt_laneCount (k : Nat) (blk : List Byte) : (s.compressAt k blk).laneCount = s.laneCount := by simp [State.laneCount]
@[simp] theorem State.compressAt_capacity (k : Nat) (blk : List Byte) : (s.compressAt k blk).capacity = s.capacity := by simp [State.capacity]
@[simp] theorem State.fillBuffer_variant (i : Nat) (src : List Byte) : (s.fillBuffer i src).variant = s.variant := by simp [State.variant]
@[simp] theorem State.fillBuffer_parallel (i : Nat) (src : List Byte) : (s.fillBuffer i src).parallel = s.parallel := rfl
@[simp] theorem State.fillBuffer_laneCount (i : Nat) (src : List Byte) : (s.fillBuffer i src).laneCount = s.laneCount := by simp [State.laneCount]
@[simp] theorem State.fillBuffer_capacity (i : Nat) (src : List Byte) : (s.fillBuffer i src).capacity = s.capacity := by simp [State.capacity]
@[simp] theorem State.absorbFit_variant (src : List Byte) : (s.absorbFit src).variant = s.variant := by simp [State.variant]
@[simp] theorem State.absorbFit_parallel (src : List Byte) : (s.absorbFit src).parallel = s.parallel := rfl
@[simp] theorem State.absorbFit_laneCount (src : List Byte) : (s.absorbFit src).laneCount = s.laneCount := by simp [State.laneCount]
@[simp] theorem State.absorbFit_capacity (src : List Byte) : (s.absorbFit src).capacity = s.capacity := by simp [State.capacity]
@[simp] theorem State.keepRest_variant (rest : List Byte) : (s.keepRest rest).variant = s.variant := by simp [State.variant]
@[simp] theorem State.keepRest_parallel (rest : List Byte) : (s.keepRest rest).parallel = s.parallel := rfl
@[simp] theorem State.keepRest_laneCount (rest : List Byte) : (s.keepRest rest).laneCount = s.laneCount := by simp [State.laneCount]
@[simp] theorem State.keepRest_capacity (rest : List Byte) : (s.keepRest rest).capacity = s.capacity := by simp [State.capacity]
@[simp] theorem State.startBuffering_variant : (s.startBuffering).variant = s.variant := by simp [State.variant]
@[simp] theorem State.startBuffering_parallel : (s.startBuffering).parallel = s.parallel := rfl
@[simp] theorem State.startBuffering_laneCount : (s.startBuffering).laneCount = s.laneCount := by simp [State.laneCount]
@[simp] theorem State.startBuffering_capacity : (s.startBuffering).capacity = s.capacity := by simp [State.capacity]
@[simp] theorem State.issue_variant (w : Word32) : (s.issue w).variant = s.variant := by simp [State.variant]
@[simp] theorem State.issue_parallel (w : Word32) : (s.issue w).parallel = s.parallel := rfl
@[simp] theorem State.issue_laneCount (w : Word32) : (s.issue w).laneCount = s.laneCount := by simp [State.laneCount]
@[simp] theorem State.issue_capacity (w : Word32) : (s.issue w).capacity = s.capacity := by simp [State.capacity]
@[simp] theorem State.storeValue_variant (a width : Nat) (v : Word32) : (s.storeValue a width v).variant = s.variant := by simp [State.variant]
@[simp] theorem State.storeValue_parallel (a width : Nat) (v : Word32) : (s.storeValue a width v).parallel = s.parallel := rfl
@[simp] theorem State.storeValue_laneCount (a width : Nat) (v : Word32) : (s.storeValue a width v).laneCount = s.laneCount := by simp [State.laneCount]
@[simp] theorem State.storeValue_capacity (a width : Nat) (v : Word32) : (s.storeValue a width v).capacity = s.capacity := by simp [State.capacity]
@[simp] theorem State.setAgenda_variant (rest : List Event) : (s.setAgenda rest).variant = s.variant := by simp [State.variant]
@[simp] theorem State.setAgenda_parallel (rest : List Event) : (s.setAgenda rest).parallel = s.parallel := rfl
@[simp] theorem State.setAgenda_laneCount (rest : List Event) : (s.setAgenda rest).laneCount = s.laneCount := by simp [State.laneCount]
@[simp] theorem State.setAgenda_capacity (rest : List Event) : (s.setAgenda rest).capacity = s.capacity := by simp [State.capacity]
@[simp] theorem State.refresh_variant : (s.refresh).variant = s.variant := by simp [State.variant]
@[simp] theorem State.refresh_parallel : (s.refresh).parallel = s.parallel := rfl
@[simp] theorem State.refresh_laneCount : (s.refresh).laneCount = s.laneCount := by simp [State.laneCount]
@[simp] theorem State.refresh_capacity : (s.refresh).capacity = s.capacity := by simp [State.capacity]
@[simp] theorem State.settle_variant : (s.settle).variant = s.variant := by simp [State.variant]
@[simp] theorem State.settle_parallel : (s.settle).parallel = s.parallel := rfl
@[simp] theorem State.settle_laneCount : (s.settle).laneCount = s.laneCount := by simp [State.laneCount]
@[simp] theorem State.settle_capacity : (s.settle).capacity = s.capacity := by simp [State.capacity]

end Sys2Proof.Machine
end

