-- ==== Sys2Proof/Laws/Memory.lean ====
section
/-! SUPPORT. The laws of the window memory: what a lookup sees after a store, that stores keep the canonical form and the mapped
addresses, and what the zeroed windows hold. -/

namespace Sys2Proof.Machine

open Sys2Proof

/-- A store is seen at its address and nowhere else. -/
theorem memLookup_memStore (m : Memory) (a : Nat) (b : Byte) (x : Nat) :
    memLookup (memStore m a b) x = if x = a then some b else memLookup m x := by
  induction m with
  | nil => simp [memStore, memLookup]
  | cons c m ih =>
    obtain ⟨y, v⟩ := c
    simp only [memStore]
    split
    · simp [memLookup]
    · split
      · subst a; by_cases h : x = y <;> simp [memLookup, h]
      · by_cases h : x = y
        · subst x
          have : y ≠ a := fun e => by omega
          simp [memLookup, this]
        · simp [memLookup, h, ih]

/-- A byte sequence is seen in its range, byte by byte, and nowhere else. -/
theorem memLookup_memStoreBytes (bs : List Byte) (m : Memory) (a x : Nat) :
    memLookup (memStoreBytes m a bs) x = if a ≤ x ∧ x < a + bs.length then some (bs.getD (x - a) 0) else memLookup m x := by
  induction bs generalizing m a with
  | nil => simp only [memStoreBytes, List.length_nil]; rw [if_neg (by omega)]
  | cons b bs ih =>
    simp only [memStoreBytes, ih, memLookup_memStore, List.length_cons]
    by_cases h : x = a
    · subst x
      simp
    · by_cases h' : a + 1 ≤ x ∧ x < a + 1 + bs.length
      · have e : x - a = (x - (a + 1)) + 1 := by omega
        rw [if_pos h', if_pos (by omega), e]
        simp
      · rw [if_neg h', if_neg h, if_neg (by omega)]

/-- A stored cell is the new one or an old one. -/
theorem mem_memStore {m : Memory} {a : Nat} {b : Byte} {c : Host.Cell} (h : c ∈ memStore m a b) : c = (a, b) ∨ c ∈ m := by
  induction m with
  | nil => simpa [memStore] using h
  | cons d m ih =>
    obtain ⟨y, v⟩ := d
    simp only [memStore] at h
    split at h
    · simpa using h
    · split at h
      · subst a
        rcases List.mem_cons.1 h with h | h
        · exact .inl h
        · exact .inr (List.mem_cons_of_mem _ h)
      · rcases List.mem_cons.1 h with h | h
        · exact .inr (by simp [h])
        · rcases ih h with h | h
          · exact .inl h
          · exact .inr (List.mem_cons_of_mem _ h)

/-- A store keeps the addresses strictly rising. -/
theorem memStore_wf {m : Memory} (hm : Memory.wf m) (a : Nat) (b : Byte) : Memory.wf (memStore m a b) := by
  induction m with
  | nil => simp [memStore]
  | cons d m ih =>
    obtain ⟨y, v⟩ := d
    rw [Memory.wf, List.pairwise_cons] at hm
    simp only [memStore]
    split
    · rename_i h
      refine List.pairwise_cons.2 ⟨fun c hc => ?_, List.pairwise_cons.2 hm⟩
      rcases List.mem_cons.1 hc with rfl | hc
      · exact h
      · exact Nat.lt_trans h (hm.1 c hc)
    · split
      · rename_i h h'
        subst a
        exact List.pairwise_cons.2 ⟨hm.1, hm.2⟩
      · rename_i h h'
        refine List.pairwise_cons.2 ⟨fun c hc => ?_, ih hm.2⟩
        rcases mem_memStore hc with rfl | hc
        · show y < a; omega
        · exact hm.1 c hc

theorem memStoreBytes_wf {m : Memory} (hm : Memory.wf m) (a : Nat) (bs : List Byte) : Memory.wf (memStoreBytes m a bs) := by
  induction bs generalizing m a with
  | nil => exact hm
  | cons b bs ih => exact ih (memStore_wf hm a b) (a + 1)

/-- A cell after a sequence store is an old one or lies in the stored range. -/
theorem mem_memStoreBytes {bs : List Byte} {m : Memory} {a : Nat} {c : Host.Cell} (h : c ∈ memStoreBytes m a bs) :
    (a ≤ c.1 ∧ c.1 < a + bs.length) ∨ c ∈ m := by
  induction bs generalizing m a with
  | nil => exact .inr h
  | cons b bs ih =>
    rcases ih h with h | h
    · left; simp only [List.length_cons]; omega
    · rcases mem_memStore h with rfl | h
      · left; simp
      · exact .inr h

theorem memLookup_map_zero (base n x : Nat) :
    memLookup ((List.range n).map (fun i => (base + i, 0#8))) x = if base ≤ x ∧ x < base + n then some 0#8 else none := by
  have key : ∀ l : List Nat, memLookup (l.map (fun i => (base + i, 0#8))) x = if ∃ i ∈ l, x = base + i then some 0#8 else none := by
    intro l
    induction l with
    | nil => simp [memLookup]
    | cons i l ih => by_cases h : x = base + i <;> simp [memLookup, h, ih]
  rw [key]
  congr 1
  simp only [List.mem_range, eq_iff_iff]
  constructor
  · rintro ⟨i, hi, rfl⟩; omega
  · rintro ⟨h, h'⟩; exact ⟨x - base, by omega, by omega⟩

theorem memLookup_append (m m' : Memory) (x : Nat) :
    memLookup (m ++ m') x = (memLookup m x).or (memLookup m' x) := by
  induction m with
  | nil => simp [memLookup]
  | cons d m ih =>
    obtain ⟨y, v⟩ := d
    by_cases h : x = y <;> simp [memLookup, h, ih]

/-- Both windows hold zeros, and nothing else is listed. -/
theorem memLookup_zeroWindows (p : Params) (x : Nat) :
    memLookup (zeroWindows p) x =
      if (inBase ≤ x ∧ x < inBase + p.inSize) ∨ (outBase ≤ x ∧ x < outBase + p.outSize) then some 0#8 else none := by
  rw [zeroWindows, memLookup_append, memLookup_map_zero, memLookup_map_zero]
  by_cases h : inBase ≤ x ∧ x < inBase + p.inSize <;> by_cases h' : outBase ≤ x ∧ x < outBase + p.outSize <;> simp [h, h']

theorem mem_zeroWindows {p : Params} {c : Host.Cell} (h : c ∈ zeroWindows p) :
    (inBase ≤ c.1 ∧ c.1 < inBase + p.inSize) ∨ (outBase ≤ c.1 ∧ c.1 < outBase + p.outSize) := by
  simp only [zeroWindows, List.mem_append, List.mem_map, List.mem_range] at h
  rcases h with ⟨i, hi, rfl⟩ | ⟨i, hi, rfl⟩
  · left; exact ⟨Nat.le_add_right .., by simpa using hi⟩
  · right; exact ⟨Nat.le_add_right .., by simpa using hi⟩

theorem pairwise_map_add (base n : Nat) : Memory.wf ((List.range n).map (fun i => (base + i, 0#8))) := by
  rw [Memory.wf, List.pairwise_map]
  exact List.pairwise_lt_range.imp (fun h => by simpa using h)

theorem zeroWindows_wf {p : Params} (h : p.inSize ≤ 65536) : Memory.wf (zeroWindows p) := by
  refine List.pairwise_append.2 ⟨pairwise_map_add .., pairwise_map_add .., ?_⟩
  simp only [List.mem_map, List.mem_range]
  rintro _ ⟨i, hi, rfl⟩ _ ⟨j, hj, rfl⟩
  show inBase + i < outBase + j
  simp only [inBase, outBase]
  omega

/-- What a byte reads as after a store into OUTMEM. -/
theorem State.byteAt_memWrite (s : State) (o : Nat) (bs : List Byte) (a : Nat) :
    (s.memWrite o bs).byteAt a =
      if outBase + o ≤ a ∧ a < outBase + o + bs.length then bs.getD (a - (outBase + o)) 0 else s.byteAt a := by
  simp only [State.byteAt, State.memWrite_mem, State.memWrite_epoch, memLookup_memStoreBytes]
  split <;> rfl

/-- What a byte reads as after a host store. -/
theorem State.byteAt_storeValue (s : State) (x width : Nat) (v : Word32) (a : Nat) :
    (s.storeValue x width v).byteAt a =
      if x ≤ a ∧ a < x + (leBytes width v.toNat).length then (leBytes width v.toNat).getD (a - x) 0 else s.byteAt a := by
  simp only [State.byteAt, State.storeValue_mem, State.storeValue_epoch, memLookup_memStoreBytes]
  split <;> rfl

/-- A byte depends on the memory and the reset count alone. -/
theorem State.byteAt_congr {s t : State} (hm : t.mem = s.mem) (he : t.epoch = s.epoch) (a : Nat) : t.byteAt a = s.byteAt a := by
  simp [State.byteAt, hm, he]

end Sys2Proof.Machine
end

