-- ==== Sys2Proof/Laws/Bus.lean ====
section
/-! SUPPORT. The bus: where an access lands, and what an access can change. -/

namespace Sys2Proof.Machine

open Sys2Proof Sys2Proof.Safety

/-- An access names a register exactly when it is a whole, aligned word below 0x40. -/
theorem targetOf_reg {p : Params} {a width r : Nat} :
    targetOf p a width = some (.reg r) ↔ r = a ∧ width = 4 ∧ a % 4 = 0 ∧ a + 4 ≤ 0x40 := by
  simp only [targetOf, wellFormedAccess, inWindow]
  constructor
  · intro h
    split at h
    · cases h
    rename_i hw
    split at h
    · split at h
      · rename_i h4
        cases h
        subst h4
        exact ⟨rfl, rfl, (not_not.1 hw).2, by assumption⟩
      · cases h
    · split at h <;> cases h
  · rintro ⟨rfl, rfl, h, h'⟩
    rw [if_neg (by simp [h]), if_pos h', if_pos rfl]

/-- An access names window bytes exactly when it is aligned and lies in one window. -/
theorem targetOf_window {p : Params} {a width b : Nat} :
    targetOf p a width = some (.window b) ↔ b = a ∧ (width = 1 ∨ width = 2 ∨ width = 4) ∧ a % width = 0 ∧ inWindow p a width := by
  simp only [targetOf, wellFormedAccess]
  constructor
  · intro h
    split at h
    · cases h
    rename_i hw
    split at h
    · split at h <;> cases h
    · split at h
      · rename_i hi
        cases h
        exact ⟨rfl, (not_not.1 hw).1, (not_not.1 hw).2, hi⟩
      · cases h
  · rintro ⟨rfl, h, h', hi⟩
    have : ¬ b + width ≤ 0x40 := by simp only [inWindow, inBase, outBase] at hi; omega
    rw [if_neg (not_not.2 ⟨h, h'⟩), if_neg this, if_pos hi]

/-- A read is answered exactly when it is admitted (spec/20_memory.md R83 to R85). -/
theorem State.readValue_isSome (s : State) (a width : Nat) : (s.readValue a width).isSome = true ↔ ReadAdmitted s.params a width := by
  simp only [State.readValue, ReadAdmitted]
  cases h : targetOf s.params a width with
  | none =>
    simp only [Option.isSome_none, Bool.false_eq_true, false_iff]
    rintro (⟨h1, h2, h3⟩ | ⟨h1, h2, h3⟩)
    · subst h1
      rw [targetOf_reg.2 ⟨rfl, rfl, h2, by omega⟩] at h; cases h
    · rw [targetOf_window.2 ⟨rfl, h1, h2, h3⟩] at h; cases h
  | some t =>
    cases t with
    | reg r =>
      obtain ⟨rfl, rfl, h1, h2⟩ := targetOf_reg.1 h
      simp only [readableReg]
      split <;> simp <;> omega
    | window b =>
      obtain ⟨rfl, h1, h2, h3⟩ := targetOf_window.1 h
      simp only [Option.isSome_some, true_iff]
      exact .inr ⟨h1, h2, h3⟩

/-- A read changes what the host has read and, if refused, HOSTVIOL. -/
theorem State.hostRead_eq (s : State) (a : Word32) (width : Nat) :
    s.hostRead a width = { s with reads := (s.hostRead a width).reads, errSticky := (s.hostRead a width).errSticky } := by
  simp only [State.hostRead]; split <;> rfl

/-- A write changes the host registers, the latch, BUSY, ERR_STICKY or the windows, and the count of free values. -/
theorem State.hostWrite_eq (s : State) (a : Word32) (width : Nat) (v : Word32) :
    s.hostWrite a width v =
      { s with
        cmd := (s.hostWrite a width v).cmd, argOff := (s.hostWrite a width v).argOff, argLen := (s.hostWrite a width v).argLen,
        latch := (s.hostWrite a width v).latch, busy := (s.hostWrite a width v).busy, errSticky := (s.hostWrite a width v).errSticky,
        mem := (s.hostWrite a width v).mem, freeCtr := s.freeCtr + 1 } := by
  simp only [State.hostWrite, State.writeEffect, State.regWrite]
  repeat' split
  all_goals rfl

end Sys2Proof.Machine
end

