-- ==== Sys2Proof/Laws/Codec.lean ====
section
/-! SUPPORT. The laws of byte order and of byte sequences: lengths, single bytes, and that the two directions are inverse. -/

namespace Sys2Proof.Machine

open Sys2Proof

@[simp] theorem zeros_length (n : Nat) : (zeros n).length = n := by simp [zeros]

@[simp] theorem beBytes_length (n x : Nat) : (beBytes n x).length = n := by
  induction n with
  | zero => rfl
  | succ n ih => simp [beBytes, ih]

@[simp] theorem leBytes_length (n x : Nat) : (leBytes n x).length = n := by
  induction n generalizing x with
  | zero => rfl
  | succ n ih => simp [leBytes, ih]

@[simp] theorem serWord_length {w : Nat} (x : BitVec w) : (serWord x).length = w / 8 := by simp [serWord]

@[simp] theorem serWords_length {w : Nat} (x : Words w) : (serWords x).length = 8 * (w / 8) := by
  simp only [serWords, Words.toList, List.flatMap_cons, List.flatMap_nil, List.length_append, serWord_length, List.length_nil]
  omega

theorem slice_length (s : List Byte) (i n : Nat) : (slice s i n).length = min n (s.length - i) := by simp [slice]

theorem slice_append_left {a b : List Byte} {i n : Nat} (h : i + n ≤ a.length) : slice (a ++ b) i n = slice a i n := by
  rw [slice, slice, List.drop_append_of_le_length (by omega), List.take_append_of_le_length (by simp; omega)]

theorem slice_drop (s : List Byte) (i j n : Nat) : slice (s.drop j) i n = slice s (j + i) n := by simp [slice, List.drop_drop]

theorem slice_take {s : List Byte} {i n m : Nat} (h : i + n ≤ m) : slice (s.take m) i n = slice s i n := by
  simp only [slice, List.drop_take, List.take_take]
  rw [Nat.min_eq_left (by omega)]

/-- Overwriting inside a sequence keeps its length. -/
theorem splice_length {s new : List Byte} {i : Nat} (h : i + new.length ≤ s.length) : (splice s i new).length = s.length := by
  simp only [splice, List.length_append, List.length_take, List.length_drop]
  omega

/-- After overwriting, what stands before and at the place. -/
theorem splice_take {s new : List Byte} {i : Nat} (h : i ≤ s.length) : (splice s i new).take (i + new.length) = s.take i ++ new := by
  rw [splice, List.take_append_of_le_length (by simp; omega), List.take_of_length_le (by simp)]

/-- After overwriting, what stands behind the place. -/
theorem splice_drop {s new : List Byte} {i : Nat} (h : i + new.length ≤ s.length) :
    (splice s i new).drop (i + new.length) = s.drop (i + new.length) := by
  rw [splice, List.drop_append, List.drop_of_length_le (by simp)]
  have e : i + new.length - (s.take i ++ new).length = 0 := by simp; omega
  rw [e, List.nil_append, List.drop_zero]

/-- Byte j of a little-endian sequence. -/
theorem leBytes_getD (n x j : Nat) (h : j < n) : (leBytes n x).getD j 0 = BitVec.ofNat 8 (x >>> (8 * j)) := by
  induction n generalizing x j with
  | zero => omega
  | succ n ih =>
    cases j with
    | zero => simp [leBytes]
    | succ j =>
      have := ih (x >>> 8) j (by omega)
      simp only [List.getD_eq_getElem?_getD] at this ⊢
      simp only [leBytes, List.getElem?_cons_succ, this, ← Nat.shiftRight_add]
      congr 2
      omega

/-- A number below 256^n comes back from its little-endian bytes. -/
theorem leNat_leBytes (n x : Nat) : leNat (leBytes n x) = x % 256 ^ n := by
  induction n generalizing x with
  | zero => simp [leBytes, leNat, Nat.mod_one]
  | succ n ih =>
    simp only [leBytes, leNat, ih, BitVec.toNat_ofNat, Nat.shiftRight_eq_div_pow]
    exact ((congrArg (x % ·) (Nat.pow_succ' (m := 256) (n := n))).trans Nat.mod_mul).symm

theorem leNat_lt (s : List Byte) : leNat s < 256 ^ s.length := by
  induction s with
  | nil => simp [leNat]
  | cons x s ih =>
    simp only [leNat, List.length_cons, Nat.pow_succ']
    have := x.isLt
    omega

/-- Bytes come back from the number they spell. -/
theorem leBytes_leNat (s : List Byte) : leBytes s.length (leNat s) = s := by
  induction s with
  | nil => rfl
  | cons x s ih =>
    have hx := x.isLt
    simp only [List.length_cons, leBytes, leNat]
    congr 1
    · apply BitVec.eq_of_toNat_eq
      simp only [BitVec.toNat_ofNat]
      omega
    · rw [Nat.shiftRight_eq_div_pow]
      have : (x.toNat + 256 * leNat s) / 2 ^ 8 = leNat s := by omega
      rw [this, ih]

/-- The number little-endian bytes spell is the sum of the bytes at their weights (spec/20_memory.md R82). -/
theorem leNat_map_range (f : Nat → Byte) (n : Nat) :
    leNat ((List.range n).map f) = ((List.range n).map (fun j => (f j).toNat * 2 ^ (8 * j))).sum := by
  induction n generalizing f with
  | zero => simp [leNat]
  | succ n ih =>
    rw [List.range_succ_eq_map, List.map_cons, List.map_map, List.map_cons, List.map_map, leNat, ih]
    simp only [List.sum_cons, Function.comp_def]
    have : ∀ l : List Nat, 256 * (l.map (fun j => (f (j + 1)).toNat * 2 ^ (8 * j))).sum =
        (l.map (fun j => (f (j + 1)).toNat * 2 ^ (8 * (j + 1)))).sum := by
      intro l
      induction l with
      | nil => simp
      | cons a l ih =>
        simp only [List.map_cons, List.sum_cons, Nat.mul_add, ih]
        congr 1
        ring
    simp only [Nat.succ_eq_add_one]
    rw [this]
    simp

/-- Big-endian bytes of a sum of a high and a low part. -/
theorem beBytes_append (m n x : Nat) : beBytes (m + n) x = beBytes m (x >>> (8 * n)) ++ beBytes n x := by
  induction m with
  | zero => simp [beBytes]
  | succ m ih =>
    have : m + 1 + n = (m + n) + 1 := by omega
    rw [this, beBytes, ih, beBytes, List.cons_append, ← Nat.shiftRight_add]
    congr 3
    omega

/-- The last n bytes see a number mod 256^n only. -/
theorem beBytes_mod (n x m : Nat) (h : n ≤ m) : beBytes n (x % 256 ^ m) = beBytes n x := by
  induction n with
  | zero => rfl
  | succ n ih =>
    rw [beBytes, beBytes, ih (by omega)]
    congr 1
    apply BitVec.eq_of_toNat_eq
    simp only [BitVec.toNat_ofNat, Nat.shiftRight_eq_div_pow]
    have e : (256 : Nat) ^ m = 2 ^ (8 * n) * (2 ^ 8 * 2 ^ (8 * (m - n - 1))) := by
      rw [← Nat.pow_add, ← Nat.pow_add, show (256 : Nat) = 2 ^ 8 from rfl, ← Nat.pow_mul]
      congr 1
      omega
    rw [e, Nat.mod_mul_right_div_self, Nat.mod_mul_right_mod]

end Sys2Proof.Machine
end

