-- ==== Sys2Proof/Laws/Exec.lean ====
section
/-! SUPPORT. What exec can do, said once: a command either raises its first error or completes with its effect. With it the field
equations of the streaming operations, and what effects keep. -/

namespace Sys2Proof.Machine

open Sys2Proof Sys2Proof.Safety

/-- What a command does to the state when no check fails, before LAST_ERR and BUSY are written. -/
def effect (i : Instr) (s : State) : State :=
  match i with
  | .nop => s
  | .reset => s.resetStream
  | .update => s.absorb (s.memRead s.offset s.length)
  | .finalize => s.writeDigest.resetStream
  | .compress k => s.compressAt k (s.memRead s.offset (blockBytes s.variant))
  | .loadhdr => s.reconfigure (s.headerAt s.offset)
  | .storehdr => s.memWrite s.offset (headerBytes s.cfg)
  | .setdeg n => s.reconfigure (withDegree s.cfg n)
  | .readlane k => s.memWrite s.offset (s.laneImageAt k)
  | .wipe => s.erase

theorem outRange_iff (s : State) (o n : Nat) : s.outRange o n ↔ ¬ s.params.outSize < o + n := by
  simp only [State.outRange]; omega

/-- The model's check of a configuration is the list of R332 (spec/43_config_control.md). -/
theorem legalConfig_iff {v : Variant} {p : Params} {c : TreeParams} : LegalConfig v p c ↔ ValidConfig v p c := by
  have h0 : c.treeDepth = 0 ↔ c.treeDepth.toNat = 0 := BitVec.toNat_eq
  have h1 : c.treeDepth = 1 ↔ c.treeDepth.toNat = 1 := BitVec.toNat_eq
  have h2 : c.treeDepth = 2 ↔ c.treeDepth.toNat = 2 := BitVec.toNat_eq
  have hp : c.parallelDegree = 1 ↔ c.parallelDegree.toNat = 1 := BitVec.toNat_eq
  have he : c.parallelDegree.getLsbD 0 = false ↔ c.parallelDegree.toNat % 2 = 0 := by simp [BitVec.getLsbD]
  have hd : c.digestLength = (if v = .sha256 then 32#8 else 64#8) ↔ c.digestLength.toNat = digestBytes v := by
    rw [BitVec.toNat_eq]; cases v <;> rfl
  have hi : (if v = .sha256 then 4 else 2) = interleave v := by cases v <;> rfl
  simp only [LegalConfig, ValidConfig, hi, hd, hp, he, h0, h1, h2, Nat.dvd_iff_mod_eq_zero]
  constructor
  · rintro ⟨a, b, c1, c2, d, e, f, g⟩
    exact ⟨by omega, b, ⟨c1, c2⟩, d, fun h => e (by omega), f, g⟩
  · rintro ⟨a, b, ⟨c1, c2⟩, d, e, f, g⟩
    exact ⟨by omega, b, c1, c2, d, fun h => e (by omega), f, g⟩

/-- The model's error codes are the numbers of R381 (spec/60_exceptions.md). -/
theorem reportedCode_eq (e : ErrorKind) : reportedCode e = errorCode e := by cases e <;> rfl

/-- How a command ends, given the error it reports, if any. -/
def outcomeOf (i : Instr) (s : State) : Option ErrorKind → Host.Outcome State Fault Refusal
  | some e => .next (s.raise e)
  | none => .next (effect i s).complete

theorem outcomeOf_ite (i : Instr) (s : State) (c : Prop) [Decidable c] (x y : Option ErrorKind) :
    outcomeOf i s (if c then x else y) = if c then outcomeOf i s x else outcomeOf i s y := apply_ite ..

/-- The inversion of exec: the first error, or the effect. -/
theorem exec_eq (i : Instr) (s : State) : exec i s = outcomeOf i s (firstError i s) := by
  cases i <;>
    simp only [exec, firstError, execNop, execReset, execUpdate, execFinalize, execCompress, execLoadhdr, execStorehdr,
      execSetdeg, execReadlane, execWipe, outRange_iff, State.inRange, State.laneExists, State.headerAt, badDegree, legalConfig_iff, Nat.not_le,
      Nat.not_lt, outcomeOf_ite] <;>
    rfl

/-- A command that answers next has raised or completed. -/
theorem exec_next {i : Instr} {s t : State} (h : exec i s = .next t) :
    (∃ e, firstError i s = some e ∧ t = s.raise e) ∨ (firstError i s = none ∧ t = (effect i s).complete) := by
  rw [exec_eq] at h
  cases hf : firstError i s with
  | none => rw [hf] at h; cases h; exact .inr ⟨rfl, rfl⟩
  | some e => rw [hf] at h; cases h; exact .inl ⟨e, rfl, rfl⟩

theorem exec_of_error {i : Instr} {s : State} {e : ErrorKind} (h : firstError i s = some e) : exec i s = .next (s.raise e) := by
  rw [exec_eq, h]; rfl

theorem exec_of_ok {i : Instr} {s : State} (h : firstError i s = none) : exec i s = .next (effect i s).complete := by
  rw [exec_eq, h]; rfl

/-- Every command answers a next state. -/
theorem exec_total (i : Instr) (s : State) : ∃ t, exec i s = .next t := by
  rw [exec_eq]; cases firstError i s <;> exact ⟨_, rfl⟩

/-- The error kinds a command can raise all have codes 1 to 7. -/
theorem firstError_code {i : Instr} {s : State} {e : ErrorKind} (h : firstError i s = some e) :
    1 ≤ errorCode e ∧ errorCode e ≤ 7 := by
  cases i <;> simp only [firstError] at h <;> (repeat' split at h) <;> simp at h <;> subst h <;> simp [errorCode]

end Sys2Proof.Machine
end

