-- ==== Sys2Proof/Laws/Lanes.lean ====
section
/-! SUPPORT. The lane file as an indexed map: what a dispatch, a compression and a reset do to lane k, and the relations that statements
about lane files use. -/

namespace Sys2Proof.Machine

open Sys2Proof Sys2Proof.Safety

theorem mapIdx_keep {α : Type} (l : List α) : l.mapIdx (fun _ x => x) = l := by
  apply List.ext_getElem?
  simp

/-- Apply a function of the lane and its index to every lane. -/
def mapBank (f : {w : Nat} → Alg w → Nat → Lane w → Lane w) (b : HashBank) : HashBank :=
  onLanes (fun A lanes => lanes.mapIdx (f A)) b

@[simp] theorem mapBank_variant (f : {w : Nat} → Alg w → Nat → Lane w → Lane w) (b : HashBank) : (mapBank f b).variant = b.variant := by
  simp [mapBank]

/-- Two passes over the lanes are one. -/
theorem mapBank_mapBank (f g : {w : Nat} → Alg w → Nat → Lane w → Lane w) (b : HashBank) :
    mapBank f (mapBank g b) = mapBank (fun A k l => f A k (g A k l)) b := by
  cases b <;> simp [mapBank, onLanes, List.mapIdx_mapIdx, Function.comp_def]

/-- Two passes that agree lane by lane are equal; only the instance's own constants matter. -/
theorem mapBank_congr {f g : {w : Nat} → Alg w → Nat → Lane w → Lane w} {b : HashBank}
    (h : ∀ {w : Nat} (A : Alg w) (k : Nat) (l : Lane w), A.variant = b.variant → f A k l = g A k l) : mapBank f b = mapBank g b := by
  cases b with
  | sha256 u => simp only [mapBank, onLanes]; congr 3; funext k l; exact h _ _ _ rfl
  | sha512 u => simp only [mapBank, onLanes]; congr 3; funext k l; exact h _ _ _ rfl

theorem mapBank_id (b : HashBank) : mapBank (fun _ _ l => l) b = b := by
  cases b <;> simp [mapBank, onLanes, mapIdx_keep]

/-- A pass over the lanes relates the two files lane by lane. -/
theorem lanesRelated_mapBank {R : {w : Nat} → Alg w → Nat → Lane w → Lane w → Prop} {f : {w : Nat} → Alg w → Nat → Lane w → Lane w}
    {b : HashBank} (h : ∀ {w : Nat} (A : Alg w) (k : Nat) (l : Lane w), A.variant = b.variant → R A k l (f A k l)) :
    lanesRelated R b (mapBank f b) := by
  cases b with
  | sha256 u =>
    refine ⟨by simp, fun k l l' hl hl' => ?_⟩
    simp only [List.getElem?_mapIdx, hl, Option.map_some, Option.some.injEq] at hl'
    exact hl' ▸ h _ _ _ rfl
  | sha512 u =>
    refine ⟨by simp, fun k l l' hl hl' => ?_⟩
    simp only [List.getElem?_mapIdx, hl, Option.map_some, Option.some.injEq] at hl'
    exact hl' ▸ h _ _ _ rfl

/-- A property of every lane after a pass, from what the pass does to each lane. -/
theorem everyLane_mapBank {P : {w : Nat} → Alg w → Nat → Lane w → Prop} {f : {w : Nat} → Alg w → Nat → Lane w → Lane w}
    {b : HashBank} : everyLane P (mapBank f b) ↔ everyLane (fun A k l => P A k (f A k l)) b := by
  cases b <;>
    simp only [everyLane, mapBank, onLanes, List.getElem?_mapIdx, Option.map_eq_some_iff] <;>
    exact ⟨fun h k l hl => h k _ ⟨l, hl, rfl⟩, fun h k l ⟨x, hx, e⟩ => e ▸ h k x hx⟩

theorem everyLane_imp {P Q : {w : Nat} → Alg w → Nat → Lane w → Prop} {b : HashBank} (hb : everyLane P b)
    (h : ∀ {w : Nat} (A : Alg w) (k : Nat) (l : Lane w), A.variant = b.variant → P A k l → Q A k l) : everyLane Q b := by
  cases b with
  | sha256 u => exact fun k l hl => h _ _ _ rfl (hb k l hl)
  | sha512 u => exact fun k l hl => h _ _ _ rfl (hb k l hl)

@[simp] theorem laneFileSize_mapBank (f : {w : Nat} → Alg w → Nat → Lane w → Lane w) (b : HashBank) :
    laneFileSize (mapBank f b) = laneFileSize b := by
  cases b <;> simp [laneFileSize, fromLanes, mapBank, onLanes]

@[simp] theorem hiddenParts_mapBank (f : {w : Nat} → Alg w → Nat → Lane w → Lane w) (b : HashBank) :
    hiddenParts (mapBank f b) = hiddenParts b := by
  cases b <;> simp [hiddenParts, mapBank, onLanes]

@[simp] theorem datapathShaped_mapBank (f : {w : Nat} → Alg w → Nat → Lane w → Lane w) (b : HashBank) :
    datapathShaped (mapBank f b) ↔ datapathShaped b := by
  cases b <;> simp [datapathShaped, mapBank, onLanes]

/-- Resetting every lane, as a pass. -/
theorem onLanes_init (b : HashBank) :
    onLanes (fun A lanes => lanes.map (fun _ => initLane A)) b = mapBank (fun A _ _ => initLane A) b := by
  cases b <;> simp [mapBank, onLanes, List.mapIdx_eq_zipIdx_map, List.map_const']

/-- Clearing every lane, as a pass. -/
theorem clearLanes_eq (b : HashBank) : clearLanes b = mapBank (fun {w} _ _ _ => clearLane w) b := by
  cases b <;> simp [clearLanes, mapBank, onLanes, List.mapIdx_eq_zipIdx_map, List.map_const']

/-- Lane k after a dispatch: its block of the segment, if it is one of the first n. -/
theorem dispatchLanes_eq {w : Nat} (A : Alg w) (n : Nat) (seg : List Byte) (lanes : List (Lane w)) :
    dispatchLanes A n seg lanes = lanes.mapIdx (fun k l =>
      if k < n then compressLane A l (slice seg (k * blockBytes A.variant) (blockBytes A.variant)) else l) := by
  induction n generalizing seg lanes with
  | zero => simp [dispatchLanes, mapIdx_keep]
  | succ n ih =>
    cases lanes with
    | nil => simp [dispatchLanes]
    | cons l lanes =>
      simp only [dispatchLanes, ih, List.mapIdx_cons, slice_drop, Nat.zero_lt_succ, if_true, Nat.zero_mul, Nat.add_lt_add_iff_right]
      congr 1
      congr 1
      funext k x
      rw [Nat.add_mul, Nat.one_mul, Nat.add_comm (blockBytes A.variant)]

/-- One lane compressed, as a pass. -/
theorem modify_eq_mapIdx {α : Type} (f : α → α) (k : Nat) (l : List α) :
    l.modify k f = l.mapIdx (fun j x => if j = k then f x else x) := by
  apply List.ext_getElem?
  intro j
  rw [List.getElem?_modify, List.getElem?_mapIdx]
  by_cases h : k = j <;> simp [h, eq_comm]

theorem State.dispatch_hash_eq (s : State) (seg : List Byte) :
    (s.dispatch seg).hash = mapBank (fun A k l =>
      if k < s.laneCount then compressLane A l (slice seg (k * blockBytes A.variant) (blockBytes A.variant)) else l) s.hash := by
  simp only [State.dispatch_hash, mapBank, dispatchLanes_eq]

theorem State.compressAt_hash_eq (s : State) (k : Nat) (blk : List Byte) :
    (s.compressAt k blk).hash = mapBank (fun A j l => if j = k then compressLane A l blk else l) s.hash := by
  simp only [State.compressAt_hash, mapBank, modify_eq_mapIdx]

theorem laneFileSize_withDatapath (f : {w : Nat} → Alg w → Datapath w) (b : HashBank) :
    laneFileSize (withDatapath f b) = laneFileSize b := by cases b <;> rfl

theorem laneFileSize_withScratch (f : {w : Nat} → Alg w → Scratch w) (b : HashBank) :
    laneFileSize (withScratch f b) = laneFileSize b := by cases b <;> rfl

theorem everyLane_withDatapath {P : {w : Nat} → Alg w → Nat → Lane w → Prop} (f : {w : Nat} → Alg w → Datapath w) (b : HashBank) :
    everyLane P (withDatapath f b) ↔ everyLane P b := by cases b <;> rfl

theorem everyLane_withScratch {P : {w : Nat} → Alg w → Nat → Lane w → Prop} (f : {w : Nat} → Alg w → Scratch w) (b : HashBank) :
    everyLane P (withScratch f b) ↔ everyLane P b := by cases b <;> rfl

theorem datapathShaped_withScratch (f : {w : Nat} → Alg w → Scratch w) (b : HashBank) :
    datapathShaped (withScratch f b) ↔ datapathShaped b := by cases b <;> rfl

/-- The free datapath has its shape, t below ROUNDS (spec/10_state.md R32). -/
theorem datapathShaped_free (c : Nat) (b : HashBank) : datapathShaped (withDatapath (freeDatapath c) b) := by
  cases b <;> simp [withDatapath, datapathShaped, freeDatapath] <;> exact Nat.mod_lt _ (by decide)

/-- Lane k of a lane file after a pass. -/
theorem laneAt_mapIdx {w : Nat} (A : Alg w) (lanes : List (Lane w)) (f : Nat → Lane w → Lane w) {k : Nat} (h : k < lanes.length) :
    laneAt A (lanes.mapIdx f) k = f k (laneAt A lanes k) := by
  simp [laneAt, List.getD_eq_getElem?_getD, h]

/-- The lane hashes, index by index: lane k finishes with its part of the tail (spec/42_tree.md R286). -/
theorem laneHashes_eq {w : Nat} (A : Alg w) (n : Nat) (tail : List Byte) (lanes : List (Lane w)) (h : n ≤ lanes.length) :
    laneHashes A n tail lanes =
      (List.range n).map (fun k => laneFinal A (laneAt A lanes k) (slice tail (k * blockBytes A.variant) (blockBytes A.variant))) := by
  induction n generalizing tail lanes with
  | zero => rfl
  | succ n ih =>
    cases lanes with
    | nil => simp at h
    | cons l lanes =>
      simp only [List.length_cons, Nat.add_le_add_iff_right] at h
      rw [laneHashes, ih _ _ h, List.range_succ_eq_map, List.map_cons, List.map_map]
      congr 1
      · simp [laneAt, slice]
      · apply List.map_congr_left
        intro k _
        simp only [Function.comp, slice_drop, laneAt, List.getD_cons_succ]
        congr 2
        simp [Nat.succ_mul]; omega

/-- A digest has D bytes. -/
theorem State.digest_length (s : State) : s.digest.length = digestBytes s.variant := by
  have hh : ∀ {w : Nat} (A : Alg w) (m : List Byte), (hashOf A m).length = 8 * (w / 8) := by
    intros; simp [hashOf, finishMessage, laneFinal]
  simp only [State.digest, State.treeFinal, State.seqFinal, State.variant]
  cases s.hash <;> simp only [fromLanes, reduceHashes, depth1, depth2] <;> split <;> (try split) <;>
    simp [hh, finishMessage, laneFinal, HashBank.variant, digestBytes]

@[simp] theorem headerBytes_length (c : TreeParams) : (headerBytes c).length = 16 := by simp [headerBytes]

/-- READLANE writes D + 16 bytes. -/
theorem State.laneImageAt_length (s : State) (k : Nat) : (s.laneImageAt k).length = digestBytes s.variant + 16 := by
  simp only [State.laneImageAt, State.variant]
  cases s.hash <;> simp [fromLanes, laneImage, HashBank.variant, digestBytes]

end Sys2Proof.Machine
end

