-- ==== Sys2Proof/Laws/Digest.lean ====
section
/-! SUPPORT. One lane's arithmetic: its byte counter, its length field, and that finishing a lane after whole blocks is
hashing the whole padded message, of the blocks and the tail. -/

namespace Sys2Proof.Machine

open Sys2Proof Sys2Proof.Safety

/-- The relations among the constants of one variant (spec/00_scope.md R2). -/
theorem length_lt_block (v : Variant) : lengthBytes v + 1 ≤ blockBytes v := by cases v <;> decide
theorem block_pos (v : Variant) : 0 < blockBytes v := by cases v <;> decide
theorem block_eq (v : Variant) : blockBytes v = 2 * digestBytes v := by cases v <;> decide

/-- Increase, for any count that fits a limb: TOTAL grows mod 2^125, CNT_LO stays below 2^61. -/
theorem increaseLane_total {w : Nat} {l : Lane w} {n : Nat} (hl : l.cntLo.toNat < 2 ^ 61) (hn : n < 2 ^ 62) :
    laneTotal (increaseLane l n) = (laneTotal l + n) % 2 ^ 125 ∧ (increaseLane l n).cntLo.toNat < 2 ^ 61 := by
  have hh := And.intro l.cntHi.isLt (And.intro hl hn)
  simp only [laneTotal, increaseLane, BitVec.toNat_add, BitVec.toNat_ofNat]
  omega

theorem laneTotal_initLane {w : Nat} (A : Alg w) : laneTotal (initLane A) = 0 := by simp [laneTotal, initLane]

theorem compressLane_total {w : Nat} (A : Alg w) {l : Lane w} (blk : List Byte) (hl : l.cntLo.toNat < 2 ^ 61) :
    laneTotal (compressLane A l blk) = (laneTotal l + blockBytes A.variant) % 2 ^ 125 ∧
      (compressLane A l blk).cntLo.toNat < 2 ^ 61 := by
  have h : blockBytes A.variant < 2 ^ 62 := by cases A.variant <;> decide
  exact increaseLane_total (l := { l with words := transform A l.words blk }) hl h

@[simp] theorem compressLane_words {w : Nat} (A : Alg w) (l : Lane w) (blk : List Byte) :
    (compressLane A l blk).words = transform A l.words blk := rfl

/-- The words of a compressed lane depend on the words alone. -/
theorem padLane_words_congr {w : Nat} (A : Alg w) (field : List Byte) {l l' : Lane w} (h : l.words = l'.words) (tail : List Byte) :
    (padLane A field l tail).words = (padLane A field l' tail).words := by
  simp only [padLane]; split <;> simp [h]

/-- A lane's digest depends on its words and on the length field. -/
theorem laneFinal_eq_of_lt {w : Nat} (A : Alg w) (l : Lane w) {tail : List Byte} (h : tail.length ≠ blockBytes A.variant) :
    laneFinal A l tail = serWords (padLane A (lengthField A l tail) l tail).words := by
  simp only [laneFinal, finishLane, if_neg h]

/-- The length field of a lane sees TOTAL mod 2^125 only. -/
theorem lengthField_eq {w : Nat} (A : Alg w) (l l' : Lane w) (t t' : List Byte)
    (h : (laneTotal l + t.length) % 2 ^ 125 = (laneTotal l' + t'.length) % 2 ^ 125) : lengthField A l t = lengthField A l' t' := by
  have e : ∀ v x, beBytes (lengthBytes v) (8 * (x % 2 ^ 125)) = beBytes (lengthBytes v) (8 * x) := by
    intro v x
    have : 8 * (x % 2 ^ 125) = 8 * x % 256 ^ 16 := by omega
    rw [this, beBytes_mod]
    cases v <;> decide
  rw [lengthField, lengthField, ← e, h, e]

/-- A full tail is a message block: finishing with it is compressing it and finishing with an empty tail
(spec/41_streaming.md R226, R230). -/
theorem laneFinal_full {w : Nat} (A : Alg w) {l : Lane w} {tail : List Byte} (hl : l.cntLo.toNat < 2 ^ 61)
    (h : tail.length = blockBytes A.variant) : laneFinal A l tail = laneFinal A (compressLane A l tail) [] := by
  have hB := block_pos A.variant
  rw [laneFinal_eq_of_lt A (tail := []) _ hB.ne]
  simp only [laneFinal, finishLane, if_pos h]
  rw [lengthField_eq A l (compressLane A l tail) tail []]
  rw [(compressLane_total A tail hl).1, h]
  simp

/-- Whole blocks compressed one after the other. -/
def compressAll {w : Nat} (A : Alg w) (l : Lane w) (blocks : List (List Byte)) : Lane w := blocks.foldl (compressLane A) l

theorem compressAll_words {w : Nat} (A : Alg w) (l : Lane w) (blocks : List (List Byte)) :
    (compressAll A l blocks).words = blocks.foldl (transform A) l.words := by
  induction blocks generalizing l with
  | nil => rfl
  | cons b bs ih => exact ih _

theorem compressAll_total {w : Nat} (A : Alg w) {l : Lane w} (blocks : List (List Byte)) (hl : l.cntLo.toNat < 2 ^ 61) :
    laneTotal (compressAll A l blocks) % 2 ^ 125 = (laneTotal l + blocks.length * blockBytes A.variant) % 2 ^ 125 ∧
      (compressAll A l blocks).cntLo.toNat < 2 ^ 61 := by
  induction blocks generalizing l with
  | nil => exact ⟨by simp [compressAll], hl⟩
  | cons b bs ih =>
    have h := compressLane_total A b hl
    obtain ⟨h1, h2⟩ := ih h.2
    refine ⟨?_, h2⟩
    show laneTotal (compressAll A (compressLane A l b) bs) % 2 ^ 125 = _
    rw [h1, h.1, List.length_cons, Nat.add_mul, Nat.one_mul]
    omega

/-- A padded message cut into its blocks. -/
def blocksOf (B : Nat) (s : List Byte) : List (List Byte) := (List.range (s.length / B)).map (fun i => slice s (i * B) B)

theorem blocksOf_cons {B : Nat} {b s : List Byte} (hB : 0 < B) (h : b.length = B) : blocksOf B (b ++ s) = b :: blocksOf B s := by
  have e : (b ++ s).length / B = s.length / B + 1 := by
    rw [List.length_append, h, Nat.add_comm, Nat.add_div_right _ hB]
  rw [blocksOf, e, List.range_succ_eq_map, List.map_cons, List.map_map, blocksOf]
  congr 1
  · simp [slice, ← h]
  · apply List.map_congr_left
    intro i _
    simp only [Function.comp_apply, Nat.succ_eq_add_one, slice]
    rw [Nat.add_mul, Nat.one_mul, ← h, Nat.add_comm, List.drop_append, List.drop_of_length_le (by omega)]
    simp

theorem blocksOf_nil (B : Nat) : blocksOf B [] = [] := by simp [blocksOf]

theorem blocksOf_flatten {B : Nat} (hB : 0 < B) (bs : List (List Byte)) (h : ∀ b ∈ bs, b.length = B) (s : List Byte) :
    blocksOf B (bs.flatten ++ s) = bs ++ blocksOf B s := by
  induction bs with
  | nil => rfl
  | cons b bs ih =>
    rw [List.flatten_cons, List.append_assoc, blocksOf_cons hB (h b (by simp)), ih (fun b hb => h b (by simp [hb])), List.cons_append]

theorem flatten_length {B : Nat} (bs : List (List Byte)) (h : ∀ b ∈ bs, b.length = B) : bs.flatten.length = bs.length * B := by
  induction bs with
  | nil => simp
  | cons b bs ih =>
    rw [List.flatten_cons, List.length_append, h b (by simp), ih (fun b hb => h b (by simp [hb])), List.length_cons, Nat.add_mul]
    omega

/-- A whole message padded with the model's own bytes: 0x80, the fewest zeros, the length field. -/
def paddedMessage (v : Variant) (m : List Byte) : List Byte :=
  m ++ [0x80#8] ++ zeros ((blockBytes v - (m.length + 1 + lengthBytes v) % blockBytes v) % blockBytes v) ++
    beBytes (lengthBytes v) (8 * m.length)

/-- The model's transform over a whole padded message, block after block from IV. -/
def paddedDigest {w : Nat} (A : Alg w) (m : List Byte) : List Byte :=
  serWords ((blocksOf (blockBytes A.variant) (paddedMessage A.variant m)).foldl (transform A) A.iv)

/-- The padded form of whole blocks and a shorter tail: the blocks, then the one or two blocks padLane compresses. -/
theorem paddedMessage_blocks (v : Variant) {bs : List (List Byte)} {tail : List Byte} (hbs : ∀ b ∈ bs, b.length = blockBytes v)
    (ht : tail.length < blockBytes v) :
    blocksOf (blockBytes v) (paddedMessage v (bs.flatten ++ tail)) = bs ++
      (if blockBytes v - lengthBytes v < tail.length + 1 then
        [tail ++ [0x80#8] ++ zeros (blockBytes v - tail.length - 1),
          zeros (blockBytes v - lengthBytes v) ++ beBytes (lengthBytes v) (8 * (bs.flatten ++ tail).length)]
      else
        [(tail ++ [0x80#8] ++ zeros (blockBytes v - tail.length - 1)).take (blockBytes v - lengthBytes v) ++
          beBytes (lengthBytes v) (8 * (bs.flatten ++ tail).length)]) := by
  have hB := block_pos v
  have hL := length_lt_block v
  have hlen : (bs.flatten ++ tail).length = bs.length * blockBytes v + tail.length := by
    rw [List.length_append, flatten_length bs hbs]
  have hmod : ((bs.flatten ++ tail).length + 1 + lengthBytes v) % blockBytes v = (tail.length + 1 + lengthBytes v) % blockBytes v := by
    rw [hlen, Nat.add_assoc, Nat.add_assoc, Nat.add_comm, Nat.add_mul_mod_self_right, Nat.add_assoc]
  rw [paddedMessage, hmod, List.append_assoc, List.append_assoc, List.append_assoc, blocksOf_flatten hB bs hbs]
  congr 1
  generalize hf : beBytes (lengthBytes v) (8 * (bs.flatten ++ tail).length) = field
  have hfl : field.length = lengthBytes v := by rw [← hf, beBytes_length]
  split
  · rename_i h
    have hz : (blockBytes v - (tail.length + 1 + lengthBytes v) % blockBytes v) % blockBytes v =
        (blockBytes v - tail.length - 1) + (blockBytes v - lengthBytes v) := by
      rw [Nat.mod_eq_sub_mod (a := tail.length + 1 + lengthBytes v) (by omega),
        Nat.mod_eq_of_lt (a := tail.length + 1 + lengthBytes v - blockBytes v) (by omega), Nat.mod_eq_of_lt (by omega)]
      omega
    have e : tail ++ ([0x80#8] ++ (zeros ((blockBytes v - (tail.length + 1 + lengthBytes v) % blockBytes v) % blockBytes v) ++ field)) =
        (tail ++ [0x80#8] ++ zeros (blockBytes v - tail.length - 1)) ++ ((zeros (blockBytes v - lengthBytes v) ++ field) ++ []) := by
      rw [hz]
      simp only [zeros, List.replicate_add, List.append_assoc, List.append_nil]
    rw [e, blocksOf_cons hB (by simp; omega), blocksOf_cons hB (by simp; omega), blocksOf_nil]
  · rename_i h
    have hz : (blockBytes v - (tail.length + 1 + lengthBytes v) % blockBytes v) % blockBytes v =
        blockBytes v - lengthBytes v - (tail.length + 1) := by
      rcases Nat.lt_or_ge (tail.length + 1 + lengthBytes v) (blockBytes v) with h' | h'
      · rw [Nat.mod_eq_of_lt h', Nat.mod_eq_of_lt (by omega)]; omega
      · have : tail.length + 1 + lengthBytes v = blockBytes v := by omega
        rw [this, Nat.mod_self, Nat.sub_zero, Nat.mod_self]; omega
    have e : tail ++ ([0x80#8] ++ (zeros ((blockBytes v - (tail.length + 1 + lengthBytes v) % blockBytes v) % blockBytes v) ++ field)) =
        ((tail ++ [0x80#8] ++ zeros (blockBytes v - tail.length - 1)).take (blockBytes v - lengthBytes v) ++ field) ++ [] := by
      rw [hz, List.take_append, List.take_of_length_le (by simp; omega)]
      simp only [zeros, List.take_replicate, List.append_assoc, List.append_nil, List.length_append, List.length_singleton]
      congr 4
      omega
    rw [e, blocksOf_cons hB (by simp; omega), blocksOf_nil]

/-- Finishing a lane, whatever it had compressed, from a shorter tail: the lane's words run on over the padding blocks. -/
theorem padLane_words {w : Nat} (A : Alg w) (field : List Byte) (l : Lane w) (tail : List Byte) :
    (padLane A field l tail).words =
      (if blockBytes A.variant - lengthBytes A.variant < tail.length + 1 then
        [tail ++ [0x80#8] ++ zeros (blockBytes A.variant - tail.length - 1),
          zeros (blockBytes A.variant - lengthBytes A.variant) ++ field]
      else
        [(tail ++ [0x80#8] ++ zeros (blockBytes A.variant - tail.length - 1)).take (blockBytes A.variant - lengthBytes A.variant) ++
          field]).foldl (transform A) l.words := by
  simp only [padLane]; split <;> simp

/-- LaneFinal after whole blocks on a fresh lane is the whole-message digest of the blocks and the tail, full or not
(spec/41_streaming.md R230, spec/42_tree.md R287). -/
theorem laneFinal_compressAll {w : Nat} (A : Alg w) {bs : List (List Byte)} {tail : List Byte}
    (hbs : ∀ b ∈ bs, b.length = blockBytes A.variant) (ht : tail.length ≤ blockBytes A.variant) :
    laneFinal A (compressAll A (initLane A) bs) tail = paddedDigest A (bs.flatten ++ tail) := by
  have h0 : (initLane A).cntLo.toNat < 2 ^ 61 := by show (0 : Nat) < 2 ^ 61; decide
  have short : ∀ (bs : List (List Byte)) (tail : List Byte), (∀ b ∈ bs, b.length = blockBytes A.variant) →
      tail.length < blockBytes A.variant → laneFinal A (compressAll A (initLane A) bs) tail = paddedDigest A (bs.flatten ++ tail) := by
    intro bs tail hbs ht
    have hT : (laneTotal (compressAll A (initLane A) bs) + tail.length) % 2 ^ 125 = (bs.flatten ++ tail).length % 2 ^ 125 := by
      have h := (compressAll_total A bs h0).1
      rw [laneTotal_initLane] at h
      rw [List.length_append, flatten_length bs hbs]
      omega
    have hfield : lengthField A (compressAll A (initLane A) bs) tail = beBytes (lengthBytes A.variant) (8 * (bs.flatten ++ tail).length) := by
      have := lengthField_eq A (compressAll A (initLane A) bs) (initLane A) tail (bs.flatten ++ tail)
        (by rw [hT, laneTotal_initLane, Nat.zero_add])
      rw [this, lengthField, laneTotal_initLane, Nat.zero_add]
    rw [laneFinal_eq_of_lt A _ ht.ne, hfield, padLane_words, compressAll_words, paddedDigest, paddedMessage_blocks _ hbs ht, List.foldl_append]
    rfl
  rcases Nat.lt_or_eq_of_le ht with h | h
  · exact short bs tail hbs h
  · rw [laneFinal_full A (compressAll_total A bs h0).2 h]
    have e : compressLane A (compressAll A (initLane A) bs) tail = compressAll A (initLane A) (bs ++ [tail]) := by
      simp [compressAll]
    rw [e, short (bs ++ [tail]) [] (by simpa [or_imp, forall_and, h] using hbs) (by simpa using block_pos _)]
    simp

/-- absorbBlocks takes whole blocks off the front and leaves a tail of at most B bytes. -/
theorem absorbBlocks_spec {w : Nat} (A : Alg w) (fuel : Nat) (l : Lane w) (msg : List Byte) (h : msg.length ≤ fuel) :
    ∃ bs : List (List Byte), (∀ b ∈ bs, b.length = blockBytes A.variant) ∧
      (absorbBlocks A fuel l msg).1 = compressAll A l bs ∧ bs.flatten ++ (absorbBlocks A fuel l msg).2 = msg ∧
      (absorbBlocks A fuel l msg).2.length ≤ blockBytes A.variant := by
  have hB := block_pos A.variant
  induction fuel generalizing l msg with
  | zero => exact ⟨[], by simp, rfl, rfl, by simp [absorbBlocks]; omega⟩
  | succ fuel ih =>
    simp only [absorbBlocks]
    split
    · rename_i hlt
      obtain ⟨bs, h1, h2, h3, h4⟩ := ih (compressLane A l (msg.take (blockBytes A.variant))) (msg.drop (blockBytes A.variant))
        (by simp; omega)
      refine ⟨msg.take (blockBytes A.variant) :: bs, ?_, h2, ?_, h4⟩
      · intro b hb
        rcases List.mem_cons.1 hb with rfl | hb
        · simp; omega
        · exact h1 b hb
      · rw [List.flatten_cons, List.append_assoc, h3, List.take_append_drop]
    · rename_i hge
      exact ⟨[], by simp, rfl, rfl, Nat.le_of_not_lt hge⟩

/-- A message of at most B bytes goes to LaneFinal as it is. -/
theorem finishMessage_short {w : Nat} (A : Alg w) (l : Lane w) {msg : List Byte} (h : msg.length ≤ blockBytes A.variant) :
    finishMessage A l msg = laneFinal A l msg := by
  have : absorbBlocks A msg.length l msg = (l, msg) := by
    cases msg with
    | nil => rfl
    | cons x xs => simp only [List.length_cons, absorbBlocks]; rw [if_neg (by simpa using h)]
  rw [finishMessage, this]

end Sys2Proof.Machine
end

