-- ==== Sys2Proof/Laws/Stream.lean ====
section
/-! SUPPORT. The stream: what flushing segments and absorbing bytes do to the lanes and to the buffer, and what they leave alone. -/

namespace Sys2Proof.Machine

open Sys2Proof Sys2Proof.Safety

/-- A segment's flush writes the lanes and REACHED. -/
theorem State.segment_eq (s : State) (seg : List Byte) :
    s.segment seg = { s with hash := (s.segment seg).hash, reached := s.reached || s.parallel } := by
  simp only [State.segment]
  split
  · rename_i h; simp [State.dispatch, h]
  · rename_i h; simp [State.compressAt, h]

@[simp] theorem State.segment_params (s : State) (seg : List Byte) : (s.segment seg).params = s.params := by rw [State.segment_eq]
@[simp] theorem State.segment_mb (s : State) (seg : List Byte) : (s.segment seg).mb = s.mb := by rw [State.segment_eq]
@[simp] theorem State.segment_mlen (s : State) (seg : List Byte) : (s.segment seg).mlen = s.mlen := by rw [State.segment_eq]
@[simp] theorem State.segment_fsm (s : State) (seg : List Byte) : (s.segment seg).fsm = s.fsm := by rw [State.segment_eq]
@[simp] theorem State.segment_cfg (s : State) (seg : List Byte) : (s.segment seg).cfg = s.cfg := by rw [State.segment_eq]
@[simp] theorem State.segment_cmd (s : State) (seg : List Byte) : (s.segment seg).cmd = s.cmd := by rw [State.segment_eq]
@[simp] theorem State.segment_argOff (s : State) (seg : List Byte) : (s.segment seg).argOff = s.argOff := by rw [State.segment_eq]
@[simp] theorem State.segment_argLen (s : State) (seg : List Byte) : (s.segment seg).argLen = s.argLen := by rw [State.segment_eq]
@[simp] theorem State.segment_latch (s : State) (seg : List Byte) : (s.segment seg).latch = s.latch := by rw [State.segment_eq]
@[simp] theorem State.segment_busy (s : State) (seg : List Byte) : (s.segment seg).busy = s.busy := by rw [State.segment_eq]
@[simp] theorem State.segment_demoted (s : State) (seg : List Byte) : (s.segment seg).demoted = s.demoted := by rw [State.segment_eq]
@[simp] theorem State.segment_lastErr (s : State) (seg : List Byte) : (s.segment seg).lastErr = s.lastErr := by rw [State.segment_eq]
@[simp] theorem State.segment_errSticky (s : State) (seg : List Byte) : (s.segment seg).errSticky = s.errSticky := by rw [State.segment_eq]
@[simp] theorem State.segment_mem (s : State) (seg : List Byte) : (s.segment seg).mem = s.mem := by rw [State.segment_eq]
@[simp] theorem State.segment_agenda (s : State) (seg : List Byte) : (s.segment seg).agenda = s.agenda := by rw [State.segment_eq]
@[simp] theorem State.segment_reads (s : State) (seg : List Byte) : (s.segment seg).reads = s.reads := by rw [State.segment_eq]
@[simp] theorem State.segment_epoch (s : State) (seg : List Byte) : (s.segment seg).epoch = s.epoch := by rw [State.segment_eq]
@[simp] theorem State.segment_freeCtr (s : State) (seg : List Byte) : (s.segment seg).freeCtr = s.freeCtr := by rw [State.segment_eq]
@[simp] theorem State.segment_reached (s : State) (seg : List Byte) : (s.segment seg).reached = (s.reached || s.parallel) := by
  rw [State.segment_eq]
@[simp] theorem State.segment_variant (s : State) (seg : List Byte) : (s.segment seg).variant = s.variant := by
  simp only [State.segment]; split <;> simp
@[simp] theorem State.segment_parallel (s : State) (seg : List Byte) : (s.segment seg).parallel = s.parallel := by
  simp [State.parallel]
@[simp] theorem State.segment_laneCount (s : State) (seg : List Byte) : (s.segment seg).laneCount = s.laneCount := by
  simp [State.laneCount]
@[simp] theorem State.segment_capacity (s : State) (seg : List Byte) : (s.segment seg).capacity = s.capacity := by
  simp [State.capacity]

/-- Flushing n segments writes the lanes and, if there was one, REACHED. -/
theorem State.segments_eq (n : Nat) (src : List Byte) (s : State) :
    State.segments n src s =
      { s with hash := (State.segments n src s).hash, reached := s.reached || (s.parallel && decide (0 < n)) } := by
  induction n generalizing src s with
  | zero => simp [State.segments]
  | succ n ih =>
    rw [State.segments, ih]
    rw [State.segment_eq]
    simp [State.parallel]
    cases s.reached <;> simp
    exact fun h _ => h

@[simp] theorem State.segments_params (n : Nat) (src : List Byte) (s : State) : (State.segments n src s).params = s.params := by rw [State.segments_eq]
@[simp] theorem State.segments_mb (n : Nat) (src : List Byte) (s : State) : (State.segments n src s).mb = s.mb := by rw [State.segments_eq]
@[simp] theorem State.segments_mlen (n : Nat) (src : List Byte) (s : State) : (State.segments n src s).mlen = s.mlen := by rw [State.segments_eq]
@[simp] theorem State.segments_fsm (n : Nat) (src : List Byte) (s : State) : (State.segments n src s).fsm = s.fsm := by rw [State.segments_eq]
@[simp] theorem State.segments_cfg (n : Nat) (src : List Byte) (s : State) : (State.segments n src s).cfg = s.cfg := by rw [State.segments_eq]
@[simp] theorem State.segments_cmd (n : Nat) (src : List Byte) (s : State) : (State.segments n src s).cmd = s.cmd := by rw [State.segments_eq]
@[simp] theorem State.segments_argOff (n : Nat) (src : List Byte) (s : State) : (State.segments n src s).argOff = s.argOff := by rw [State.segments_eq]
@[simp] theorem State.segments_argLen (n : Nat) (src : List Byte) (s : State) : (State.segments n src s).argLen = s.argLen := by rw [State.segments_eq]
@[simp] theorem State.segments_latch (n : Nat) (src : List Byte) (s : State) : (State.segments n src s).latch = s.latch := by rw [State.segments_eq]
@[simp] theorem State.segments_busy (n : Nat) (src : List Byte) (s : State) : (State.segments n src s).busy = s.busy := by rw [State.segments_eq]
@[simp] theorem State.segments_demoted (n : Nat) (src : List Byte) (s : State) : (State.segments n src s).demoted = s.demoted := by rw [State.segments_eq]
@[simp] theorem State.segments_lastErr (n : Nat) (src : List Byte) (s : State) : (State.segments n src s).lastErr = s.lastErr := by rw [State.segments_eq]
@[simp] theorem State.segments_errSticky (n : Nat) (src : List Byte) (s : State) : (State.segments n src s).errSticky = s.errSticky := by rw [State.segments_eq]
@[simp] theorem State.segments_mem (n : Nat) (src : List Byte) (s : State) : (State.segments n src s).mem = s.mem := by rw [State.segments_eq]
@[simp] theorem State.segments_agenda (n : Nat) (src : List Byte) (s : State) : (State.segments n src s).agenda = s.agenda := by rw [State.segments_eq]
@[simp] theorem State.segments_reads (n : Nat) (src : List Byte) (s : State) : (State.segments n src s).reads = s.reads := by rw [State.segments_eq]
@[simp] theorem State.segments_epoch (n : Nat) (src : List Byte) (s : State) : (State.segments n src s).epoch = s.epoch := by rw [State.segments_eq]
@[simp] theorem State.segments_freeCtr (n : Nat) (src : List Byte) (s : State) : (State.segments n src s).freeCtr = s.freeCtr := by rw [State.segments_eq]
@[simp] theorem State.segments_reached (n : Nat) (src : List Byte) (s : State) :
    (State.segments n src s).reached = (s.reached || (s.parallel && decide (0 < n))) := by rw [State.segments_eq]
@[simp] theorem State.segments_variant (n : Nat) (src : List Byte) (s : State) : (State.segments n src s).variant = s.variant := by
  induction n generalizing src s with
  | zero => rfl
  | succ n ih => rw [State.segments, ih, State.segment_variant]
@[simp] theorem State.segments_parallel (n : Nat) (src : List Byte) (s : State) : (State.segments n src s).parallel = s.parallel := by
  simp [State.parallel]
@[simp] theorem State.segments_laneCount (n : Nat) (src : List Byte) (s : State) : (State.segments n src s).laneCount = s.laneCount := by
  simp [State.laneCount]
@[simp] theorem State.segments_capacity (n : Nat) (src : List Byte) (s : State) : (State.segments n src s).capacity = s.capacity := by
  simp [State.capacity]

/-- What q flushed segments of `m` do to lane k: it compresses its block of each, in order (spec/42_tree.md R281). -/
def flushLane (n c q : Nat) (m : List Byte) {w : Nat} (A : Alg w) (k : Nat) (l : Lane w) : Lane w :=
  if k < n then
    (List.range q).foldl (fun x j => compressLane A x (slice m (j * c + k * blockBytes A.variant) (blockBytes A.variant))) l
  else l

theorem flushLane_zero (n c : Nat) (m : List Byte) {w : Nat} (A : Alg w) (k : Nat) (l : Lane w) : flushLane n c 0 m A k l = l := by
  simp [flushLane]

/-- Flushing q segments and then q' of what follows is flushing q + q'. -/
theorem flushLane_add (n c q q' : Nat) (m : List Byte) {w : Nat} (A : Alg w) (k : Nat) (l : Lane w) :
    flushLane n c q' (m.drop (q * c)) A k (flushLane n c q m A k l) = flushLane n c (q + q') m A k l := by
  simp only [flushLane]
  split
  · rw [List.range_add, List.foldl_append, List.foldl_map]
    congr 1
    funext x j
    rw [slice_drop, Nat.add_mul, Nat.add_assoc]
  · rfl

/-- The flush sees the segments only, not what follows them. -/
theorem flushLane_append (n c q : Nat) (m m' : List Byte) {w : Nat} (A : Alg w) (k : Nat) (l : Lane w)
    (hc : n * blockBytes A.variant = c) (h : q * c ≤ m.length) : flushLane n c q (m ++ m') A k l = flushLane n c q m A k l := by
  simp only [flushLane]
  split
  · rename_i hk
    have key : ∀ js : List Nat, (∀ j ∈ js, j < q) → ∀ x : Lane w,
        js.foldl (fun x j => compressLane A x (slice (m ++ m') (j * c + k * blockBytes A.variant) (blockBytes A.variant))) x =
          js.foldl (fun x j => compressLane A x (slice m (j * c + k * blockBytes A.variant) (blockBytes A.variant))) x := by
      intro js
      induction js with
      | nil => intros; rfl
      | cons j js ih =>
        intro hj x
        have h1 : (k + 1) * blockBytes A.variant ≤ c := hc ▸ Nat.mul_le_mul_right _ hk
        have h2 : (j + 1) * c ≤ q * c := Nat.mul_le_mul_right _ (hj j (by simp))
        rw [Nat.add_mul, Nat.one_mul] at h1 h2
        rw [List.foldl_cons, List.foldl_cons, slice_append_left (by omega), ih (fun j hj' => hj j (by simp [hj']))]
    exact key _ (by simp) l
  · rfl

/-- A flush of one segment more. -/
theorem flushLane_succ (n c q : Nat) (m : List Byte) {w : Nat} (A : Alg w) (k : Nat) (l : Lane w) (hk : k < n) :
    flushLane n c (q + 1) m A k l =
      compressLane A (flushLane n c q m A k l) (slice m (q * c + k * blockBytes A.variant) (blockBytes A.variant)) := by
  simp [flushLane, hk, List.range_succ]

/-- Flushing keeps CNT_LO below 2^61. -/
theorem flushLane_count (n c q : Nat) (m : List Byte) {w : Nat} (A : Alg w) (k : Nat) {l : Lane w} (h : l.cntLo.toNat < 2 ^ 61) :
    (flushLane n c q m A k l).cntLo.toNat < 2 ^ 61 := by
  simp only [flushLane]
  split
  · generalize List.range q = js
    induction js generalizing l with
    | nil => exact h
    | cons j js ih => exact ih (compressLane_total A _ h).2
  · exact h

theorem State.capacity_eq {s : State} {w : Nat} {A : Alg w} (h : A.variant = s.hash.variant) :
    s.laneCount * blockBytes A.variant = s.capacity := by rw [h]; rfl

/-- One segment's flush, as a pass over the lanes, in both modes (spec/41_streaming.md R223). -/
theorem State.segment_hash_eq (s : State) {seg : List Byte} (h : s.capacity ≤ seg.length) :
    (s.segment (seg.take s.capacity)).hash = mapBank (flushLane s.laneCount s.capacity 1 seg) s.hash := by
  simp only [State.segment]
  split
  · rw [State.dispatch_hash_eq]
    apply mapBank_congr
    intro w A k l hA
    simp only [flushLane]
    split
    · rename_i hk
      have hc := State.capacity_eq hA
      have h1 : (k + 1) * blockBytes A.variant ≤ s.capacity := hc ▸ Nat.mul_le_mul_right _ hk
      rw [Nat.add_mul, Nat.one_mul] at h1
      simp [List.range_succ, slice_take h1]
    · rfl
  · rename_i hp
    rw [State.compressAt_hash_eq]
    apply mapBank_congr
    intro w A k l hA
    have hc := State.capacity_eq hA
    have hn : s.laneCount = 1 := by simp [State.laneCount, hp]
    rw [hn, Nat.one_mul] at hc
    simp only [flushLane, hn, Nat.lt_one_iff]
    split
    · rename_i hk
      subst k
      simp [List.range_succ, slice, hc]
    · rfl

/-- Any number of whole segments flushed, as one pass over the lanes. -/
theorem State.segments_hash_eq (q : Nat) (m : List Byte) (s : State) (h : q * s.capacity ≤ m.length) :
    (State.segments q m s).hash = mapBank (flushLane s.laneCount s.capacity q m) s.hash := by
  induction q generalizing m s with
  | zero =>
    rw [State.segments]
    rw [mapBank_congr (g := fun _ _ l => l) (fun A k l _ => flushLane_zero ..), mapBank_id]
  | succ q ih =>
    have hq : s.capacity ≤ m.length := Nat.le_trans (Nat.le_mul_of_pos_left _ (Nat.succ_pos q)) h
    rw [Nat.add_mul, Nat.one_mul] at h
    rw [State.segments, ih _ _ (by simp; omega), State.segment_hash_eq s hq, mapBank_mapBank]
    apply mapBank_congr
    intro w A k l _
    rw [State.segment_laneCount, State.segment_capacity]
    have := flushLane_add s.laneCount s.capacity 1 q m A k l
    rw [Nat.one_mul, Nat.add_comm 1] at this
    exact this

@[simp] theorem State.absorb_params (s : State) (src : List Byte) : (s.absorb src).params = s.params := by
  simp only [State.absorb]; split; · rfl
  split <;> simp [State.absorbOverflow]
@[simp] theorem State.absorb_cfg (s : State) (src : List Byte) : (s.absorb src).cfg = s.cfg := by
  simp only [State.absorb]; split; · rfl
  split <;> simp [State.absorbOverflow]
@[simp] theorem State.absorb_cmd (s : State) (src : List Byte) : (s.absorb src).cmd = s.cmd := by
  simp only [State.absorb]; split; · rfl
  split <;> simp [State.absorbOverflow]
@[simp] theorem State.absorb_argOff (s : State) (src : List Byte) : (s.absorb src).argOff = s.argOff := by
  simp only [State.absorb]; split; · rfl
  split <;> simp [State.absorbOverflow]
@[simp] theorem State.absorb_argLen (s : State) (src : List Byte) : (s.absorb src).argLen = s.argLen := by
  simp only [State.absorb]; split; · rfl
  split <;> simp [State.absorbOverflow]
@[simp] theorem State.absorb_latch (s : State) (src : List Byte) : (s.absorb src).latch = s.latch := by
  simp only [State.absorb]; split; · rfl
  split <;> simp [State.absorbOverflow]
@[simp] theorem State.absorb_busy (s : State) (src : List Byte) : (s.absorb src).busy = s.busy := by
  simp only [State.absorb]; split; · rfl
  split <;> simp [State.absorbOverflow]
@[simp] theorem State.absorb_demoted (s : State) (src : List Byte) : (s.absorb src).demoted = s.demoted := by
  simp only [State.absorb]; split; · rfl
  split <;> simp [State.absorbOverflow]
@[simp] theorem State.absorb_lastErr (s : State) (src : List Byte) : (s.absorb src).lastErr = s.lastErr := by
  simp only [State.absorb]; split; · rfl
  split <;> simp [State.absorbOverflow]
@[simp] theorem State.absorb_errSticky (s : State) (src : List Byte) : (s.absorb src).errSticky = s.errSticky := by
  simp only [State.absorb]; split; · rfl
  split <;> simp [State.absorbOverflow]
@[simp] theorem State.absorb_mem (s : State) (src : List Byte) : (s.absorb src).mem = s.mem := by
  simp only [State.absorb]; split; · rfl
  split <;> simp [State.absorbOverflow]
@[simp] theorem State.absorb_agenda (s : State) (src : List Byte) : (s.absorb src).agenda = s.agenda := by
  simp only [State.absorb]; split; · rfl
  split <;> simp [State.absorbOverflow]
@[simp] theorem State.absorb_reads (s : State) (src : List Byte) : (s.absorb src).reads = s.reads := by
  simp only [State.absorb]; split; · rfl
  split <;> simp [State.absorbOverflow]
@[simp] theorem State.absorb_epoch (s : State) (src : List Byte) : (s.absorb src).epoch = s.epoch := by
  simp only [State.absorb]; split; · rfl
  split <;> simp [State.absorbOverflow]
@[simp] theorem State.absorb_freeCtr (s : State) (src : List Byte) : (s.absorb src).freeCtr = s.freeCtr := by
  simp only [State.absorb]; split; · rfl
  split <;> simp [State.absorbOverflow]
@[simp] theorem State.absorb_variant (s : State) (src : List Byte) : (s.absorb src).variant = s.variant := by
  simp only [State.absorb]; split; · rfl
  split <;> simp [State.absorbOverflow]
@[simp] theorem State.absorb_parallel (s : State) (src : List Byte) : (s.absorb src).parallel = s.parallel := by simp [State.parallel]
@[simp] theorem State.absorb_laneCount (s : State) (src : List Byte) : (s.absorb src).laneCount = s.laneCount := by simp [State.laneCount]
@[simp] theorem State.absorb_capacity (s : State) (src : List Byte) : (s.absorb src).capacity = s.capacity := by simp [State.capacity]

/-- Absorbing writes the lanes, the buffer, REACHED and FSM. -/
theorem State.absorb_eq (s : State) (src : List Byte) :
    s.absorb src =
      { s with
        hash := (s.absorb src).hash, mb := (s.absorb src).mb, mlen := (s.absorb src).mlen, reached := (s.absorb src).reached,
        fsm := (s.absorb src).fsm } := by
  apply State.ext <;> simp

/-- The facts about the buffer that absorbing needs: room for C bytes, and at most C held. -/
structure BufferFits (s : State) : Prop where
  room : s.capacity ≤ s.mb.length
  held : s.mlen ≤ s.capacity
  positive : 0 < s.capacity

theorem State.buffered_length {s : State} (h : BufferFits s) : s.buffered.length = s.mlen := by
  have := h.room; have := h.held
  simp [State.buffered]; omega

theorem State.absorb_nil (s : State) : s.absorb [] = s := by simp [State.absorb]

/-- Input that fits is appended to the buffer. -/
theorem State.absorb_fit {s : State} {src : List Byte} (h : BufferFits s) (hs : src ≠ []) (hf : s.mlen + src.length ≤ s.capacity) :
    s.absorb src = { s with fsm := .buffering, mb := splice s.mb s.mlen src, mlen := s.mlen + src.length } ∧
      (s.absorb src).buffered = s.buffered ++ src ∧ (s.absorb src).mb.length = s.mb.length := by
  have hroom := h.room
  have e : s.absorb src = { s with fsm := .buffering, mb := splice s.mb s.mlen src, mlen := s.mlen + src.length } := by
    rw [State.absorb, if_neg hs, if_neg (by omega)]; rfl
  refine ⟨e, ?_, ?_⟩
  · rw [e]; exact splice_take (by omega)
  · rw [e]; exact splice_length (by omega)

/-- Input that overflows: of the buffered bytes and the input, the whole segments are flushed and the rest is held. -/
theorem State.absorb_overflow {s : State} {src : List Byte} (h : BufferFits s) (ho : s.capacity < s.mlen + src.length) :
    let m := s.buffered ++ src
    (s.absorb src).hash = mapBank (flushLane s.laneCount s.capacity (m.length / s.capacity) m) s.hash ∧
      (s.absorb src).buffered = m.drop (m.length / s.capacity * s.capacity) ∧
      (s.absorb src).mlen = m.length % s.capacity ∧ (s.absorb src).mb.length = s.mb.length ∧
      (s.absorb src).reached = (s.reached || s.parallel) ∧ (s.absorb src).fsm = .buffering := by
  have hroom := h.room
  have hheld := h.held
  have hpos := h.positive
  have hbl := State.buffered_length h
  intro m
  have hs : src ≠ [] := by rintro rfl; simp at ho; omega
  have hm : m.length = s.mlen + src.length := by simp [m, hbl]
  -- the first segment: the buffered bytes and the fill
  have htake : (splice s.mb s.mlen (src.take (s.capacity - s.mlen))).take s.capacity = m.take s.capacity := by
    have e := splice_take (s := s.mb) (i := s.mlen) (new := src.take (s.capacity - s.mlen)) (by omega)
    rw [List.length_take, Nat.min_eq_left (by omega), Nat.add_sub_cancel' hheld] at e
    rw [e, List.take_append, hbl, List.take_of_length_le (l := s.buffered) (by omega)]
    rfl
  have hsl : (splice s.mb s.mlen (src.take (s.capacity - s.mlen))).length = s.mb.length :=
    splice_length (by rw [List.length_take]; omega)
  have hrest : src.drop (s.capacity - s.mlen) = m.drop s.capacity := by
    rw [List.drop_append, hbl, List.drop_of_length_le (l := s.buffered) (by omega), List.nil_append]
  have hq : m.length / s.capacity = 1 + (m.length - s.capacity) / s.capacity := by
    rw [Nat.add_comm, ← Nat.add_div_right _ hpos]; congr 1; omega
  have hrl : (m.drop s.capacity).length = m.length - s.capacity := by simp
  have hdm := Nat.div_add_mod (m.length - s.capacity) s.capacity
  rw [Nat.mul_comm] at hdm
  have hml := Nat.mod_lt (m.length - s.capacity) hpos
  have hmod : m.length - s.capacity - (m.length - s.capacity) / s.capacity * s.capacity = m.length % s.capacity := by
    rw [Nat.mod_eq_sub_mod (a := m.length) (by omega)]; omega
  have hdd : (m.drop s.capacity).drop ((m.length - s.capacity) / s.capacity * s.capacity) =
      m.drop (m.length / s.capacity * s.capacity) := by
    rw [List.drop_drop, hq, Nat.add_mul, Nat.one_mul]
  have hdl : ((m.drop s.capacity).drop ((m.length - s.capacity) / s.capacity * s.capacity)).length = m.length % s.capacity := by
    rw [List.length_drop, hrl, hmod]
  have hlt := Nat.mod_lt m.length hpos
  have e : s.absorb src = s.startBuffering.absorbOverflow src := by rw [State.absorb, if_neg hs, if_pos ho]
  have hqc : (m.length - s.capacity) / s.capacity * s.capacity ≤ (m.drop s.capacity).length := by rw [hrl]; omega
  rw [e]
  refine ⟨?_, ?_, ?_, ?_, ?_, ?_⟩
  · simp only [State.absorbOverflow, State.keepRest_hash, State.startBuffering_capacity, State.startBuffering_mlen,
      State.fillBuffer_mb, State.startBuffering_mb, hrest, hrl]
    have h1 := State.segment_hash_eq (s.startBuffering.fillBuffer s.mlen (src.take (s.capacity - s.mlen)))
      (seg := splice s.mb s.mlen (src.take (s.capacity - s.mlen))) (by simp [hsl]; exact hroom)
    simp only [State.fillBuffer_capacity, State.startBuffering_capacity] at h1
    rw [State.segments_hash_eq _ _ _ (by simpa using hqc), h1, mapBank_mapBank]
    simp only [State.segment_capacity, State.segment_laneCount, State.fillBuffer_capacity, State.startBuffering_capacity,
      State.fillBuffer_laneCount, State.startBuffering_laneCount, State.fillBuffer_hash, State.startBuffering_hash]
    apply mapBank_congr
    intro w A k l hA
    have hc := State.capacity_eq hA
    have h2 := flushLane_add s.laneCount s.capacity 1 ((m.length - s.capacity) / s.capacity) m A k l
    rw [Nat.one_mul, ← hq] at h2
    rw [← h2]
    congr 1
    have t1 := flushLane_append s.laneCount s.capacity 1 ((splice s.mb s.mlen (src.take (s.capacity - s.mlen))).take s.capacity)
      ((splice s.mb s.mlen (src.take (s.capacity - s.mlen))).drop s.capacity) A k l hc (by simp [hsl]; exact hroom)
    have t2 := flushLane_append s.laneCount s.capacity 1 (m.take s.capacity) (m.drop s.capacity) A k l hc
      (by simp; omega)
    rw [List.take_append_drop] at t1 t2
    rw [t1, t2, htake]
  · simp only [State.absorbOverflow, State.buffered, State.keepRest_mb, State.keepRest_mlen, State.segments_mb, State.segment_mb,
      State.startBuffering_capacity, State.startBuffering_mlen, State.fillBuffer_mb, State.startBuffering_mb, hrest, hrl, hdd]
    have := splice_take (s := splice s.mb s.mlen (src.take (s.capacity - s.mlen))) (i := 0)
      (new := m.drop (m.length / s.capacity * s.capacity)) (by omega)
    rw [Nat.zero_add] at this
    rw [this]; simp
  · simp only [State.absorbOverflow, State.keepRest_mlen, State.startBuffering_capacity, State.startBuffering_mlen, hrest, hrl, hdl]
  · simp only [State.absorbOverflow, State.keepRest_mb, State.segments_mb, State.segment_mb,
      State.startBuffering_capacity, State.startBuffering_mlen, State.fillBuffer_mb, State.startBuffering_mb, hrest, hrl]
    rw [splice_length (by rw [hdl, hsl]; omega), hsl]
  · simp only [State.absorbOverflow, State.keepRest_reached, State.segments_reached, State.segment_reached, State.segment_parallel]
    simp
    cases s.reached <;> cases s.parallel <;> simp
  · simp [State.absorbOverflow]

/-- Where the stream of `t` stands after absorbing `m` from `s`: of the bytes held at the start followed by `m`, the first q segments are
flushed and the rest is held (spec/41_streaming.md R225). -/
structure Absorbed (s : State) (m : List Byte) (q : Nat) (t : State) : Prop where
  hash : t.hash = mapBank (flushLane s.laneCount s.capacity q (s.buffered ++ m)) s.hash
  held : t.buffered = (s.buffered ++ m).drop (q * s.capacity)
  low : q * s.capacity ≤ s.mlen + m.length
  high : s.mlen + m.length ≤ (q + 1) * s.capacity
  count : t.mlen + q * s.capacity = s.mlen + m.length
  room : t.mb.length = s.mb.length
  reached : t.reached = (s.reached || (s.parallel && decide (0 < q)))
  params : t.params = s.params
  cfg : t.cfg = s.cfg
  fsm : t.fsm = if m = [] then s.fsm else .buffering

theorem Absorbed.variant {s t : State} {m : List Byte} {q : Nat} (a : Absorbed s m q t) : t.variant = s.variant := by
  simp [State.variant, a.hash]

theorem Absorbed.parallel {s t : State} {m : List Byte} {q : Nat} (a : Absorbed s m q t) : t.parallel = s.parallel := by
  simp [State.parallel, a.cfg]

theorem Absorbed.laneCount {s t : State} {m : List Byte} {q : Nat} (a : Absorbed s m q t) : t.laneCount = s.laneCount := by
  simp [State.laneCount, a.cfg, a.variant, a.parallel]

theorem Absorbed.capacity {s t : State} {m : List Byte} {q : Nat} (a : Absorbed s m q t) : t.capacity = s.capacity := by
  simp [State.capacity, a.laneCount, a.variant]

theorem Absorbed.fits {s t : State} {m : List Byte} {q : Nat} (a : Absorbed s m q t) (h : BufferFits s) : BufferFits t := by
  have := a.count
  exact ⟨by rw [a.capacity, a.room]; exact h.room, by rw [a.capacity]; have := a.high; rw [Nat.add_mul] at this; omega,
    by rw [a.capacity]; exact h.positive⟩

/-- Absorbing nothing. -/
theorem Absorbed.refl {s : State} (h : BufferFits s) : Absorbed s [] 0 s where
  hash := by rw [mapBank_congr (g := fun _ _ l => l) (fun A k l _ => flushLane_zero ..), mapBank_id]
  held := by simp
  low := by simp
  high := by simpa using h.held
  count := by simp
  room := rfl
  reached := by simp
  params := rfl
  cfg := rfl
  fsm := rfl

/-- One UPDATE. -/
theorem State.absorb_spec {s : State} (h : BufferFits s) (m : List Byte) : ∃ q, Absorbed s m q (s.absorb m) := by
  have hb := State.buffered_length h
  have hh := h.held
  by_cases h0 : m = []
  · subst h0; exact ⟨0, by rw [State.absorb_nil]; exact Absorbed.refl h⟩
  by_cases hf : s.mlen + m.length ≤ s.capacity
  · obtain ⟨e, hbuf, hlen⟩ := State.absorb_fit h h0 hf
    refine ⟨0, ⟨?_, ?_, ?_, ?_, ?_, hlen, ?_, by simp, by simp, by rw [e, if_neg h0]⟩⟩
    · rw [mapBank_congr (g := fun _ _ l => l) (fun A k l _ => flushLane_zero ..), mapBank_id, e]
    · simpa using hbuf
    · simp
    · simpa using hf
    · rw [e]; simp
    · rw [e]; simp
  · obtain ⟨e1, e2, e3, e4, e5, e6⟩ := State.absorb_overflow h (Nat.lt_of_not_le hf)
    have hm : (s.buffered ++ m).length = s.mlen + m.length := by simp [hb]
    rw [hm] at e1 e2 e3
    have hdm := Nat.div_add_mod (s.mlen + m.length) s.capacity
    have hlt := Nat.mod_lt (s.mlen + m.length) h.positive
    rw [Nat.mul_comm] at hdm
    have hq : 0 < (s.mlen + m.length) / s.capacity := Nat.div_pos (by omega) h.positive
    refine ⟨(s.mlen + m.length) / s.capacity, ⟨e1, e2, by omega, ?_, by omega, e4, ?_, by simp, by simp, by rw [e6, if_neg h0]⟩⟩
    · rw [Nat.add_mul]; omega
    · rw [e5]; simp [hq]

/-- One more UPDATE after some. -/
theorem Absorbed.trans {s t u : State} {m m' : List Byte} {q q' : Nat} (h : BufferFits s) (a : Absorbed s m q t)
    (b : Absorbed t m' q' u) : Absorbed s (m ++ m') (q + q') u := by
  have hb := State.buffered_length h
  have hlen : (s.buffered ++ m).length = s.mlen + m.length := by simp [hb]
  have hM : t.buffered ++ m' = (s.buffered ++ (m ++ m')).drop (q * s.capacity) := by
    rw [a.held, ← List.append_assoc, List.drop_append_of_le_length (l₁ := s.buffered ++ m) (by rw [hlen]; exact a.low)]
  have := a.low; have := a.high; have := a.count
  have b1 := b.low; have b2 := b.high; have b3 := b.count
  rw [a.capacity] at b1 b2 b3
  refine ⟨?_, ?_, ?_, ?_, ?_, b.room.trans a.room, ?_, b.params.trans a.params, b.cfg.trans a.cfg, ?_⟩
  · rw [b.hash, a.hash, mapBank_mapBank, a.laneCount, a.capacity, hM]
    apply mapBank_congr
    intro w A k l hA
    rw [← flushLane_add s.laneCount s.capacity q q', ← List.append_assoc,
      flushLane_append _ _ _ (s.buffered ++ m) m' A k l (State.capacity_eq hA) (by rw [hlen]; exact a.low)]
  · rw [b.held, hM, a.capacity, List.drop_drop, Nat.add_mul]
  · rw [List.length_append, Nat.add_mul]; omega
  · rw [Nat.add_mul] at b2; rw [List.length_append, Nat.add_mul, Nat.add_mul]; omega
  · rw [List.length_append, Nat.add_mul]; omega
  · rw [b.reached, a.reached, a.parallel]
    cases s.reached <;> cases s.parallel <;> simp
  · rw [b.fsm, a.fsm]
    by_cases h1 : m = [] <;> by_cases h2 : m' = [] <;> simp [h1, h2]

/-- Any UPDATEs in a row. -/
theorem State.foldl_absorb_spec {s : State} (h : BufferFits s) (chunks : List (List Byte)) :
    ∃ q, Absorbed s chunks.flatten q (chunks.foldl State.absorb s) := by
  have key : ∀ (cs : List (List Byte)) (t : State) (m : List Byte) (q : Nat), Absorbed s m q t →
      ∃ q, Absorbed s (m ++ cs.flatten) q (cs.foldl State.absorb t) := by
    intro cs
    induction cs with
    | nil => intro t m q a; exact ⟨q, by simpa using a⟩
    | cons c cs ih =>
      intro t m q a
      obtain ⟨q', b⟩ := State.absorb_spec (a.fits h) c
      have := ih _ _ _ (a.trans h b)
      simpa using this
  simpa using key chunks s [] 0 (Absorbed.refl h)

end Sys2Proof.Machine
end

