-- ==== Sys2Proof/Laws/Invariant.lean ====
section
/-! SUPPORT. What a well-formed state gives: the lane count and the buffer's bounds, the states of a fresh stream; and a check that decides
well-formedness of a state written out. -/

namespace Sys2Proof.Machine

open Sys2Proof Sys2Proof.Safety

theorem interleave_pos (v : Variant) : 0 < interleave v := by cases v <;> decide

/-- N lies between 1 and N_MAX when CFG is valid (spec/10_state.md R45, spec/43_config_control.md R332). -/
theorem State.laneCount_bounds {s : State} (h : LegalConfig s.variant s.params s.cfg) :
    1 ≤ s.laneCount ∧ s.laneCount ≤ laneRegisters s.variant s.params := by
  obtain ⟨_, _, _, _, hd, _⟩ := legalConfig_iff.1 h
  simp only [State.laneCount, State.parallel, laneRegisters, decide_eq_true_eq]
  split
  · rename_i hp
    obtain ⟨_, h2, h3⟩ := hd hp
    have := interleave_pos s.variant
    have h4 := Nat.mul_le_mul_right (interleave s.variant) h3
    have h5 := Nat.mul_le_mul h2 this
    omega
  · omega

/-- A property of every lane, from its check over the list of lanes with their indices. -/
theorem everyLane_of_all {P : {w : Nat} → Alg w → Nat → Lane w → Prop} {b : HashBank}
    (h : match b with
      | .sha256 u => ∀ x ∈ u.lanes.zipIdx, P alg256 x.2 x.1
      | .sha512 u => ∀ x ∈ u.lanes.zipIdx, P alg512 x.2 x.1) : everyLane P b := by
  cases b with
  | sha256 u => exact fun k l hl => h (l, k) (List.mk_mem_zipIdx_iff_getElem?.2 hl)
  | sha512 u => exact fun k l hl => h (l, k) (List.mk_mem_zipIdx_iff_getElem?.2 hl)

/-- The lane checks of a well-formed state, on the unit of its variant. -/
def lanesCheck {w : Nat} (A : Alg w) (s : State) (u : HashUnit w) : Bool :=
  u.lanes.length == laneRegisters s.variant s.params && u.lanes.all (fun l => decide (l.cntLo.toNat < 2 ^ 61)) &&
    u.lanes.zipIdx.all (fun x => if s.fsm = .wiped then decide (x.1 = clearLane w) else decide (x.2 < s.laneCount) || decide (x.1 = initLane A)) &&
    u.datapath.window.length == 16 && decide (u.datapath.round < rounds A.variant)

/-- Well-formedness, checked. -/
def invCheck (s : State) : Bool :=
  decide (LegalParams s.variant s.params) &&
    (match s.hash with
      | .sha256 u => lanesCheck alg256 s u
      | .sha512 u => lanesCheck alg512 s u) &&
    s.mb.length == bufferBytes s.variant s.params && decide (s.mlen ≤ s.capacity) &&
    decide (s.fsm ≠ .buffering → s.mlen = 0 ∧ s.reached = false) && decide (s.fsm ≠ .finalizing ∧ s.fsm ≠ .processing) &&
    decide (s.reached = true → s.parallel = true) && decide (LegalConfig s.variant s.params s.cfg) && decide (s.lastErr.toNat ≤ 7) &&
    decide (s.errSticky &&& ~~~raisableMask = 0) && decide (Memory.wf s.mem) && decide (∀ c ∈ s.mem, mapped s.params c.1) &&
    decide (s.busy = true → s.latch = ⟨s.cmd, s.argOff, s.argLen⟩)

/-- A state that passes the check is well-formed. -/
theorem inv_of_check {s : State} (h : invCheck s = true) : Inv s := by
  simp only [invCheck, Bool.and_eq_true, decide_eq_true_eq, beq_iff_eq] at h
  obtain ⟨⟨⟨⟨⟨⟨⟨⟨⟨⟨⟨⟨h1, hl⟩, h2⟩, h3⟩, h4⟩, h5⟩, h6⟩, h7⟩, h8⟩, h9⟩, h10⟩, h11⟩, h12⟩ := h
  have lanes : laneFileSize s.hash = laneRegisters s.variant s.params ∧ everyLane (fun _ _ l => l.cntLo.toNat < 2 ^ 61) s.hash ∧
      (s.fsm ≠ .wiped → everyLane (fun A k l => s.laneCount ≤ k → l = initLane A) s.hash) ∧
      (s.fsm = .wiped → everyLane (fun {w} _ _ l => l = clearLane w) s.hash) ∧ datapathShaped s.hash := by
    cases hh : s.hash with
    | sha256 u =>
      rw [hh] at hl
      simp only [lanesCheck, Bool.and_eq_true, beq_iff_eq, List.all_eq_true, decide_eq_true_eq] at hl
      obtain ⟨⟨⟨⟨l1, l2⟩, l3⟩, l4⟩, l5⟩ := hl
      refine ⟨l1, fun k l hk => l2 l (List.mem_of_getElem? hk), fun hw => everyLane_of_all fun x hx hk => ?_,
        fun hw => everyLane_of_all fun x hx => ?_, l4, l5⟩
      · have := l3 x hx
        rw [if_neg hw] at this
        simpa [Nat.not_lt.2 hk] using this
      · have := l3 x hx
        rw [if_pos hw] at this
        simpa using this
    | sha512 u =>
      rw [hh] at hl
      simp only [lanesCheck, Bool.and_eq_true, beq_iff_eq, List.all_eq_true, decide_eq_true_eq] at hl
      obtain ⟨⟨⟨⟨l1, l2⟩, l3⟩, l4⟩, l5⟩ := hl
      refine ⟨l1, fun k l hk => l2 l (List.mem_of_getElem? hk), fun hw => everyLane_of_all fun x hx hk => ?_,
        fun hw => everyLane_of_all fun x hx => ?_, l4, l5⟩
      · have := l3 x hx
        rw [if_neg hw] at this
        simpa [Nat.not_lt.2 hk] using this
      · have := l3 x hx
        rw [if_pos hw] at this
        simpa using this
  exact ⟨h1, lanes.1, lanes.2.1, lanes.2.2.1, lanes.2.2.2.1, lanes.2.2.2.2, h2, h3, h4, h5, h6, h7, h8, h9, h10, h11, h12⟩

end Sys2Proof.Machine

open Sys2Proof Sys2Proof.Machine Sys2Proof.Safety

/-- A well-formed state's buffer has room for a segment. -/
theorem Sys2Proof.Safety.Inv.fits {s : State} (h : Inv s) : BufferFits s where
  room := by rw [h.buffer]; exact Nat.mul_le_mul_right _ (State.laneCount_bounds h.config).2
  held := h.occupancy
  positive := Nat.mul_pos (State.laneCount_bounds h.config).1 (block_pos _)

/-- On a fresh, well-formed stream nothing is held and nothing was dispatched. -/
theorem Sys2Proof.Safety.Inv.fresh {s : State} (h : Inv s) (hf : s.fsm = .empty) : s.mlen = 0 ∧ s.reached = false :=
  h.unstarted (by simp [hf])
end

