-- ==== Sys2Proof/Laws/PerInstr.lean ====
section
/-! SUPPORT. One law per command of the opcode map: the word of a well-formed command selects the command's own row and no other, and its
fields hold the opcode, the immediate and zeros (spec/30_encoding.md R120, R121, R126). -/

namespace Sys2Proof.Laws.RowMatch

open Sys2Proof

/-- The encoding of a well-formed command has its fields where the rule puts them, and selects exactly its own row. -/
def Statement (i : Instr) : Prop :=
  i.WellFormed →
    fieldOpc (encode i) = opcode i ∧ fieldImm (encode i) = immediate i ∧ fieldRsv (encode i) = 0 ∧
      (opcodeTable.filter (fun r => r.selects (encode i))).map OpcodeRow.mnemonic = [mnemonic i]

/-- A property of the first n numbers, from its check over the list of them. -/
theorem of_range {P : Nat → Prop} (n : Nat) (h : ∀ k ∈ List.range n, P k) (k : Nat) (hk : k < n) : P k :=
  h k (List.mem_range.mpr hk)

theorem nop : Statement .nop := fun _ => by decide +kernel
theorem reset : Statement .reset := fun _ => by decide +kernel
theorem update : Statement .update := fun _ => by decide +kernel
theorem finalize : Statement .finalize := fun _ => by decide +kernel
theorem loadhdr : Statement .loadhdr := fun _ => by decide +kernel
theorem storehdr : Statement .storehdr := fun _ => by decide +kernel
theorem wipe : Statement .wipe := fun _ => by decide +kernel

theorem compress (k : Nat) : Statement (.compress k) := by
  intro h
  refine of_range 256 (P := fun k => fieldOpc (encode (.compress k)) = opcode (.compress k) ∧
    fieldImm (encode (.compress k)) = immediate (.compress k) ∧ fieldRsv (encode (.compress k)) = 0 ∧
      (opcodeTable.filter (fun r => r.selects (encode (.compress k)))).map OpcodeRow.mnemonic = [mnemonic (.compress k)])
    (by decide +kernel) k (of_decide_eq_true h)

theorem setdeg (n : Nat) : Statement (.setdeg n) := by
  intro h
  refine of_range 256 (P := fun n => fieldOpc (encode (.setdeg n)) = opcode (.setdeg n) ∧
    fieldImm (encode (.setdeg n)) = immediate (.setdeg n) ∧ fieldRsv (encode (.setdeg n)) = 0 ∧
      (opcodeTable.filter (fun r => r.selects (encode (.setdeg n)))).map OpcodeRow.mnemonic = [mnemonic (.setdeg n)])
    (by decide +kernel) n (of_decide_eq_true h)

theorem readlane (k : Nat) : Statement (.readlane k) := by
  intro h
  refine of_range 256 (P := fun k => fieldOpc (encode (.readlane k)) = opcode (.readlane k) ∧
    fieldImm (encode (.readlane k)) = immediate (.readlane k) ∧ fieldRsv (encode (.readlane k)) = 0 ∧
      (opcodeTable.filter (fun r => r.selects (encode (.readlane k)))).map OpcodeRow.mnemonic = [mnemonic (.readlane k)])
    (by decide +kernel) k (of_decide_eq_true h)

end Sys2Proof.Laws.RowMatch
end

