-- ==== Sys2Proof/Laws/Step.lean ====
section
/-! SUPPORT. What a step can do, said once, and that runs compose. -/

namespace Sys2Proof.Machine

open Sys2Proof Sys2Proof.Safety

/-- It is the engine's turn, and these events are left after it. -/
def State.turn (s : State) (rest : List Event) : Prop := (s.agenda = [] ∧ rest = []) ∨ s.agenda = .engine :: rest

theorem State.setAgenda_self (s : State) : s.setAgenda s.agenda = s := rfl

/-- At the engine's turn the step is the engine's. -/
theorem step_turn {s : State} {rest : List Event} (h : s.turn rest) : step s = engineTurn (s.setAgenda rest) := by
  rcases h with ⟨h, rfl⟩ | h
  · simp only [step, systemStep, h]; rw [← h, State.setAgenda_self]
  · simp only [step, systemStep, h, runEvent]

theorem engineTurn_idle {s : State} (h : s.busy = false) : engineTurn s = .next s := by simp [engineTurn, h]

theorem engineTurn_error {s : State} {e : DecodeError} (h : s.busy = true) (hd : decode s.latch.word = .error e) :
    engineTurn s = .next (s.raise .illegalCommand).settle := by
  simp [engineTurn, engineStep, h, hd]

theorem engineTurn_ok {s u : State} {i : Instr} (h : s.busy = true) (hd : decode s.latch.word = .ok i) (hu : exec i s = .next u) :
    engineTurn s = .next u.settle := by
  simp [engineTurn, engineStep, h, hd, hu]

/-- The inversion of step: a command, an illegal command, an idle turn, a host access, or a hardware reset. -/
theorem step_cases {s t : State} (h : step s = .next t) :
    (∃ rest i u, s.turn rest ∧ s.busy = true ∧ decode s.latch.word = .ok i ∧ exec i (s.setAgenda rest) = .next u ∧ t = u.settle) ∨
    (∃ rest e, s.turn rest ∧ s.busy = true ∧ decode s.latch.word = .error e ∧
      t = ((s.setAgenda rest).raise .illegalCommand).settle) ∨
    (∃ rest, s.turn rest ∧ s.busy = false ∧ t = s.setAgenda rest) ∨
    (∃ a width rest, s.agenda = .read a width :: rest ∧ t = (s.setAgenda rest).hostRead a width) ∨
    (∃ a width v rest, s.agenda = .write a width v :: rest ∧ t = (s.setAgenda rest).hostWrite a width v) ∨
    (∃ rest, s.agenda = .hardwareReset :: rest ∧ t = (s.setAgenda rest).hardwareReset) := by
  have engine : ∀ rest, s.turn rest →
      (∃ rest i u, s.turn rest ∧ s.busy = true ∧ decode s.latch.word = .ok i ∧ exec i (s.setAgenda rest) = .next u ∧ t = u.settle) ∨
      (∃ rest e, s.turn rest ∧ s.busy = true ∧ decode s.latch.word = .error e ∧
        t = ((s.setAgenda rest).raise .illegalCommand).settle) ∨
      (∃ rest, s.turn rest ∧ s.busy = false ∧ t = s.setAgenda rest) := by
    intro rest hr
    rw [step_turn hr] at h
    cases hb : s.busy with
    | false => rw [engineTurn_idle (s := s.setAgenda rest) hb] at h; cases h; exact .inr (.inr ⟨rest, hr, rfl, rfl⟩)
    | true =>
      cases hd : decode s.latch.word with
      | error e =>
        rw [engineTurn_error (s := s.setAgenda rest) hb hd] at h; cases h; exact .inr (.inl ⟨rest, e, hr, rfl, rfl, rfl⟩)
      | ok i =>
        obtain ⟨u, hu⟩ := exec_total i (s.setAgenda rest)
        rw [engineTurn_ok (s := s.setAgenda rest) hb hd hu] at h; cases h
        exact .inl ⟨rest, i, u, hr, rfl, rfl, hu, rfl⟩
  cases ha : s.agenda with
  | nil =>
    rcases engine [] (.inl ⟨ha, rfl⟩) with h | h | h
    · exact .inl h
    · exact .inr (.inl h)
    · exact .inr (.inr (.inl h))
  | cons e rest =>
    cases e with
    | engine =>
      rcases engine rest (.inr ha) with h | h | h
      · exact .inl h
      · exact .inr (.inl h)
      · exact .inr (.inr (.inl h))
    | read a width =>
      simp only [step, systemStep, ha, runEvent] at h; cases h
      exact .inr (.inr (.inr (.inl ⟨a, width, rest, rfl, rfl⟩)))
    | write a width v =>
      simp only [step, systemStep, ha, runEvent] at h; cases h
      exact .inr (.inr (.inr (.inr (.inl ⟨a, width, v, rest, rfl, rfl⟩))))
    | hardwareReset =>
      simp only [step, systemStep, ha, runEvent] at h; cases h
      exact .inr (.inr (.inr (.inr (.inr ⟨rest, rfl, rfl⟩))))

theorem step_read {s : State} {a : Word32} {width : Nat} {rest : List Event} (h : s.agenda = .read a width :: rest) :
    step s = .next ((s.setAgenda rest).hostRead a width) := by simp only [step, systemStep, h, runEvent]

theorem step_write {s : State} {a v : Word32} {width : Nat} {rest : List Event} (h : s.agenda = .write a width v :: rest) :
    step s = .next ((s.setAgenda rest).hostWrite a width v) := by simp only [step, systemStep, h, runEvent]

theorem step_hardwareReset {s : State} {rest : List Event} (h : s.agenda = .hardwareReset :: rest) :
    step s = .next (s.setAgenda rest).hardwareReset := by simp only [step, systemStep, h, runEvent]

/-- A run of n + 1 steps begins with a step. -/
theorem runSteps_succ {s u : State} (n : Nat) (h : step s = .next u) : runSteps (n + 1) s = runSteps n u := by simp [runSteps, h]

/-- Runs compose. -/
theorem runSteps_add {s u : State} {m : Nat} (n : Nat) (h : runSteps m s = .next u) : runSteps (m + n) s = runSteps n u := by
  induction m generalizing s with
  | zero => cases h; rw [Nat.zero_add]
  | succ m ih =>
    simp only [runSteps] at h
    cases hs : step s with
    | next t => rw [hs] at h; rw [Nat.add_right_comm, runSteps_succ _ hs]; exact ih h
    | fault r => rw [hs] at h; cases h
    | refused r => rw [hs] at h; cases h

end Sys2Proof.Machine
end

