-- ==== Sys2Proof/Tests/Slice0.lean ====
section
/-! SUPPORT. Tests of one command or one step each, their expected values from spec/95_test_vectors.md, and for every statement with
hypotheses a state and operands that meet them (witness_…). -/

-- one theorem after another: checked all at once, their kernel evaluations take too many threads
set_option Elab.async false

namespace Sys2Proof.Tests

open Sys2Proof Sys2Proof.Machine Sys2Proof.Safety

-- ---------------------------------------------------------------- helpers

/-- The state a command leaves. -/
def after (i : Instr) (s : State) : State :=
  match exec i s with
  | .next t => t
  | .fault _ => s
  | .refused _ => s

/-- A command issued with its word and its operands, as accepted bus writes leave it. -/
def issued (i : Instr) (o n : Word32) (s : State) : State :=
  { s with cmd := encode i, argOff := o, argLen := n, latch := ⟨encode i, o, n⟩, busy := true }

/-- A command run on its operands. -/
def run (i : Instr) (o n : Word32) (s : State) : State := after i (issued i o n s)

/-- The state with bytes written at a host address. -/
def filled (a : Nat) (bs : List Byte) (s : State) : State := { s with mem := memStoreBytes s.mem a bs }

/-- OUTMEM[o..o+n). -/
def output (o n : Nat) (s : State) : List Byte := (List.range n).map (fun j => s.byteAt (outBase + o + j))

/-- The bytes 0, 1, 2, … mod 251 of spec/95_test_vectors.md. -/
def pat (n : Nat) : List Byte := (List.range n).map (fun i => BitVec.ofNat 8 (i % 251))

/-- "abc". -/
def abc : List Byte := [0x61#8, 0x62#8, 0x63#8]

/-- The one padded SHA256 block of "abc" (V-C1). -/
def abcBlock : List Byte := abc ++ [0x80#8] ++ zeros 59 ++ [0x18#8]

/-- A SHA512 engine with the parameters of spec/95_test_vectors.md. -/
def reset512 : State := State.powerOn .sha512 ⟨8, 4096, 256, false⟩

/-- A small SHA256 engine: P at most 2, INMEM of 256 bytes, OUTMEM of 64. -/
def small : State := State.powerOn .sha256 ⟨2, 256, 64, false⟩

/-- The small engine configured: depth, and at depth 2 the subtree length; P = 2, so N = 8 and C = 512. -/
def smallTree (depth st : Byte) : State :=
  { small with cfg := { resetConfig .sha256 with treeDepth := depth, parallelDegree := 2, subTreeLength := st } }

/-- Zero bytes held in the buffer. -/
def holding (n : Nat) (s : State) : State := { s with fsm := .buffering, mlen := n }

-- ---------------------------------------------------------------- well-formed commands (R120, R121)

theorem test_compress_256_refused : Instr.wellFormed (.compress 256) = false := by decide
theorem test_setdeg_256_refused : Instr.wellFormed (.setdeg 256) = false := by decide
theorem test_readlane_256_refused : Instr.wellFormed (.readlane 256) = false := by decide
theorem test_largest_immediates_accepted :
    Instr.wellFormed (.compress 255) = true ∧ Instr.wellFormed (.setdeg 255) = true ∧ Instr.wellFormed (.readlane 255) = true := by
  decide

-- ---------------------------------------------------------------- decoding: RSV, IMM8, OPC written out (R120, R126)

theorem test_decode_nop : decode (0b0000000000000000#16 ++ 0b00000000#8 ++ 0b00000000#8) = .ok .nop := by decide
theorem test_decode_reset : decode (0b0000000000000000#16 ++ 0b00000000#8 ++ 0b00000001#8) = .ok .reset := by decide
theorem test_decode_update : decode (0b0000000000000000#16 ++ 0b00000000#8 ++ 0b00000010#8) = .ok .update := by decide
theorem test_decode_finalize : decode (0b0000000000000000#16 ++ 0b00000000#8 ++ 0b00000011#8) = .ok .finalize := by decide
theorem test_decode_compress : decode (0b0000000000000000#16 ++ 0b00000011#8 ++ 0b00000100#8) = .ok (.compress 3) := by decide
theorem test_decode_loadhdr : decode (0b0000000000000000#16 ++ 0b00000000#8 ++ 0b00000101#8) = .ok .loadhdr := by decide
theorem test_decode_storehdr : decode (0b0000000000000000#16 ++ 0b00000000#8 ++ 0b00000110#8) = .ok .storehdr := by decide
theorem test_decode_setdeg : decode (0b0000000000000000#16 ++ 0b11111110#8 ++ 0b00000111#8) = .ok (.setdeg 254) := by decide
theorem test_decode_readlane : decode (0b0000000000000000#16 ++ 0b00000001#8 ++ 0b00001000#8) = .ok (.readlane 1) := by decide
theorem test_decode_wipe : decode (0b0000000000000000#16 ++ 0b00000000#8 ++ 0b00001001#8) = .ok .wipe := by decide
/-- The illegal words of section 0, each by the check that refuses it (R123). -/
theorem test_decode_illegal :
    decode 0x0000000a#32 = .error .unassignedOpcode ∧ decode 0x000000ff#32 = .error .unassignedOpcode ∧
      decode 0x00000102#32 = .error .strayImmediate ∧ decode 0x00000109#32 = .error .strayImmediate ∧
      decode 0x80000004#32 = .error .reservedField ∧ decode 0x00010007#32 = .error .reservedField := by decide
theorem test_encode_words :
    encode (.compress 255) = 0x0000ff04#32 ∧ encode (.setdeg 4) = 0x00000407#32 ∧ encode .wipe = 0x00000009#32 := by decide
theorem test_table_word : decodeTableWord 32 0x0304 = some (.compress 3) ∧ decodeTableWord 32 0x0a = none := by decide
/-- Two rows of the opcode map differ in a bit both fix. -/
theorem test_rows_do_not_overlap :
    opcodeTable.Pairwise (fun x y => (x.matchBits ^^^ y.matchBits) &&& x.maskBits &&& y.maskBits ≠ 0) := by decide

-- ---------------------------------------------------------------- one command each

/-- V-H3, last row. -/
theorem test_nop_keeps_errSticky :
    (run .nop 0 0 { State.reset with lastErr := 7, errSticky := 0xc4 }).lastErr = 0 ∧
      (run .nop 0 0 { State.reset with lastErr := 7, errSticky := 0xc4 }).errSticky = 0xc4 := by decide +kernel
/-- V-P2, rows 1 and 2. -/
theorem test_update_fills_buffer :
    (run .update 10 54 (run .update 0 10 (filled inBase (pat 65) small))).mlen = 64 := by decide +kernel
/-- V-P2, row 3, and V-C6's lane: one more byte flushes the full buffer. -/
theorem test_update_flushes :
    (run .update 64 1 (run .update 0 64 (filled inBase (pat 65) small))).mlen = 1 ∧
      fromLanes (fun A l => laneTotal (laneAt A l 0)) (run .update 64 1 (run .update 0 64 (filled inBase (pat 65) small))).hash = 64 := by
  decide +kernel
/-- V-S2. -/
theorem test_finalize_abc :
    output 0 32 (run .finalize 0 0 (run .update 0 3 (filled inBase abc State.reset))) =
      beBytes 32 0xba7816bf8f01cfea414140de5dae2223b00361a396177a9cb410ff61f20015ad := by decide +kernel
/-- V-S2, for the reference the statements rest on. -/
theorem test_reference_abc :
    fipsDigest fips256 abc = beBytes 32 0xba7816bf8f01cfea414140de5dae2223b00361a396177a9cb410ff61f20015ad := by decide +kernel
/-- V-P3: one byte too few for the digest. -/
theorem test_finalize_too_short : (run .finalize 225 0 State.reset).lastErr = 2 := by decide +kernel
/-- V-C2. -/
theorem test_compress_abc_sha512 :
    fromLanes (fun A l => serWords (laneAt A l 0).words)
        (run (.compress 0) 0 0 (filled inBase (abc ++ [0x80#8] ++ zeros 123 ++ [0x18#8]) reset512)).hash =
      beBytes 64 0xddaf35a193617abacc417349ae20413112e6fa4e89a97ea20a9eeee64b55d39a2192992a274fc1a836ba3c23a3feebbd454d4423643ce80e2a9ac94fa54ca49f := by
  decide +kernel
/-- V-C5: the WIPED check comes before the lane and the range. -/
theorem test_compress_wiped_first : (run (.compress 7) 5000 0 { State.reset with fsm := .wiped }).lastErr = 6 := by decide +kernel
/-- V-H2, row 1. -/
theorem test_loadhdr_depth_2 :
    (run .loadhdr 0 16 (filled inBase [0x20, 0, 2, 0, 0, 0, 0, 2, 4, 0, 0, 0, 0, 0, 0, 0] State.reset)).laneCount = 8 ∧
      (run .loadhdr 0 16 (filled inBase [0x20, 0, 2, 0, 0, 0, 0, 2, 4, 0, 0, 0, 0, 0, 0, 0] State.reset)).capacity = 512 := by decide +kernel
/-- V-H2: the header's range is checked before its size. -/
theorem test_loadhdr_range_first : (run .loadhdr 4095 2 State.reset).lastErr = 1 := by decide +kernel
/-- V-H1, row 3. -/
theorem test_storehdr_layout :
    output 0 16 (run .storehdr 0 0 { State.reset with cfg := ⟨0x20, 0x10, 1, 0x12345678, 4, 0, 0x9a, 0, 0⟩ }) =
      [0x20, 0x10, 0x01, 0x78, 0x56, 0x34, 0x12, 0x04, 0x00, 0x9a, 0, 0, 0, 0, 0, 0] := by decide +kernel
/-- V-H3. -/
theorem test_storehdr_too_short : (run .storehdr 241 0 State.reset).errSticky = 0x00000004 := by decide +kernel
/-- V-H2: SETDEG 2 on a sequential SHA512 engine. -/
theorem test_setdeg_turns_parallel :
    (run (.setdeg 2) 0 0 reset512).laneCount = 4 ∧ (run (.setdeg 2) 0 0 reset512).capacity = 512 ∧
      (run (.setdeg 2) 0 0 reset512).cfg.treeDepth = 1 := by decide +kernel
/-- V-H2: ST = 16 does not divide N = 8, and P stays 4. -/
theorem test_setdeg_subtree :
    (run (.setdeg 2) 0 0 { State.reset with cfg := ⟨0x20, 0, 2, 0, 4, 16, 0, 0, 0⟩ }).lastErr = 3 ∧
      (run (.setdeg 2) 0 0 { State.reset with cfg := ⟨0x20, 0, 2, 0, 4, 16, 0, 0, 0⟩ }).cfg.parallelDegree = 4 := by decide +kernel
/-- P6: a lane at IV. -/
theorem test_readlane_iv :
    output 64 48 (run (.readlane 4) 64 0 { State.reset with cfg := ⟨0x20, 0, 2, 0, 2, 4, 0, 0, 0⟩ }) =
      beBytes 32 0x6a09e667bb67ae853c6ef372a54ff53a510e527f9b05688c1f83d9ab5be0cd19 ++ zeros 16 := by decide +kernel
/-- V-H3: the lane is checked before the range. -/
theorem test_readlane_no_lane : (run (.readlane 1) 0 0 State.reset).lastErr = 6 := by decide +kernel
/-- V-H4. -/
theorem test_wipe_status :
    (run .wipe 0 0 (run .update 0 3 (filled inBase abc small))).status = 0x00000006 ∧
      output 0 1 (run .wipe 0 0 (filled outBase [0x55] small)) = [0] := by decide +kernel
/-- V-H4: what READLANE would write of a wiped lane is zeros; RESET puts the lane back at IV. -/
theorem test_reset_after_wipe :
    State.laneImageAt (run .wipe 0 0 small) 0 = zeros 48 ∧ (run .reset 0 0 (run .wipe 0 0 small)).status = 0 ∧
      State.laneImageAt (run .reset 0 0 (run .wipe 0 0 small)) 0 =
        beBytes 32 0x6a09e667bb67ae853c6ef372a54ff53a510e527f9b05688c1f83d9ab5be0cd19 ++ zeros 16 := by decide +kernel

-- ---------------------------------------------------------------- whole operations

/-- V-T2 at n = 512: depth 2. -/
theorem test_tree_depth_2 :
    State.digest (State.absorb { State.reset with cfg := ⟨0x20, 0, 2, 0, 2, 4, 0, 0, 0⟩ } (pat 512)) =
      beBytes 32 0x5c963a782e808d4ff8a21d4e74cf87c2a290e97a200bd9a85af1f94b00bee9e1 := by decide +kernel
/-- V-P1: n = 56, the first SHA256 length with two padding blocks. -/
theorem test_padding_56 :
    hashOf alg256 (List.replicate 56 0x61#8) = beBytes 32 0xb35439a4ac6f0948b6d6f9e3c6af0f5f590ce20f1bde7090ef7970686ec6738a := by
  decide +kernel
/-- V-L1, rows 2 and 4. -/
theorem test_increase_carries :
    increaseLane (⟨Words.zero 32, 0, 0x1fffffffffffffc0⟩ : Lane 32) 64 = ⟨Words.zero 32, 1, 0⟩ ∧
      increaseLane (⟨Words.zero 32, 0xffffffffffffffff, 0x1fffffffffffffff⟩ : Lane 32) 129 = ⟨Words.zero 32, 0, 128⟩ := by decide +kernel
/-- V-L2. -/
theorem test_length_field_carries :
    lengthField alg512 ⟨Words.zero 64, 1, 0⟩ [] = [0, 0, 0, 0, 0, 0, 0, 1, 0, 0, 0, 0, 0, 0, 0, 0] ∧
      lengthField alg256 ⟨Words.zero 32, 1, 0⟩ [] = zeros 8 := by decide +kernel
/-- A reserved word placed and stepped: IllegalCommand, code 7 (V-H3). -/
theorem test_reserved_word_steps :
    (match step (small.withFetchWord 32 0x0a) with
      | .next t => decide (t.lastErr = 7 ∧ t.errSticky = 0x80 ∧ t.busy = false)
      | .fault _ => false
      | .refused _ => false) = true := by decide +kernel

-- ---------------------------------------------------------------- the bus (section 8)

theorem test_bus_write_little_endian :
    (List.range 4).map (fun j => (State.reset.hostWrite 0x00010000 4 0x00636261).byteAt (inBase + j)) = [0x61, 0x62, 0x63, 0x00] := by
  decide +kernel
theorem test_bus_read_halfword :
    ((State.reset.hostWrite 0x00010000 4 0x00636261).hostRead 0x00010002 2).reads = [0x0063] := by decide +kernel
theorem test_bus_refused_reads :
    (State.reset.hostRead 0x00010001 2).errSticky = 0x00008000 ∧ (State.reset.hostRead 0x00000028 4).errSticky = 0x00008000 ∧
      (State.reset.hostRead 0x00000010 2).errSticky = 0x00008000 ∧ (State.reset.hostRead 0x00030000 4).reads = [0] := by decide +kernel
theorem test_bus_identity :
    (State.reset.hostRead 0x00000000 4).reads = [0x07080401] ∧ (State.reset.hostRead 0x00000024 4).reads = [0x08404020] ∧
      (reset512.hostRead 0x00000000 4).reads = [0x07080202] ∧ (reset512.hostRead 0x00000024 4).reads = [0x10508040] := by decide +kernel
/-- A write to ARG_OFF while BUSY is dropped. -/
theorem test_bus_busy_write :
    ((issued .nop 5 0 small).hostWrite 0x00000008 4 9).argOff = 5 ∧ ((issued .nop 5 0 small).hostWrite 0x00000008 4 9).errSticky = 0x00008000 := by
  decide +kernel
/-- IN_SIZE = 4094: the access crosses the end of INMEM. -/
theorem test_bus_window_end : targetOf ⟨8, 4094, 256, false⟩ 0x00010ffc 4 = none := by decide
theorem test_reset_memory_wf : Memory.wf State.reset.mem := by decide

-- ---------------------------------------------------------------- witnesses: states that meet the statements' hypotheses

theorem small_inv : Inv small := inv_of_check (by decide +kernel)
theorem small512_inv : Inv (State.powerOn .sha512 ⟨2, 256, 128, true⟩) := inv_of_check (by decide +kernel)
theorem tree1_inv : Inv (smallTree 1 0) := inv_of_check (by decide +kernel)
theorem tree2_inv : Inv (smallTree 2 4) := inv_of_check (by decide +kernel)
theorem wiped_inv : Inv small.erase := inv_of_check (by decide +kernel)
/-- Sequential, the buffer almost full. -/
theorem held_inv : Inv (holding 60 small) := inv_of_check (by decide +kernel)
/-- Parallel, the buffer one byte short of C, exactly C, and after a dispatch. -/
theorem tree_held_inv : Inv (holding 511 (smallTree 1 0)) := inv_of_check (by decide +kernel)
theorem tree_full_inv : Inv (holding 512 (smallTree 1 0)) := inv_of_check (by decide +kernel)
theorem tree_reached_inv : Inv { holding 0 (smallTree 2 4) with reached := true } := inv_of_check (by decide +kernel)

theorem small_fresh : FreshStream small := ⟨rfl, fun _ _ h => List.eq_of_mem_replicate (List.mem_of_getElem? h)⟩
theorem tree1_fresh : FreshStream (smallTree 1 0) := ⟨rfl, fun _ _ h => List.eq_of_mem_replicate (List.mem_of_getElem? h)⟩
theorem tree2_fresh : FreshStream (smallTree 2 4) := ⟨rfl, fun _ _ h => List.eq_of_mem_replicate (List.mem_of_getElem? h)⟩

/-- What a step leaves. -/
def stepped (s : State) : State :=
  match step s with
  | .next t => t
  | .fault _ => s
  | .refused _ => s

theorem step_stepped (s : State) (h : (match step s with
    | .next _ => true
    | .fault _ => false
    | .refused _ => false) = true) : step s = .next (stepped s) := by
  unfold stepped
  cases hs : step s with
  | next t => rfl
  | fault r => rw [hs] at h; cases h
  | refused r => rw [hs] at h; cases h

theorem witness_DecodeAndEncodeAgree : (Instr.compress 255).WellFormed ∧ decode 0x00000009#32 = .ok .wipe := by decide
theorem witness_OpcodeMapSelectsTheCommand :
    decode 0x0000ff04#32 = .ok (.compress 255) ∧ ∃ r ∈ opcodeTable, 0x0000ff04#32 &&& r.maskBits = r.matchBits := by decide
/-- Each clause of the reserved words at its boundary, and the legal neighbour. -/
theorem witness_ReservedWordsAreIllegal :
    0x0A ≤ bits 0x0a 7 0 ∧ bits 0x00010000 31 16 ≠ 0 ∧ (bits 0x00000100 15 8 ≠ 0 ∧ bits 0x00000100 7 0 = 0) ∧
      decode 0x00000009 = .ok .wipe ∧ decode 0x00000104 = .ok (.compress 1) := by decide
theorem witness_StepRunsTheDecodedCommand_empty_agenda : ∃ (s t : State) (i : Instr),
    s.busy = true ∧ decode s.latch.word = .ok i ∧ s.agenda = [] ∧ exec i s = .next t :=
  ⟨issued .update 0 3 small, _, .update, rfl, rfl, rfl, rfl⟩
theorem witness_StepRunsTheDecodedCommand_engine_event : ∃ (s t : State) (i : Instr) (rest : List Event),
    s.busy = true ∧ decode s.latch.word = .ok i ∧ s.agenda = .engine :: rest ∧ exec i { s with agenda := rest } = .next t :=
  ⟨{ issued .finalize 32 0 small with agenda := [.engine, .engine] }, _, .finalize, [.engine], rfl, rfl, rfl, rfl⟩
theorem witness_PlacedCommandRunsNext : ∃ (s t : State) (i : Instr), i.WellFormed ∧
    exec i { s with cmd := encode i, latch := ⟨encode i, s.argOff, s.argLen⟩, busy := true } = .next t :=
  ⟨small, _, .setdeg 2, by decide, (exec_total _ _).choose_spec⟩
theorem witness_ReservedWordCompletesAsIllegalCommand : ∃ (s : State) (w : Word32) (rest : List Event),
    s.busy = false ∧ (∃ e, decode w = .error e) ∧ s.agenda = .write 0x00000004#32 4 w :: .engine :: rest :=
  ⟨{ small with agenda := [.write 0x00000004#32 4 0x0a, .engine] }, 0x0a, [], rfl, ⟨_, rfl⟩, rfl⟩
theorem witness_ErrorsArePrecise : ∃ (i : Instr) (s t : State), exec i s = .next t ∧ t.lastErr ≠ 0 :=
  ⟨.compress 1, small, _, rfl, by decide +kernel⟩
theorem witness_SuccessKeepsErrSticky : ∃ (i : Instr) (s t : State), exec i s = .next t ∧ t.lastErr = 0 :=
  ⟨.nop, { small with errSticky := 0xc4 }, _, rfl, rfl⟩
theorem witness_FirstErrorIsReported_illegal : ∃ (s t : State) (e : DecodeError),
    s.busy = true ∧ s.agenda = [] ∧ step s = .next t ∧ decode s.latch.word = .error e :=
  ⟨{ small with busy := true, cmd := 0x0a, latch := ⟨0x0a, 0, 0⟩ }, _, .unassignedOpcode, rfl, rfl, step_stepped _ (by decide +kernel), rfl⟩
theorem witness_FirstErrorIsReported_success : ∃ (s t : State) (i : Instr),
    s.busy = true ∧ s.agenda = [] ∧ step s = .next t ∧ decode s.latch.word = .ok i ∧ firstError i s = none :=
  ⟨issued .update 253 3 small, _, .update, rfl, rfl, step_stepped _ (by decide +kernel), rfl, by decide +kernel⟩
theorem witness_FirstErrorIsReported_error : ∃ (s t : State) (i : Instr) (e : ErrorKind),
    s.busy = true ∧ s.agenda = [] ∧ step s = .next t ∧ decode s.latch.word = .ok i ∧ firstError i s = some e :=
  ⟨issued .update 254 3 small, _, .update, .invalidLength, rfl, rfl, step_stepped _ (by decide +kernel), rfl, by decide +kernel⟩
/-- An engine's event of a host program, with a host read after it; the check that fails is the degree's. -/
theorem witness_FirstErrorIsReported_engine_event : ∃ (s t : State) (i : Instr) (e : ErrorKind),
    s.busy = true ∧ s.agenda.head? = some .engine ∧ step s = .next t ∧ decode s.latch.word = .ok i ∧ firstError i s = some e :=
  ⟨{ issued (.setdeg 3) 0 0 small with agenda := [.engine, .read 0x00000010 4] }, _, .setdeg 3, .invalidDegree, rfl, rfl,
    step_stepped _ (by decide +kernel), rfl, by decide +kernel⟩
theorem witness_EmptyUpdateChangesNothing : ∃ s : State, s.fsm ≠ .wiped ∧ s.offset ≤ s.params.inSize ∧ s.length = 0 :=
  ⟨issued .update 256 0 small, by decide +kernel, by decide +kernel, rfl⟩
theorem witness_FittingUpdateIsBuffered : ∃ s : State, Inv s ∧ s.fsm ≠ .wiped ∧ s.offset + s.length ≤ s.params.inSize ∧
    0 < s.length ∧ s.mlen + s.length ≤ s.capacity :=
  ⟨issued .update 252 4 (holding 60 small), inv_of_check (by decide +kernel), by decide +kernel, by decide +kernel, by decide +kernel,
    by decide +kernel⟩
theorem witness_OverflowingUpdateFlushesSegments : ∃ s : State, Inv s ∧ s.fsm ≠ .wiped ∧
    s.offset + s.length ≤ s.params.inSize ∧ s.capacity < s.mlen + s.length :=
  ⟨issued .update 251 5 (holding 60 small), inv_of_check (by decide +kernel), by decide +kernel, by decide +kernel, by decide +kernel⟩
theorem witness_OverflowingUpdateFlushesSegments_parallel : ∃ s : State, Inv s ∧ s.fsm ≠ .wiped ∧
    s.offset + s.length ≤ s.params.inSize ∧ s.capacity < s.mlen + s.length ∧ s.parallel = true :=
  ⟨issued .update 0 2 (holding 511 (smallTree 1 0)), inv_of_check (by decide +kernel), by decide +kernel, by decide +kernel,
    by decide +kernel, by decide +kernel⟩
theorem witness_UpdateAbsorbsItsBytes : ∃ s : State, s.fsm ≠ .wiped ∧ s.offset + s.length ≤ s.params.inSize :=
  ⟨issued .update 0 256 small, by decide +kernel, by decide +kernel⟩
theorem witness_FinalizeWritesTheDigest_sequential : ∃ s : State, s.fsm ≠ .wiped ∧ s.offset ≤ s.params.outSize ∧
    digestBytes s.variant ≤ s.params.outSize - s.offset ∧ s.parallel = false :=
  ⟨issued .finalize 32 0 small, by decide +kernel, by decide +kernel, by decide +kernel, by decide +kernel⟩
theorem witness_FinalizeWritesTheDigest_demoted : ∃ s : State, s.fsm ≠ .wiped ∧ s.offset ≤ s.params.outSize ∧
    digestBytes s.variant ≤ s.params.outSize - s.offset ∧ s.parallel = true ∧ s.reached = false ∧ s.mlen < s.capacity :=
  ⟨issued .finalize 32 0 (holding 511 (smallTree 1 0)), by decide +kernel, by decide +kernel, by decide +kernel, by decide +kernel,
    by decide +kernel, by decide +kernel⟩
theorem witness_FinalizeWritesTheDigest_tree : ∃ s : State, s.fsm ≠ .wiped ∧ s.offset ≤ s.params.outSize ∧
    digestBytes s.variant ≤ s.params.outSize - s.offset ∧ s.parallel = true ∧ (s.reached = true ∨ s.capacity ≤ s.mlen) :=
  ⟨issued .finalize 32 0 (holding 512 (smallTree 1 0)), by decide +kernel, by decide +kernel, by decide +kernel, by decide +kernel,
    by decide +kernel⟩
theorem witness_CompressChangesOneLane : ∃ (s : State) (k : Nat), Inv s ∧ s.fsm ≠ .wiped ∧ k < s.laneCount ∧
    s.offset + blockBytes s.variant ≤ s.params.inSize :=
  ⟨issued (.compress 7) 192 0 (smallTree 1 0), 7, inv_of_check (by decide +kernel), by decide +kernel, by decide +kernel, by decide +kernel⟩
/-- The configuration in the header at ARG_OFF, as LoadhdrSetsTheConfiguration reads it. -/
abbrev headerOf (s : State) : TreeParams :=
  let h := fun j => s.byteAt (inBase + s.offset + j)
  { digestLength := h 0, keyLength := h 1, treeDepth := h 2, leafLength := h 6 ++ h 5 ++ h 4 ++ h 3, parallelDegree := h 7,
    subTreeLength := h 8, nodeOffset := h 9, reserved1 := h 11 ++ h 10, reserved2 := h 15 ++ h 14 ++ h 13 ++ h 12 }
theorem witness_LoadhdrSetsTheConfiguration_legal : ∃ s : State, s.offset + s.length ≤ s.params.inSize ∧ 16 ≤ s.length ∧
    LegalConfig s.variant s.params (headerOf s) :=
  ⟨issued .loadhdr 240 16 (filled (inBase + 240) [0x20, 0, 2, 0, 0, 0, 0, 2, 4, 0, 0, 0, 0, 0, 0, 0] small), by decide +kernel,
    by decide +kernel, by decide +kernel⟩
/-- A subtree length that does not divide N' = 8. -/
theorem witness_LoadhdrSetsTheConfiguration_illegal : ∃ s : State, s.offset + s.length ≤ s.params.inSize ∧ 16 ≤ s.length ∧
    ¬ LegalConfig s.variant s.params (headerOf s) :=
  ⟨issued .loadhdr 240 16 (filled (inBase + 240) [0x20, 0, 2, 0, 0, 0, 0, 2, 3, 0, 0, 0, 0, 0, 0, 0] small), by decide +kernel,
    by decide +kernel, by decide +kernel⟩
theorem witness_SetdegSetsTheDegree_sequential : ∃ (s : State) (n : Nat), Inv s ∧ n % 2 = 0 ∧ 2 ≤ n ∧ n ≤ s.params.maxDegree ∧
    s.cfg.treeDepth.toNat = 0 :=
  ⟨issued (.setdeg 2) 0 0 small, 2, inv_of_check (by decide +kernel), by decide, by decide, by decide +kernel, by decide +kernel⟩
theorem witness_SetdegSetsTheDegree_depth_2 : ∃ (s : State) (n : Nat), Inv s ∧ n % 2 = 0 ∧ 2 ≤ n ∧ n ≤ s.params.maxDegree ∧
    s.cfg.treeDepth.toNat = 2 ∧ (n * interleave s.variant) % s.cfg.subTreeLength.toNat = 0 ∧ s.params.strictPairing = true ∧
      s.cfg.subTreeLength.toNat % 2 = 0 ∧ (n * interleave s.variant / s.cfg.subTreeLength.toNat) % 2 = 0 :=
  ⟨{ smallTree 2 4 with params := ⟨2, 256, 64, true⟩ }, 2, inv_of_check (by decide +kernel), by decide, by decide, by decide +kernel,
    by decide +kernel, by decide +kernel, rfl, by decide +kernel, by decide +kernel⟩
theorem witness_StorehdrWritesTheHeader : ∃ s : State, s.offset ≤ s.params.outSize ∧ 16 ≤ s.params.outSize - s.offset :=
  ⟨issued .storehdr 48 0 small, by decide +kernel, by decide +kernel⟩
theorem witness_ReadlaneWritesTheLane : ∃ (s : State) (k : Nat), Inv s ∧ k < s.laneCount ∧ s.offset ≤ s.params.outSize ∧
    digestBytes s.variant + 16 ≤ s.params.outSize - s.offset :=
  ⟨issued (.readlane 7) 16 0 (smallTree 2 4), 7, inv_of_check (by decide +kernel), by decide +kernel, by decide +kernel, by decide +kernel⟩
theorem witness_CommandsKeepTheHostSide : ∃ (i : Instr) (s t : State), exec i s = .next t := ⟨.wipe, small, _, rfl⟩
theorem witness_CommandsStoreOnlyTheirBytes_error : ∃ (i : Instr) (s t : State), exec i s = .next t ∧ i ≠ .wipe ∧ firstError i s ≠ none :=
  ⟨.finalize, issued .finalize 33 0 small, _, (exec_total _ _).choose_spec, by decide, by decide +kernel⟩
theorem witness_CommandsStoreOnlyTheirBytes_stored : ∃ (i : Instr) (s t : State) (a : Nat), exec i s = .next t ∧ i ≠ .wipe ∧
    firstError i s = none ∧ ¬ (outBase + s.offset ≤ a ∧ a < outBase + s.offset + outBytes i s) :=
  ⟨.finalize, issued .finalize 32 0 small, _, outBase + 31, (exec_total _ _).choose_spec, by decide, by decide +kernel, by decide +kernel⟩
theorem witness_OnlyConfigurationChangesCfg : ∃ s t : State, step s = .next t ∧ t.cfg ≠ s.cfg :=
  ⟨issued (.setdeg 2) 0 0 small, _, step_stepped _ (by decide +kernel), by decide +kernel⟩
theorem witness_OnlyConfigurationChangesCfg_reset : ∃ s t : State, step s = .next t ∧ t.cfg ≠ s.cfg :=
  ⟨{ smallTree 1 0 with agenda := [.hardwareReset] }, _, step_stepped _ (by decide +kernel), by decide +kernel⟩
theorem witness_OnlyFinalizeWritesDemoted : ∃ s t : State, step s = .next t ∧ t.demoted ≠ s.demoted :=
  ⟨issued .finalize 0 0 (smallTree 1 0), _, step_stepped _ (by decide +kernel), by decide +kernel⟩
theorem witness_ReachedIsSetByDispatchAlone_set : ∃ s t : State, step s = .next t ∧ s.reached = false ∧ t.reached = true :=
  ⟨issued .update 0 2 (holding 511 (smallTree 1 0)), _, step_stepped _ (by decide +kernel), by decide +kernel, by decide +kernel⟩
theorem witness_ReachedIsSetByDispatchAlone_cleared : ∃ s t : State, step s = .next t ∧ s.reached = true ∧ t.reached = false :=
  ⟨issued .reset 0 0 { holding 0 (smallTree 2 4) with reached := true }, _, step_stepped _ (by decide +kernel), by decide +kernel,
    by decide +kernel⟩
/-- Every clause of the transition table has its case: an error, UPDATE of some and of no bytes, FINALIZE, the commands that restart the
stream, WIPE, and those that keep the streaming state. -/
theorem witness_StreamingStateTransitions_error : ∃ (i : Instr) (s t : State), exec i s = .next t ∧ t.lastErr ≠ 0 :=
  ⟨.update, small.erase, _, rfl, by decide +kernel⟩
theorem witness_StreamingStateTransitions_update : ∃ s t : State, exec .update s = .next t ∧ t.lastErr = 0 ∧ s.length ≠ 0 ∧ s.fsm = .empty :=
  ⟨issued .update 0 1 small, _, rfl, by decide +kernel, by decide +kernel, rfl⟩
theorem witness_StreamingStateTransitions_others :
    (∃ s t : State, exec .update s = .next t ∧ t.lastErr = 0 ∧ s.length = 0) ∧
    (∃ s t : State, exec .finalize s = .next t ∧ t.lastErr = 0) ∧ (∃ s t : State, exec .reset s = .next t ∧ t.lastErr = 0) ∧
    (∃ s t : State, exec .wipe s = .next t ∧ t.lastErr = 0) ∧
    (∃ (s t : State) (k : Nat), exec (.compress k) s = .next t ∧ t.lastErr = 0) :=
  ⟨⟨issued .update 256 0 small, _, rfl, by decide +kernel, rfl⟩, ⟨issued .finalize 0 0 small, _, rfl, by decide +kernel⟩,
    ⟨small, _, rfl, rfl⟩, ⟨small, _, rfl, rfl⟩, ⟨issued (.compress 0) 0 0 small, _, 0, rfl, by decide +kernel⟩⟩
theorem witness_WipedEngineRefusesUse : ∃ s : State, Inv s ∧ s.fsm = .wiped := ⟨small.erase, wiped_inv, rfl⟩
theorem witness_RotatesFollowTheRule : (0 < 31 ∧ 31 < 32) ∧ 32 ≤ 32 ∧ (31 < 32 ∧ 31 < 32) := by decide
/-- A block of each variant: the padded block of "abc". -/
theorem witness_ScheduleFollowsTheRecurrence :
    abcBlock.length = 64 ∧ (abc ++ [0x80#8] ++ zeros 123 ++ [0x18#8]).length = 128 := by decide
theorem witness_IncreaseCountsBytes : ∃ (n : Nat) (l : Lane 64), l.cntLo.toNat < 2 ^ 61 ∧ n < 2 ^ 32 :=
  ⟨2 ^ 32 - 1, ⟨Words.zero 64, 0, 0x1fffffffffffffff⟩, by decide, by decide⟩
theorem witness_LengthFieldIsTheLimbs :
    (∃ (l : Lane 64) (tail : List Byte), l.cntLo.toNat < 2 ^ 61 ∧ tail.length = 128) ∧
    (∃ (l : Lane 32) (tail : List Byte), l.cntLo.toNat < 2 ^ 61 ∧ tail.length = 64) :=
  ⟨⟨⟨Words.zero 64, 0, 0x1fffffffffffffff⟩, zeros 128, by decide, by simp⟩, ⟨⟨Words.zero 32, 0, 0x1fffffffffffffff⟩, zeros 64, by decide, by simp⟩⟩
theorem witness_PaddingTakesOneOrTwoBlocks :
    (∃ (l : Lane 32) (tail : List Byte), l.cntLo.toNat < 2 ^ 61 ∧ tail.length = 55) ∧
    (∃ (l : Lane 32) (tail : List Byte), l.cntLo.toNat < 2 ^ 61 ∧ tail.length = 56) ∧
    (∃ (l : Lane 64) (tail : List Byte), l.cntLo.toNat < 2 ^ 61 ∧ tail.length = 112) :=
  ⟨⟨initLane alg256, zeros 55, by decide, by simp⟩, ⟨initLane alg256, zeros 56, by decide, by simp⟩,
    ⟨initLane alg512, zeros 112, by decide, by simp⟩⟩
theorem witness_DigestIsChunkInvariant : ∃ (s : State) (chunks : List (List Byte)), Inv s ∧ chunks.flatten.length = 513 :=
  ⟨holding 511 (smallTree 1 0), [zeros 1, [], zeros 512], tree_held_inv, by simp⟩
theorem witness_BufferHoldsTheUnflushedBytes : ∃ s : State, Inv s ∧ s.mlen = 0 := ⟨smallTree 2 4, tree2_inv, rfl⟩
theorem witness_DemotionIsDecidedByLength : ∃ s : State, Inv s ∧ s.fsm = .empty ∧ s.parallel = true :=
  ⟨smallTree 1 0, tree1_inv, rfl, by decide +kernel⟩
theorem witness_SequentialDigestIsFips : ∃ s : State, Inv s ∧ FreshStream s ∧ s.parallel = false :=
  ⟨small, small_inv, small_fresh, by decide +kernel⟩
theorem witness_DemotedDigestIsFips : ∃ (s : State) (m : List Byte), Inv s ∧ FreshStream s ∧ s.parallel = true ∧ m.length < s.capacity :=
  ⟨smallTree 1 0, pat 511, tree1_inv, tree1_fresh, by decide +kernel, by decide +kernel⟩
theorem witness_ParallelDigestIsTheTree_depth_1 : ∃ (s : State) (m : List Byte), Inv s ∧ FreshStream s ∧ s.parallel = true ∧
    s.capacity ≤ m.length := ⟨smallTree 1 0, pat 512, tree1_inv, tree1_fresh, by decide +kernel, by decide +kernel⟩
theorem witness_ParallelDigestIsTheTree_depth_2 : ∃ (s : State) (m : List Byte), Inv s ∧ FreshStream s ∧ s.parallel = true ∧
    s.capacity ≤ m.length := ⟨smallTree 2 4, pat 513, tree2_inv, tree2_fresh, by decide +kernel, by decide +kernel⟩
/-- Lanes from N on changed, and only they. -/
theorem witness_IdleLanesAreNotRead : ∃ (s : State) (h : HashBank), 1 ≤ s.laneCount ∧ s.laneCount ≤ laneFileSize s.hash ∧
    lanesRelated (fun _ k l l' => k < s.laneCount → l = l') s.hash h ∧ h ≠ s.hash :=
  ⟨small, mapBank (fun {w} _ k l => if k < small.laneCount then l else clearLane w) small.hash, by decide +kernel, by decide +kernel,
    lanesRelated_mapBank (fun _ _ _ _ hk => (if_pos hk).symm), by decide +kernel⟩
theorem witness_LaneOrderDoesNotMatter : ∃ (s : State) (order : List Nat), order.Perm (List.range s.laneCount) ∧ order ≠ List.range s.laneCount :=
  ⟨smallTree 1 0, (List.range (smallTree 1 0).laneCount).reverse, List.reverse_perm _, by decide +kernel⟩
theorem witness_HeaderRoundTrips : (pat 16).length = 16 := by decide
/-- Each refusal at its boundary: the first reserved register, an access past INMEM's end, the read-only ID, a write while BUSY. -/
theorem witness_RefusedAccessOnlyFlags :
    ¬ ReadAdmitted small.params (0x00000028 : Word32).toNat 4 ∧ ¬ ReadAdmitted small.params (0x000100fe : Word32).toNat 4 ∧
      ¬ WriteAdmitted small.params (0x00000000 : Word32).toNat 4 ∧
      (WriteAdmitted small.params (0x00000008 : Word32).toNat 4 ∧ (issued .nop 0 0 small).busy = true) := by decide +kernel
/-- The last readable register, the last byte of INMEM, the last word of OUTMEM. -/
theorem witness_AdmittedReadHasNoEffect :
    ReadAdmitted small.params (0x00000024 : Word32).toNat 4 ∧ ReadAdmitted small.params (0x000100ff : Word32).toNat 1 ∧
      ReadAdmitted small.params (0x0002003c : Word32).toNat 4 := by decide +kernel
/-- A busy engine, at a register R87 leaves partly unspecified and at a window byte. -/
theorem witness_AdmittedReadHasNoEffect_busy : ∃ s : State, s.busy = true ∧
    ReadAdmitted s.params (0x00000010 : Word32).toNat 4 ∧ ReadAdmitted s.params (0x0002003f : Word32).toNat 1 :=
  ⟨issued .nop 0 0 small, rfl, by decide +kernel, by decide +kernel⟩
theorem witness_BusIsLittleEndian : ∃ (s : State) (a : Word32) (width : Nat), s.busy = false ∧ inBase ≤ a.toNat ∧
    WriteAdmitted s.params a.toNat width := ⟨small, 0x000100fc, 4, rfl, by decide, by decide +kernel⟩
theorem witness_RegisterWritesTakeEffect : ∃ s : State, s.busy = false := ⟨small, rfl⟩
theorem witness_IdleRegisterReads : ∃ s : State, s.busy = false ∧ LegalParams s.variant s.params := ⟨small, rfl, small_inv.params⟩
theorem witness_BusyReadsShowBusy : ∃ (s : State) (a : Word32) (width : Nat), s.busy = true ∧ ReadAdmitted s.params a.toNat width :=
  ⟨issued .nop 0 0 small, 0x00000010, 4, rfl, by decide +kernel⟩
theorem witness_BusyReturnsToZero : ∃ s : State, s.busy = true ∧ s.agenda ≠ [] :=
  ⟨{ issued .nop 0 0 small with agenda := [.read 0x00000010 4] }, rfl, by simp⟩
theorem witness_CommandLineRunsOnce : ∃ (s : State) (i : Instr) (o n : Word32) (polls : Nat) (rest : List Event),
    s.busy = false ∧ i.WellFormed ∧ s.agenda = commandEvents polls i o n ++ rest :=
  ⟨{ small with agenda := commandEvents 2 .update 0 3 ++ [.engine] }, .update, 0, 3, 2, [.engine], rfl, by decide, rfl⟩
theorem witness_HardwareResetPowersOn : ∃ (s : State) (rest : List Event), s.agenda = .hardwareReset :: rest ∧ s.busy = true :=
  ⟨{ issued .wipe 0 0 small with agenda := [.hardwareReset] }, [], rfl, rfl⟩
/-- The smallest and the largest parameters. -/
theorem witness_PowerOnIsWellFormed : LegalParams .sha256 ⟨0, 64, 48, false⟩ ∧ LegalParams .sha512 ⟨254, 65536, 65536, true⟩ := by decide
/-- The hypotheses of the second part on a state, with the events of one line and nothing after them. -/
abbrev hashCase (s : State) (i n o : Word32) : Prop :=
  Inv s ∧ FreshStream s ∧ s.busy = false ∧ i.toNat + n.toNat ≤ s.params.inSize ∧
    o.toNat + digestBytes s.variant ≤ s.params.outSize ∧ s.agenda = lineEvents 1 3 (.hash i n o) ++ []
theorem witness_HashLineWritesTheDigest_any : ∃ (s : State) (polls polls' : Nat) (rest : List Event),
    s.busy = false ∧ s.fsm = .wiped ∧ s.agenda = lineEvents polls polls' (.hash 0 3 0) ++ rest :=
  ⟨{ small.erase with agenda := lineEvents 0 2 (.hash 0 3 0) ++ [.engine] }, 0, 2, [.engine], rfl, rfl, rfl⟩
theorem witness_HashLineWritesTheDigest_sequential : ∃ s : State, hashCase s 0 256 32 ∧ s.parallel = false :=
  ⟨{ small with agenda := lineEvents 1 3 (.hash 0 256 32) ++ [] },
    ⟨inv_of_check (by decide +kernel), small_fresh, rfl, by decide +kernel, by decide +kernel, rfl⟩, by decide +kernel⟩
theorem witness_HashLineWritesTheDigest_demoted : ∃ s : State, hashCase s 0 256 32 ∧ s.parallel = true ∧ 256 < s.capacity :=
  ⟨{ smallTree 1 0 with agenda := lineEvents 1 3 (.hash 0 256 32) ++ [] },
    ⟨inv_of_check (by decide +kernel), tree1_fresh, rfl, by decide +kernel, by decide +kernel, rfl⟩, by decide +kernel, by decide +kernel⟩
/-- An input window that holds a whole segment, at either depth. -/
theorem witness_HashLineWritesTheDigest_tree :
    (∃ s : State, hashCase s 0 512 32 ∧ s.parallel = true ∧ s.capacity ≤ 512) ∧
    (∃ s : State, hashCase s 0 513 32 ∧ s.cfg.treeDepth.toNat = 2 ∧ s.capacity ≤ 513) :=
  ⟨⟨{ smallTree 1 0 with params := ⟨2, 1024, 64, false⟩, agenda := lineEvents 1 3 (.hash 0 512 32) ++ [] },
      ⟨inv_of_check (by decide +kernel), tree1_fresh, rfl, by decide +kernel, by decide +kernel, rfl⟩, by decide +kernel, by decide +kernel⟩,
    ⟨{ smallTree 2 4 with params := ⟨2, 1024, 64, false⟩, agenda := lineEvents 1 3 (.hash 0 513 32) ++ [] },
      ⟨inv_of_check (by decide +kernel), tree2_fresh, rfl, by decide +kernel, by decide +kernel, rfl⟩, by decide +kernel, by decide +kernel⟩⟩
theorem witness_StepsKeepStatesWellFormed : ∃ s t : State, Inv s ∧ step s = .next t :=
  ⟨issued .update 0 2 (holding 511 (smallTree 1 0)), _, inv_of_check (by decide +kernel), step_stepped _ (by decide +kernel)⟩

end Sys2Proof.Tests
end

section
/-! The rotates of spec/00_scope.md R11: the equation of each function for an amount of every kind, and the bits of a rotated word. -/

namespace Sys2Proof.Machine

section
variable {w : Nat} (x : BitVec w)

@[simp] theorem rotr_zero : rotr 0 x = x := if_pos (Nat.zero_mod w)

@[simp] theorem rotl_zero : rotl 0 x = x := if_pos (Nat.zero_mod w)

theorem rotr_mod (n : Nat) : rotr (n % w) x = rotr n x := by simp only [rotr, Nat.mod_mod]

theorem rotl_mod (n : Nat) : rotl (n % w) x = rotl n x := by simp only [rotl, Nat.mod_mod]

theorem rotr_of_pos_of_lt {n : Nat} (hpos : 0 < n) (hlt : n < w) : rotr n x = (x >>> n) ||| (x <<< (w - n)) := by
  simp only [rotr, Nat.mod_eq_of_lt hlt, if_neg hpos.ne']

theorem rotl_of_pos_of_lt {n : Nat} (hpos : 0 < n) (hlt : n < w) : rotl n x = rotr (w - n) x := by
  simp only [rotl, Nat.mod_eq_of_lt hlt, if_neg hpos.ne']

/-- At an amount that is a multiple of `w` the library's rotate shifts one copy of the word out entirely. -/
theorem rotr_eq_rotateRight (n : Nat) : rotr n x = x.rotateRight n := by
  rw [BitVec.rotateRight_def, rotr]
  split
  · next h => simp [h]
  · rfl

/-- Below `w - n` the bit comes from the right shift, from there on it wraps around. -/
theorem getLsbD_rotr_of_lt {n i : Nat} (hn : n < w) (hi : i < w) : (rotr n x).getLsbD i = x.getLsbD ((i + n) % w) := by
  rw [rotr_eq_rotateRight, BitVec.getLsbD_rotateRight_of_lt hn]
  by_cases hwrap : i < w - n
  · have hmod : (i + n) % w = n + i := by rw [Nat.mod_eq_of_lt (by omega), Nat.add_comm]
    simp [hwrap, hmod]
  · have hmod : (i + n) % w = i - (w - n) := by
      rw [Nat.mod_eq_sub_mod (by omega), Nat.mod_eq_of_lt (by omega)]
      omega
    simp [hwrap, hmod, hi]

end

/-- Settles O32, clause by clause from the equations of the two rotates. -/
theorem rotatesFollowTheRule : Obligations.RotatesFollowTheRule := by
  intro w n x
  refine ⟨fun hpos hlt => ⟨?shifts, ?leftByRight⟩, rotr_zero x, rotl_zero x, fun _ => ⟨?rightMod, ?leftMod⟩, fun i hi hn => ?bits⟩
  case shifts => exact rotr_of_pos_of_lt x hpos hlt
  case leftByRight => exact rotl_of_pos_of_lt x hpos hlt
  case rightMod => exact (rotr_mod x n).symm
  case leftMod => exact (rotl_mod x n).symm
  case bits => exact getLsbD_rotr_of_lt x hn hi

end Sys2Proof.Machine
end

section
/-! Each part of spec/10_state.md R43's header through its bytes and back, then the whole header; and the derived values of the power-on state
of spec/10_state.md R53. -/

namespace Sys2Proof.Machine

open Sys2Proof Sys2Proof.Safety

theorem leBytes_toNat {w : Nat} (x : BitVec w) (n : Nat) :
    leBytes n x.toNat = (List.range n).map (fun j => x.extractLsb' (8 * j) 8) := by
  apply List.ext_getElem
  · simp
  · intro j hj _
    have hbyte := leBytes_getD n x.toNat j (by simpa using hj)
    rw [List.getD_eq_getElem _ _ hj] at hbyte
    simp [hbyte, BitVec.extractLsb']

/-- A field of `n` whole bytes comes back from its header bytes. -/
theorem ofNat_leNat_leBytes {w n : Nat} (x : BitVec w) (hw : w = 8 * n) : BitVec.ofNat w (leNat (leBytes n x.toNat)) = x := by
  subst hw
  rw [leNat_leBytes, show (256 : Nat) = 2 ^ 8 from rfl, ← Nat.pow_mul, Nat.mod_eq_of_lt x.isLt, BitVec.ofNat_toNat, BitVec.setWidth_eq]

/-- Header bytes come back from the field they spell. -/
theorem leBytes_ofNat_leNat {w n : Nat} (s : List Byte) (hlen : s.length = n) (hw : w = 8 * n) :
    leBytes n (BitVec.ofNat w (leNat s)).toNat = s := by
  subst hlen
  have hlt : leNat s < 2 ^ w := by
    rw [hw, Nat.pow_mul]
    exact leNat_lt s
  rw [BitVec.toNat_ofNat, Nat.mod_eq_of_lt hlt, leBytes_leNat]

theorem headerBytes_eq (c : TreeParams) :
    headerBytes c =
      [c.digestLength, c.keyLength, c.treeDepth,
        c.leafLength.extractLsb' 0 8, c.leafLength.extractLsb' 8 8, c.leafLength.extractLsb' 16 8, c.leafLength.extractLsb' 24 8,
        c.parallelDegree, c.subTreeLength, c.nodeOffset,
        c.reserved1.extractLsb' 0 8, c.reserved1.extractLsb' 8 8,
        c.reserved2.extractLsb' 0 8, c.reserved2.extractLsb' 8 8, c.reserved2.extractLsb' 16 8, c.reserved2.extractLsb' 24 8] := by
  simp only [headerBytes, leBytes_toNat]
  rfl

theorem parseHeader_headerBytes (c : TreeParams) : parseHeader (headerBytes c) = c := by
  have hfields : parseHeader (headerBytes c) =
      { c with
        leafLength := BitVec.ofNat 32 (leNat (leBytes 4 c.leafLength.toNat))
        reserved1 := BitVec.ofNat 16 (leNat (leBytes 2 c.reserved1.toNat))
        reserved2 := BitVec.ofNat 32 (leNat (leBytes 4 c.reserved2.toNat)) } := rfl
  rw [hfields, ofNat_leNat_leBytes c.leafLength rfl, ofNat_leNat_leBytes c.reserved1 rfl, ofNat_leNat_leBytes c.reserved2 rfl]

theorem headerBytes_parseHeader (h : List Byte) (hlen : h.length = 16) : headerBytes (parseHeader h) = h := by
  have hleaf : leBytes 4 (parseHeader h).leafLength.toNat = slice h 3 4 :=
    leBytes_ofNat_leNat _ (by simp [slice_length, hlen]) rfl
  have hreserved1 : leBytes 2 (parseHeader h).reserved1.toNat = slice h 10 2 :=
    leBytes_ofNat_leNat _ (by simp [slice_length, hlen]) rfl
  have hreserved2 : leBytes 4 (parseHeader h).reserved2.toNat = slice h 12 4 :=
    leBytes_ofNat_leNat _ (by simp [slice_length, hlen]) rfl
  rw [headerBytes, hleaf, hreserved1, hreserved2]
  match h, hlen with
  | [_, _, _, _, _, _, _, _, _, _, _, _, _, _, _, _], _ => rfl

/-- Settles O47: the layout, then the field lemmas in both directions. -/
theorem headerRoundTrips : Obligations.HeaderRoundTrips :=
  ⟨fun c => ⟨headerBytes_eq c, parseHeader_headerBytes c⟩, headerBytes_parseHeader⟩

@[simp] theorem laneFileSize_powerOnHash (v : Variant) (p : Params) : laneFileSize (powerOnHash v p) = laneRegisters v p := by
  cases v <;> exact List.length_replicate

theorem everyLane_powerOnHash (v : Variant) (p : Params) : everyLane (fun A _ l => l = initLane A) (powerOnHash v p) := by
  cases v <;> exact fun _ _ hl => List.eq_of_mem_replicate (List.mem_of_getElem? hl)

@[simp] theorem State.powerOn_hash (v : Variant) (p : Params) : (State.powerOn v p).hash = powerOnHash v p := rfl

@[simp] theorem State.powerOn_laneCount (v : Variant) (p : Params) : (State.powerOn v p).laneCount = 1 := rfl

@[simp] theorem State.powerOn_variant (v : Variant) (p : Params) : (State.powerOn v p).variant = v := powerOnHash_variant v p

@[simp] theorem State.powerOn_capacity (v : Variant) (p : Params) : (State.powerOn v p).capacity = blockBytes v := by
  simp [State.capacity]

/-- Settles O57, value by value in the order of R53's table. -/
theorem powerOnValues : Obligations.PowerOnValues := by
  intro v p
  have hlanes : everyLane (fun A _ l => l.words = A.iv ∧ l.cntHi = 0 ∧ l.cntLo = 0) (State.powerOn v p).hash :=
    everyLane_imp (everyLane_powerOnHash v p) fun A k l _ hl => by simp [hl, initLane]
  refine ⟨State.powerOn_variant v p, rfl, ?laneFile, hlanes, ?buffer, rfl, rfl, rfl, ?config, rfl, rfl, rfl, rfl, rfl, rfl, rfl,
    State.powerOn_laneCount v p, ?capacity⟩
  case laneFile => rw [State.powerOn_hash, laneFileSize_powerOnHash]; cases v <;> rfl
  case buffer => cases v <;> rfl
  case config => cases v <;> rfl
  case capacity => cases v <;> exact State.powerOn_capacity _ p

end Sys2Proof.Machine
end

section
/-! The accesses the interface refuses (spec/20_memory.md R84 to R86): what they do comes down to `State.violation`. -/

namespace Sys2Proof.Machine

open Sys2Proof Sys2Proof.Safety

/-- HOSTVIOL is bit 15 of ERR_STICKY (spec/10_state.md R49). -/
theorem State.violation_eq (s : State) : s.violation = { s with errSticky := s.errSticky ||| 0x00008000#32 } := rfl

theorem State.hostRead_of_not_admitted {s : State} {a : Word32} {width : Nat} (hread : ¬ ReadAdmitted s.params a.toNat width) :
    s.hostRead a width = { s.violation with reads := 0 :: s.reads } := by
  have hnone : s.readValue a.toNat width = none := by
    rwa [← s.readValue_isSome, Option.not_isSome_iff_eq_none] at hread
  rw [State.hostRead, hnone]

theorem State.regWrite_of_not_writable (s : State) {offset : Nat} (v : Word32) (hoffset : ¬ writableReg offset) :
    s.regWrite offset v = s.violation := by
  obtain ⟨hcmd, hargOff, hargLen, hsticky⟩ : offset ≠ 0x04 ∧ offset ≠ 0x08 ∧ offset ≠ 0x0C ∧ offset ≠ 0x14 := by
    simpa only [writableReg, not_or] using hoffset
  simp only [State.regWrite]

theorem State.writeEffect_of_busy {s : State} (hbusy : s.busy = true) (a width : Nat) (v : Word32) :
    s.writeEffect a width v = s.violation := if_pos hbusy

/-- What `targetOf` lets through and `WriteAdmitted` does not is a read-only or reserved register. -/
theorem State.writeEffect_of_not_admitted {s : State} {a width : Nat} (v : Word32) (hwrite : ¬ WriteAdmitted s.params a width) :
    s.writeEffect a width v = s.violation := by
  cases hbusy : s.busy with
  | true => exact State.writeEffect_of_busy hbusy a width v
  | false =>
    simp only [State.writeEffect, hbusy, Bool.false_eq_true, if_false]
    split
    case h_1 offset htarget =>
      obtain ⟨rfl, rfl, -⟩ := targetOf_reg.1 htarget
      exact s.regWrite_of_not_writable v fun hreg => hwrite (.inl ⟨rfl, hreg⟩)
    case h_2 b htarget =>
      obtain ⟨-, hwindow⟩ := targetOf_window.1 htarget
      exact absurd (.inr hwindow) hwrite
    case h_3 => rfl

/-- Settles O48: a refused read and a refused or busy write both come to `State.violation`. -/
theorem refusedAccessOnlyFlags : Obligations.RefusedAccessOnlyFlags := by
  intro s a width v
  constructor
  · intro hread
    rw [State.hostRead_of_not_admitted hread, State.violation_eq]
  · intro hrefused
    have hdropped : s.writeEffect a.toNat width v = s.violation := by
      rcases hrefused with hwrite | hbusy
      · exact State.writeEffect_of_not_admitted v hwrite
      · exact State.writeEffect_of_busy hbusy a.toNat width v
    rw [State.hostWrite, hdropped, State.violation_eq]
    rfl

end Sys2Proof.Machine
end

section
/-! The reserved words of spec/30_encoding.md R128: the decoder's fields by the spec's bit numbers, which words it refuses, and what the engine
does with one that is issued (R129). -/

namespace Sys2Proof.Machine

open Sys2Proof Sys2Proof.Safety

theorem toNat_extractLsb'_eq_bits (x : Word32) (hi lo : Nat) : (x.extractLsb' lo (hi + 1 - lo)).toNat = bits x hi lo := by
  rw [BitVec.extractLsb'_toNat, Nat.shiftRight_eq_div_pow, bits]

theorem fieldOpc_eq_bits (w : Word32) : fieldOpc w = bits w 7 0 := toNat_extractLsb'_eq_bits w 7 0

theorem fieldImm_eq_bits (w : Word32) : fieldImm w = bits w 15 8 := toNat_extractLsb'_eq_bits w 15 8

theorem fieldRsv_eq_bits (w : Word32) : fieldRsv w = bits w 31 16 := toNat_extractLsb'_eq_bits w 31 16

theorem takesImm_eq_false {opc : Nat} : takesImm opc = false ↔ opc ≠ 0x04 ∧ opc ≠ 0x07 ∧ opc ≠ 0x08 := by
  simp [takesImm, and_assoc]

/-- Every assigned opcode selects a command, so the decoder's own opcode check is the only one that refuses an opcode. -/
theorem commandOf_ne_error {opc : Nat} (hassigned : opc ≤ 0x09) (imm : Nat) (e : DecodeError) : commandOf opc imm ≠ .error e := by
  intro herror
  interval_cases opc <;> cases herror

/-- A word is refused exactly when one of the three checks of spec/30_encoding.md R123 fails. -/
theorem decode_error_iff (w : Word32) :
    (∃ e, decode w = .error e) ↔
      fieldRsv w ≠ 0 ∨ 0x09 < fieldOpc w ∨ (fieldImm w ≠ 0 ∧ takesImm (fieldOpc w) = false) := by
  simp only [decode]
  split
  case isTrue hrsv => exact iff_of_true ⟨_, rfl⟩ (.inl hrsv)
  case isFalse hrsv =>
    split
    case isTrue hopc => exact iff_of_true ⟨_, rfl⟩ (.inr (.inl hopc))
    case isFalse hopc =>
      split
      case isTrue himm => exact iff_of_true ⟨_, rfl⟩ (.inr (.inr himm))
      case isFalse himm =>
        refine iff_of_false ?_ (by simp only [hrsv, hopc, himm, or_false, not_false_eq_true])
        rintro ⟨e, he⟩
        exact commandOf_ne_error (Nat.not_lt.1 hopc) _ e he

/-- Settles O3: the decoder's three checks, read by the spec's bit numbers. -/
theorem reservedWordsAreIllegal : Obligations.ReservedWordsAreIllegal := by
  intro w
  rw [decode_error_iff, takesImm_eq_false, fieldRsv_eq_bits, fieldOpc_eq_bits, fieldImm_eq_bits]
  exact or_left_comm

@[simp] theorem blankDatapath_withDatapath (f : {w : Nat} → Alg w → Datapath w) (b : HashBank) :
    blankDatapath (withDatapath f b) = blankDatapath b := by cases b <;> rfl

theorem State.blankDatapath_settle (s : State) : blankDatapath s.settle.hash = blankDatapath s.hash := by
  rw [State.settle_hash, blankDatapath_withDatapath]

theorem State.writeEffect_cmd {s : State} (hidle : s.busy = false) (w : Word32) : s.writeEffect 0x04 4 w = s.issue w := by
  have htarget : targetOf s.params 0x04 4 = some (.reg 0x04) := targetOf_reg.2 ⟨rfl, rfl, rfl, by decide⟩
  simp only [State.writeEffect, hidle, htarget, Bool.false_eq_true, if_false, State.regWrite]

/-- A CMD write to an idle engine issues the word (spec/10_state.md R46). -/
theorem State.hostWrite_cmd {s : State} (hidle : s.busy = false) (w : Word32) :
    s.hostWrite 0x00000004#32 4 w = (s.issue w).refresh :=
  congrArg State.refresh (State.writeEffect_cmd hidle w)

/-- The step of a CMD write on an idle engine. -/
theorem step_cmdWrite {s : State} {w : Word32} {rest : List Event} (hidle : s.busy = false)
    (hagenda : s.agenda = .write 0x00000004#32 4 w :: rest) : step s = .next ((s.setAgenda rest).issue w).refresh := by
  rw [step_write hagenda, State.hostWrite_cmd (s := s.setAgenda rest) hidle]

/-- The engine's turn on a reserved word ends as IllegalCommand (spec/30_encoding.md R129). -/
theorem step_illegalCommand {s : State} {rest : List Event} {e : DecodeError} (hturn : s.turn rest) (hbusy : s.busy = true)
    (hreserved : decode s.latch.word = .error e) : step s = .next ((s.setAgenda rest).raise .illegalCommand).settle := by
  rw [step_turn hturn, engineTurn_error (s := s.setAgenda rest) hbusy hreserved]

/-- IllegalCommand has code 7, so it sets bit 7 of ERR_STICKY (spec/60_exceptions.md R381). -/
theorem State.raise_illegalCommand_eq (s : State) :
    s.raise .illegalCommand = { s with busy := false, lastErr := 7, errSticky := s.errSticky ||| 0x00000080#32 } := rfl

/-- Settles O7: the write's step issues the word, the engine's step raises IllegalCommand and settles. -/
theorem reservedWordCompletesAsIllegalCommand : Obligations.ReservedWordCompletesAsIllegalCommand := by
  rintro s w rest hidle ⟨e, hreserved⟩ hagenda
  have hissue := step_cmdWrite hidle hagenda
  have hillegal : step ((s.setAgenda (.engine :: rest)).issue w).refresh = .next _ :=
    step_illegalCommand (.inr rfl) rfl hreserved
  refine ⟨_, _, hissue, rfl, hillegal, ?frame, ?datapath⟩
  case frame =>
    -- BUSY ends where it stood before the write, which the statement's record update leaves as `s.busy`.
    rw [State.raise_illegalCommand_eq, ← hidle]
    rfl
  case datapath => exact State.blankDatapath_settle _

end Sys2Proof.Machine
end

section
/-! The tables of spec/40_compression.md R166 to R168 as root fractions of the first primes (R169): the bounds of an integer root are the
library's, and each table is compared with the roots by evaluation. -/

namespace Sys2Proof.Machine

open Sys2Proof

/-- The primes below 410, as many as SHA512 has rounds. -/
def firstPrimes : List Nat :=
  [2, 3, 5, 7, 11, 13, 17, 19, 23, 29, 31, 37, 41, 43, 47, 53, 59, 61, 67, 71, 73, 79, 83, 89, 97, 101, 103, 107, 109, 113, 127, 131,
    137, 139, 149, 151, 157, 163, 167, 173, 179, 181, 191, 193, 197, 199, 211, 223, 227, 229, 233, 239, 241, 251, 257, 263, 269, 271,
    277, 281, 283, 293, 307, 311, 313, 317, 331, 337, 347, 349, 353, 359, 367, 373, 379, 383, 389, 397, 401, 409]

/-- The sieve by trial division with which R169's statement finds the primes. -/
theorem primesBelow410_eq_firstPrimes :
    (List.range 410).filter (fun n => decide (2 ≤ n) && (List.range n).all (fun d => decide (d < 2) || n % d != 0)) = firstPrimes := by
  decide +kernel

/-- The first `w` fractional bits of the `e`-th root of `p`. -/
def rootFraction (e w p : Nat) : Nat := Nat.nthRoot e (p * 2 ^ (e * w)) % 2 ^ w

theorem k256_cubeRoots : k256.map BitVec.toNat <+: firstPrimes.map (rootFraction 3 32) := by decide +kernel

theorem k512_cubeRoots : k512.map BitVec.toNat <+: firstPrimes.map (rootFraction 3 64) := by decide +kernel

theorem iv256_squareRoots : iv256.toList.map BitVec.toNat <+: firstPrimes.map (rootFraction 2 32) := by decide +kernel

theorem iv512_squareRoots : iv512.toList.map BitVec.toNat <+: firstPrimes.map (rootFraction 2 64) := by decide +kernel

/-- An entry of a table of root fractions has the integer root R169 names: Newton's root of `Nat.nthRoot`, with its two bounds. -/
theorem exists_floorRoot {e w t : Nat} {table : List (BitVec w)} (he : e ≠ 0)
    (htable : table.map BitVec.toNat <+: firstPrimes.map (rootFraction e w)) (ht : t < table.length) :
    ∃ q, q % 2 ^ w = (table.getD t 0).toNat ∧
      q ^ e ≤ firstPrimes.getD t 0 * 2 ^ (e * w) ∧ firstPrimes.getD t 0 * 2 ^ (e * w) < (q + 1) ^ e := by
  refine ⟨Nat.nthRoot e (firstPrimes.getD t 0 * 2 ^ (e * w)), ?fraction, ?lower, ?upper⟩
  case fraction =>
    have hprime : t < firstPrimes.length := ht.trans_le (by simpa using htable.length_le)
    have hentry := htable.getElem (List.length_map BitVec.toNat ▸ ht)
    rw [List.getElem_map, List.getElem_map] at hentry
    rw [List.getD_eq_getElem _ _ ht, List.getD_eq_getElem _ _ hprime, hentry, rootFraction]
  case lower => exact Nat.pow_nthRoot_le_iff.2 (.inl he)
  case upper => exact Nat.lt_pow_nthRoot_add_one he _

/-- Settles O37, table by table. -/
theorem constantsAreRootsOfPrimes : Obligations.ConstantsAreRootsOfPrimes := by
  unfold Obligations.ConstantsAreRootsOfPrimes
  rw [primesBelow410_eq_firstPrimes]
  exact ⟨fun _ => exists_floorRoot (by decide) k256_cubeRoots, fun _ => exists_floorRoot (by decide) k512_cubeRoots,
    fun _ => exists_floorRoot (by decide) iv256_squareRoots, fun _ => exists_floorRoot (by decide) iv512_squareRoots⟩

end Sys2Proof.Machine
end

section
/-! The big-endian words of spec/00_scope.md R12: the fold of the model's codec is the rule's sum. -/

namespace Sys2Proof.Machine

open Sys2Proof Sys2Proof.Safety

theorem beNat_concat (s : List Byte) (x : Byte) : beNat (s ++ [x]) = beNat s * 256 + x.toNat := by simp [beNat]

theorem beNat_eq_sum (s : List Byte) :
    beNat s = ((List.range s.length).map (fun j => (s.getD j 0).toNat * 2 ^ (8 * (s.length - 1 - j)))).sum := by
  induction s using List.reverseRecOn with
  | nil => rfl
  | append_singleton s x ih =>
    have hshift : ∀ j ∈ List.range s.length, (s.getD j 0).toNat * 2 ^ (8 * (s.length - 1 - j)) * 256 =
        ((s ++ [x]).getD j 0).toNat * 2 ^ (8 * (s.length - j)) := by
      intro j hj
      have hlt : j < s.length := List.mem_range.1 hj
      rw [List.getD_append _ _ _ _ hlt, mul_assoc, show 256 = 2 ^ 8 from rfl, ← pow_add]
      congr 2
      omega
    rw [beNat_concat, ih, ← List.sum_map_mul_right, List.map_congr_left hshift]
    simp [List.range_succ]

theorem beWord_eq_refWord {w i : Nat} {blk : List Byte} (hin : i + w / 8 ≤ blk.length) : beWord w blk i = refWord w blk i := by
  have hlen : (slice blk i (w / 8)).length = w / 8 := by
    rw [slice_length]
    omega
  have hbyte : ∀ j ∈ List.range (w / 8), ((slice blk i (w / 8)).getD j 0).toNat * 2 ^ (8 * (w / 8 - 1 - j)) =
      (blk.getD (i + j) 0).toNat * 2 ^ (8 * (w / 8 - 1 - j)) := by
    intro j hj
    simp [slice, List.getElem?_take_of_lt (List.mem_range.1 hj)]
  rw [beWord, beNat_eq_sum, hlen, List.map_congr_left hbyte, refWord]

end Sys2Proof.Machine
end

section
/-! The model's message schedule word by word: the sliding window (spec/40_compression.md R176) follows the recurrence over the whole list
(R171). -/

namespace Sys2Proof.Machine

open Sys2Proof Sys2Proof.Safety

section
variable {w : Nat} (A : Alg w)

@[simp] theorem extend_length (n : Nat) (window : List (BitVec w)) : (extend A n window).length = n := by
  induction n generalizing window with
  | zero => rfl
  | succ n ih => simp [extend, ih]

@[simp] theorem loadBlock_length (w : Nat) (blk : List Byte) : (loadBlock w blk).length = 16 := by simp [loadBlock]

theorem loadBlock_getD (w : Nat) (blk : List Byte) {i : Nat} (hi : i < 16) :
    (loadBlock w blk).getD i 0 = beWord w blk (i * (w / 8)) := by
  simp [loadBlock, hi]

theorem nextWord_drop (ws : List (BitVec w)) (i : Nat) :
    nextWord A (ws.drop i) =
      ws.getD i 0 + smallSigma A.smallSigma0 (ws.getD (i + 1) 0) + ws.getD (i + 9) 0 + smallSigma A.smallSigma1 (ws.getD (i + 14) 0) := by
  simp [nextWord]

theorem nextWord_append {window : List (BitVec w)} (hwindow : window.length = 16) (ws : List (BitVec w)) :
    nextWord A (window ++ ws) = nextWord A window := by
  simp only [nextWord]
  rw [List.getD_append _ _ _ _ (by omega), List.getD_append _ _ _ _ (by omega), List.getD_append _ _ _ _ (by omega),
    List.getD_append _ _ _ _ (by omega)]

/-- Each word of the extension is the next word of the sixteen before it, wherever in the list they stand. -/
theorem window_append_extend_getD {n i : Nat} (hi : i < n) {window : List (BitVec w)} (hwindow : window.length = 16) :
    (window ++ extend A n window).getD (i + 16) 0 = nextWord A ((window ++ extend A n window).drop i) := by
  induction i generalizing n window with
  | zero =>
    obtain ⟨n, rfl⟩ := Nat.exists_eq_add_one.2 hi
    rw [List.drop_zero, nextWord_append A hwindow, List.getD_append_right _ _ _ _ (by omega)]
    simp [extend, hwindow]
  | succ i ih =>
    obtain ⟨n, rfl⟩ := Nat.exists_eq_add_one.2 (Nat.zero_lt_of_lt hi)
    obtain ⟨x, xs, rfl⟩ := List.exists_cons_of_length_eq_add_one hwindow
    have hslid := ih (n := n) (by omega) (window := xs ++ [nextWord A (x :: xs)]) (by simpa using hwindow)
    simpa [extend, Nat.add_right_comm] using hslid

theorem sixteen_le_rounds (v : Variant) : 16 ≤ rounds v := by cases v <;> decide

@[simp] theorem schedule_length (blk : List Byte) : (schedule A blk).length = rounds A.variant := by
  simp [schedule, Nat.add_sub_cancel' (sixteen_le_rounds A.variant)]

theorem schedule_take_sixteen (blk : List Byte) : (schedule A blk).take 16 = loadBlock w blk := by
  simp [schedule]

theorem schedule_getD_block (blk : List Byte) {i : Nat} (hi : i < 16) :
    (schedule A blk).getD i 0 = beWord w blk (i * (w / 8)) := by
  rw [schedule, List.getD_append _ _ _ _ (by simpa using hi), loadBlock_getD w blk hi]

theorem schedule_getD_later (blk : List Byte) {i : Nat} (hlo : 16 ≤ i) (hhi : i < rounds A.variant) :
    (schedule A blk).getD i 0 =
      (schedule A blk).getD (i - 16) 0 + smallSigma A.smallSigma0 ((schedule A blk).getD (i - 15) 0) +
        (schedule A blk).getD (i - 7) 0 + smallSigma A.smallSigma1 ((schedule A blk).getD (i - 2) 0) := by
  obtain ⟨j, rfl⟩ := Nat.exists_eq_add_of_le' hlo
  have hword := window_append_extend_getD A (i := j) (n := rounds A.variant - 16) (by omega) (loadBlock_length w blk)
  rw [nextWord_drop] at hword
  exact hword

end

end Sys2Proof.Machine
end

section
/-! The model's transform against the reference of Safety.lean, for any constants that agree: byte order, schedule, rounds, feed-forward
(spec/40_compression.md R163 to R165, R170 to R173). -/

namespace Sys2Proof.Machine

open Sys2Proof Sys2Proof.Safety

theorem bigSigma_eq_rotateRight {w : Nat} (n : Nat × Nat × Nat) (x : BitVec w) :
    bigSigma n x = x.rotateRight n.1 ^^^ x.rotateRight n.2.1 ^^^ x.rotateRight n.2.2 := by
  simp only [bigSigma, rotr_eq_rotateRight]

theorem smallSigma_eq_rotateRight {w : Nat} (n : Nat × Nat × Nat) (x : BitVec w) :
    smallSigma n x = x.rotateRight n.1 ^^^ x.rotateRight n.2.1 ^^^ x >>> n.2.2 := by
  simp only [smallSigma, rotr_eq_rotateRight, shr]

/-- The reference's numbers, functions and tables are those the model's constants give. -/
structure Agrees {w : Nat} (A : Alg w) (R : Reference w) : Prop where
  block : R.block = 16 * (w / 8)
  rounds : R.rounds = rounds A.variant
  bigSigma0 : ∀ x, R.bigSigma0 x = bigSigma A.bigSigma0 x
  bigSigma1 : ∀ x, R.bigSigma1 x = bigSigma A.bigSigma1 x
  smallSigma0 : ∀ x, R.smallSigma0 x = smallSigma A.smallSigma0 x
  smallSigma1 : ∀ x, R.smallSigma1 x = smallSigma A.smallSigma1 x
  k : R.k = A.roundConstants
  k_length : R.k.length = R.rounds

theorem alg256_agrees : Agrees alg256 fips256 where
  block := rfl
  rounds := rfl
  bigSigma0 x := (bigSigma_eq_rotateRight alg256.bigSigma0 x).symm
  bigSigma1 x := (bigSigma_eq_rotateRight alg256.bigSigma1 x).symm
  smallSigma0 x := (smallSigma_eq_rotateRight alg256.smallSigma0 x).symm
  smallSigma1 x := (smallSigma_eq_rotateRight alg256.smallSigma1 x).symm
  k := rfl
  k_length := rfl

theorem alg512_agrees : Agrees alg512 fips512 where
  block := rfl
  rounds := rfl
  bigSigma0 x := (bigSigma_eq_rotateRight alg512.bigSigma0 x).symm
  bigSigma1 x := (bigSigma_eq_rotateRight alg512.bigSigma1 x).symm
  smallSigma0 x := (smallSigma_eq_rotateRight alg512.smallSigma0 x).symm
  smallSigma1 x := (smallSigma_eq_rotateRight alg512.smallSigma1 x).symm
  k := rfl
  k_length := rfl

section
variable {w : Nat} {A : Alg w} {R : Reference w} (h : Agrees A R)
include h

theorem Agrees.schedule_getD_later (blk : List Byte) {i : Nat} (hlo : 16 ≤ i) (hhi : i < R.rounds) :
    (schedule A blk).getD i 0 =
      (schedule A blk).getD (i - 16) 0 + R.smallSigma0 ((schedule A blk).getD (i - 15) 0) +
        (schedule A blk).getD (i - 7) 0 + R.smallSigma1 ((schedule A blk).getD (i - 2) 0) := by
  rw [h.smallSigma0, h.smallSigma1]
  exact Machine.schedule_getD_later A blk hlo (h.rounds ▸ hhi)

/-- All sixteen words of a whole block lie inside it. -/
theorem Agrees.beWord_eq_refWord {blk : List Byte} (hblk : blk.length = R.block) {i : Nat} (hi : i < 16) :
    beWord w blk (i * (w / 8)) = refWord w blk (i * (w / 8)) := by
  refine Machine.beWord_eq_refWord ?_
  rw [hblk, h.block, ← Nat.succ_mul]
  exact Nat.mul_le_mul_right _ hi

theorem Agrees.schedule_getD_refWord {blk : List Byte} (hblk : blk.length = R.block) {i : Nat} (hi : i < 16) :
    (schedule A blk).getD i 0 = refWord w blk (i * (w / 8)) := by
  rw [schedule_getD_block A blk hi, h.beWord_eq_refWord hblk hi]

/-- The reference's growing list is at every length the start of the model's schedule. -/
theorem Agrees.schedule_eq_take {blk : List Byte} (hblk : blk.length = R.block) {n : Nat} (hn : 16 + n ≤ R.rounds) :
    R.schedule blk n = (schedule A blk).take (16 + n) := by
  induction n with
  | zero =>
    rw [Nat.add_zero, schedule_take_sixteen, Reference.schedule, loadBlock]
    exact List.map_congr_left fun i hi => (h.beWord_eq_refWord hblk (List.mem_range.1 hi)).symm
  | succ n ih =>
    have hlt : 16 + n < (schedule A blk).length := by rw [schedule_length, ← h.rounds]; omega
    have hprefix : ∀ j, j < 16 + n → (List.take (16 + n) (schedule A blk)).getD j 0 = (schedule A blk).getD j 0 := by
      intro j hj
      simp only [List.getD_eq_getElem?_getD, List.getElem?_take_of_lt hj]
    rw [Reference.schedule, ih (by omega)]
    simp (disch := omega) only [hprefix]
    rw [← h.schedule_getD_later blk (by omega) (by omega), List.getD_eq_getElem _ _ hlt,
      List.take_append_getElem hlt, Nat.add_assoc]

theorem Agrees.roundStep_eq_round (v : Words w) (kt wt : BitVec w) : roundStep A v (kt, wt) = R.round kt wt v := by
  simp only [roundStep, roundT1, roundT2, ch, maj, Reference.round, h.bigSigma0, h.bigSigma1]

/-- The fold over the table and the schedule, cut off after `t` rounds. -/
theorem Agrees.foldl_take_eq_working {ws : List (BitVec w)} (hws : ws.length = R.rounds) (v : Words w) {t : Nat} (ht : t ≤ R.rounds) :
    ((A.roundConstants.zip ws).take t).foldl (roundStep A) v = R.working ws v t := by
  induction t with
  | zero => rfl
  | succ t ih =>
    have hkt : t < R.k.length := by rw [h.k_length]; omega
    have hwt : t < ws.length := by omega
    rw [← h.k] at ih ⊢
    rw [← List.take_append_getElem (by simp; omega), List.foldl_append, ih (by omega), Reference.working,
      List.getD_eq_getElem _ _ hkt, List.getD_eq_getElem _ _ hwt, List.getElem_zip]
    exact h.roundStep_eq_round _ _ _

theorem Agrees.runRounds_eq_working {ws : List (BitVec w)} (hws : ws.length = R.rounds) (v : Words w) :
    runRounds A v ws = R.working ws v R.rounds := by
  rw [← h.foldl_take_eq_working hws v le_rfl, List.take_of_length_le, runRounds]
  simp [← h.k, h.k_length]

theorem Agrees.transform_eq (hash : Words w) {blk : List Byte} (hblk : blk.length = R.block) :
    transform A hash blk = R.transform hash blk := by
  have hrounds : 16 + (R.rounds - 16) = R.rounds := by
    rw [h.rounds]
    exact Nat.add_sub_cancel' (sixteen_le_rounds A.variant)
  have hlen : (schedule A blk).length = R.rounds := by rw [schedule_length, h.rounds]
  have hsched : R.schedule blk (R.rounds - 16) = schedule A blk := by
    rw [h.schedule_eq_take hblk hrounds.le, hrounds, List.take_of_length_le hlen.le]
  rw [transform, h.runRounds_eq_working hlen, Reference.transform, hsched]
  rfl

end

/-- Settles O33: the schedule's words come from the model's window, and the transform is the reference's because the constants agree. -/
theorem scheduleFollowsTheRecurrence : Obligations.ScheduleFollowsTheRecurrence := by
  refine ⟨fun blk => ⟨schedule_length alg256 blk, fun i hi => ?block256, fun i => alg256_agrees.schedule_getD_later blk⟩,
    fun hash blk hblk => ⟨fun i hi => ?refBlock256, alg256_agrees.transform_eq hash hblk⟩,
    fun blk => ⟨schedule_length alg512 blk, fun i hi => ?block512, fun i => alg512_agrees.schedule_getD_later blk⟩,
    fun hash blk hblk => ⟨fun i hi => ?refBlock512, alg512_agrees.transform_eq hash hblk⟩⟩
  case block256 => rw [Nat.mul_comm]; exact schedule_getD_block alg256 blk hi
  case refBlock256 => rw [Nat.mul_comm]; exact alg256_agrees.schedule_getD_refWord hblk hi
  case block512 => rw [Nat.mul_comm]; exact schedule_getD_block alg512 blk hi
  case refBlock512 => rw [Nat.mul_comm]; exact alg512_agrees.schedule_getD_refWord hblk hi

end Sys2Proof.Machine
end

section
/-! A decoded word's fields (spec/30_encoding.md R120, R121), and the restart of the stream (spec/41_streaming.md R234, R236). -/

namespace Sys2Proof.Machine

open Sys2Proof Sys2Proof.Safety

/-- The opcode selects the command's constructor; the immediate, wherever it is not 0, is the one a command with an operand carries. -/
theorem opcode_immediate_of_commandOf {opc imm : Nat} {i : Instr} (h : commandOf opc imm = .ok i)
    (himm : takesImm opc = false → imm = 0) : opc = opcode i ∧ imm = immediate i := by
  unfold commandOf at h
  split at h <;> cases h
  case h_5 | h_8 | h_9 => exact ⟨rfl, rfl⟩
  all_goals exact ⟨rfl, himm rfl⟩

/-- The fields of a word that decodes. -/
theorem fields_of_decode {w : Word32} {i : Instr} (h : decode w = .ok i) :
    fieldOpc w = opcode i ∧ fieldImm w = immediate i ∧ fieldRsv w = 0 := by
  simp only [decode] at h
  split_ifs at h with hrsv hopc himm
  obtain ⟨hopcode, himmediate⟩ := opcode_immediate_of_commandOf h fun hnone => by_contra fun hne => himm ⟨hne, hnone⟩
  exact ⟨hopcode, himmediate, not_not.1 hrsv⟩

/-- A word is spelled out by its three fields. -/
theorem eq_of_fields_eq {w x : Word32} (hopc : fieldOpc w = fieldOpc x) (himm : fieldImm w = fieldImm x) (hrsv : fieldRsv w = fieldRsv x) :
    w = x := by
  rw [fieldOpc_eq_bits, fieldOpc_eq_bits] at hopc
  rw [fieldImm_eq_bits, fieldImm_eq_bits] at himm
  rw [fieldRsv_eq_bits, fieldRsv_eq_bits] at hrsv
  simp only [bits] at hopc himm hrsv
  have hw := w.isLt
  have hx := x.isLt
  apply BitVec.eq_of_toNat_eq
  omega

/-- Two words that decode to one command are the same word. -/
theorem decode_injective {w x : Word32} {i : Instr} (hw : decode w = .ok i) (hx : decode x = .ok i) : w = x := by
  obtain ⟨hopc, himm, hrsv⟩ := fields_of_decode hw
  obtain ⟨hopc', himm', hrsv'⟩ := fields_of_decode hx
  exact eq_of_fields_eq (hopc.trans hopc'.symm) (himm.trans himm'.symm) (hrsv.trans hrsv'.symm)

theorem State.resetStream_hash_eq (s : State) : s.resetStream.hash = mapBank (fun A _ _ => initLane A) s.hash := by
  rw [State.resetStream_hash, onLanes_init]

theorem State.resetStream_restarts (s : State) : StreamRestarted s s.resetStream :=
  ⟨s.resetStream_hash_eq ▸ lanesRelated_mapBank fun _ _ _ _ => rfl, rfl, rfl, rfl, rfl⟩

theorem State.hiddenParts_resetStream (s : State) : hiddenParts s.resetStream.hash = hiddenParts s.hash := by
  rw [s.resetStream_hash_eq, hiddenParts_mapBank]

/-- Settles O13: RESET has no check to fail, and its effect is the restart of the stream. -/
theorem resetRestartsTheStream : Obligations.ResetRestartsTheStream := by
  have hword : decode 0x00000001#32 = .ok .reset := by decide
  refine ⟨fun w => ⟨fun h => decode_injective h hword, fun h => h ▸ hword⟩, fun s => ?_⟩
  exact ⟨s.resetStream.complete, exec_of_ok rfl, s.resetStream_restarts, rfl, rfl, rfl, rfl, rfl, rfl, s.hiddenParts_resetStream,
    rfl, rfl, rfl, rfl, rfl, rfl, rfl, rfl, rfl⟩

end Sys2Proof.Machine
end

section
/-! The streaming state after a command (spec/41_streaming.md R235): what each effect leaves in FSM, and that an error leaves it alone. -/

namespace Sys2Proof.Machine

open Sys2Proof Sys2Proof.Safety

theorem State.absorb_fsm (s : State) (src : List Byte) : (s.absorb src).fsm = if src = [] then s.fsm else .buffering := by
  simp only [State.absorb]
  split
  · rfl
  · split
    · simp [State.absorbOverflow]
    · rfl

theorem State.memRead_eq_nil {s : State} {o n : Nat} : s.memRead o n = [] ↔ n = 0 := by simp [State.memRead]

/-- FSM after a successful command (spec/41_streaming.md R235). -/
def fsmAfter (i : Instr) (s : State) : Fsm :=
  match i with
  | .update => if s.length = 0 then s.fsm else .buffering
  | .finalize | .reset | .loadhdr | .setdeg _ => .empty
  | .wipe => .wiped
  | .nop | .compress _ | .storehdr | .readlane _ => s.fsm

theorem effect_fsm (i : Instr) (s : State) : (effect i s).fsm = fsmAfter i s := by
  cases i with
  | update => simp only [effect, fsmAfter, State.absorb_fsm, State.memRead_eq_nil]
  | nop | reset | finalize | compress k | loadhdr | storehdr | setdeg n | readlane k | wipe => rfl

theorem State.raise_lastErr_ne_zero {s : State} {i : Instr} {e : ErrorKind} (h : firstError i s = some e) : (s.raise e).lastErr ≠ 0 := by
  obtain ⟨hlo, hhi⟩ := firstError_code h
  rw [State.raise_lastErr]
  intro h0
  have hcode := congrArg BitVec.toNat h0
  rw [BitVec.toNat_ofNat, Nat.mod_eq_of_lt (by omega)] at hcode
  change errorCode e = 0 at hcode
  omega

/-- What LAST_ERR says about the streaming state a command leaves. -/
theorem exec_fsm {i : Instr} {s t : State} (h : exec i s = .next t) :
    (t.lastErr ≠ 0 ∧ t.fsm = s.fsm) ∨ (t.lastErr = 0 ∧ t.fsm = fsmAfter i s) := by
  rcases exec_next h with ⟨e, he, rfl⟩ | ⟨-, rfl⟩
  · exact .inl ⟨State.raise_lastErr_ne_zero he, rfl⟩
  · exact .inr ⟨rfl, effect_fsm i s⟩

/-- Settles O30: an error keeps FSM, and the clauses for a success are the rows of `fsmAfter`. -/
theorem streamingStateTransitions : Obligations.StreamingStateTransitions := by
  intro i s t h
  rcases exec_fsm h with ⟨herr, hfsm⟩ | ⟨hok, hfsm⟩
  · exact ⟨fun _ => hfsm, fun h0 => absurd h0 herr⟩
  · refine ⟨fun hne => absurd hok hne, fun _ => ⟨?some, ?none, ?finalize, ?restart, ?wipe, ?keep⟩⟩ <;> rw [hfsm]
    case some => rintro rfl hlen -; exact if_neg hlen
    case none => rintro rfl hlen; exact if_pos hlen
    case finalize => rintro rfl; rfl
    case restart => rintro (rfl | rfl | ⟨n, rfl⟩) <;> rfl
    case wipe => rintro rfl; rfl
    case keep => rintro (rfl | ⟨k, rfl⟩ | ⟨k, rfl⟩ | rfl) <;> rfl

end Sys2Proof.Machine
end

section
/-! The byte counter (spec/41_streaming.md R221) and the length field as the limbs of an increased lane (R232), in the byte order of
Safety.lean. -/

namespace Sys2Proof.Machine

open Sys2Proof Sys2Proof.Safety

/-- Settles O34: the counter's law, at the counts a command can have. -/
theorem increaseCountsBytes : Obligations.IncreaseCountsBytes := by
  intro w n l hl hn
  obtain ⟨htotal, hlo⟩ := increaseLane_total hl (hn.trans (by decide))
  exact ⟨htotal, hlo, rfl⟩

/-- The codec's big-endian bytes are the reference's. -/
theorem beBytes_eq_refBytes (n x : Nat) : beBytes n x = refBytes n x := by
  induction n with
  | zero => rfl
  | succ n ih =>
    rw [beBytes, ih, refBytes, refBytes, List.range_succ_eq_map, List.map_cons, List.map_map, Nat.shiftRight_eq_div_pow]
    congr 1
    apply List.map_congr_left
    intro j _
    simp only [Function.comp_apply]
    congr 4
    omega

/-- The length field is eight times TOTAL of the lane increased by the tail's length. -/
theorem lengthField_eq_increaseLane {w : Nat} (A : Alg w) {l : Lane w} {tail : List Byte} (hl : l.cntLo.toNat < 2 ^ 61)
    (htail : tail.length < 2 ^ 62) :
    lengthField A l tail = beBytes (lengthBytes A.variant) (8 * laneTotal (increaseLane l tail.length)) := by
  have htotal := (increaseLane_total hl htail).1
  have hfield : lengthField A l tail = lengthField A (increaseLane l tail.length) [] :=
    lengthField_eq A _ _ _ _ (by rw [htotal, List.length_nil, Nat.add_zero, Nat.mod_mod])
  rw [hfield, lengthField, List.length_nil, Nat.add_zero]

/-- Eight times TOTAL is CNT_HI above the 64 bits of 8 · CNT_LO. -/
theorem eight_mul_laneTotal {w : Nat} {l : Lane w} : 8 * laneTotal l = 8 * l.cntLo.toNat + 256 ^ 8 * l.cntHi.toNat := by
  rw [laneTotal]
  omega

/-- The low eight bytes do not see CNT_HI. -/
theorem beBytes_eight_mul_laneTotal {w : Nat} (l : Lane w) : beBytes 8 (8 * laneTotal l) = beBytes 8 (8 * l.cntLo.toNat) := by
  rw [← beBytes_mod 8 _ 8 le_rfl, eight_mul_laneTotal, Nat.add_mul_mod_self_left, beBytes_mod 8 _ 8 le_rfl]

/-- With CNT_LO below 2^61 the eight bytes above are CNT_HI. -/
theorem eight_mul_laneTotal_shiftRight {w : Nat} {l : Lane w} (hl : l.cntLo.toNat < 2 ^ 61) :
    (8 * laneTotal l) >>> (8 * 8) = l.cntHi.toNat := by
  rw [Nat.shiftRight_eq_div_pow, eight_mul_laneTotal]
  omega

/-- Settles O35: eight times the increased lane's TOTAL splits at 64 bits into the two limbs. -/
theorem lengthFieldIsTheLimbs : Obligations.LengthFieldIsTheLimbs := by
  constructor
  · intro l tail hl htail
    have hlo := (increaseLane_total (n := tail.length) hl (by omega)).2
    rw [lengthField_eq_increaseLane alg512 hl (by omega), ← beBytes_eq_refBytes, ← beBytes_eq_refBytes,
      ← eight_mul_laneTotal_shiftRight hlo, ← beBytes_eight_mul_laneTotal]
    exact beBytes_append 8 8 _
  · intro l tail hl htail
    rw [lengthField_eq_increaseLane alg256 hl (by omega), ← beBytes_eq_refBytes]
    exact beBytes_eight_mul_laneTotal _

end Sys2Proof.Machine
end

section
/-! The stream after any UPDATEs (spec/41_streaming.md R225, R226): how far it has flushed, and why the digest does not depend on that. -/

namespace Sys2Proof.Machine

open Sys2Proof Sys2Proof.Safety

section
variable {s t u : State} {m : List Byte} {q r : Nat}

/-- The two pairs (q, MLEN) of spec/41_streaming.md R225. -/
theorem Absorbed.flushed_or_full (a : Absorbed s m q t) (hfits : BufferFits s) (hempty : s.mlen = 0) :
    (q = m.length / s.capacity ∧ t.mlen = m.length % s.capacity) ∨
      (0 < m.length ∧ m.length % s.capacity = 0 ∧ q + 1 = m.length / s.capacity ∧ t.mlen = s.capacity) := by
  have hpos := hfits.positive
  have hcount : t.mlen + s.capacity * q = m.length := by
    have := a.count
    rwa [hempty, Nat.zero_add, Nat.mul_comm] at this
  have hheld : t.mlen ≤ s.capacity := a.capacity ▸ (a.fits hfits).held
  rcases hheld.lt_or_eq with hlt | hfull
  · left
    rw [← hcount, Nat.add_mul_div_left _ _ hpos, Nat.add_mul_mod_self_left, Nat.div_eq_of_lt hlt, Nat.mod_eq_of_lt hlt, Nat.zero_add]
    exact ⟨rfl, rfl⟩
  · right
    rw [← hcount, Nat.add_mul_div_left _ _ hpos, Nat.add_mul_mod_self_left, hfull, Nat.div_self hpos, Nat.mod_self, Nat.add_comm 1 q]
    exact ⟨by omega, rfl, rfl, rfl⟩

/-- How many segments are flushed is settled but for one, which the buffer may still hold in full. -/
theorem Absorbed.le_succ (a : Absorbed s m q t) (b : Absorbed s m r u) (hfits : BufferFits s) : q ≤ r + 1 :=
  Nat.le_of_mul_le_mul_right (a.low.trans b.high) hfits.positive

/-- Which path FINALIZE takes depends on the length absorbed alone. -/
theorem Absorbed.takesTree (a : Absorbed s m q t) :
    t.takesTree = (s.parallel && (s.reached || decide (s.capacity ≤ s.mlen + m.length))) := by
  have hlow := a.low
  have hcount := a.count
  rw [State.takesTree, a.parallel, a.reached, a.capacity]
  rcases Nat.eq_zero_or_pos q with rfl | hq
  · simp [show t.mlen = s.mlen + m.length by omega]
  · have hseg : s.capacity ≤ q * s.capacity := Nat.le_mul_of_pos_left _ hq
    cases s.parallel <;> simp [hq, show s.capacity ≤ s.mlen + m.length by omega]

theorem Absorbed.demotes_eq (a : Absorbed s m q t) (b : Absorbed s m r u) : t.demotes = u.demotes := by
  rw [State.demotes, State.demotes, a.takesTree, b.takesTree, a.parallel, b.parallel]

end

/-- The digest of lane k of n when q segments of C = `c` bytes of `m` are flushed and the rest is its tail. -/
def laneDigest (n c q : Nat) (m : List Byte) {w : Nat} (A : Alg w) (k : Nat) (l : Lane w) : List Byte :=
  laneFinal A (flushLane n c q m A k l) (slice m (q * c + k * blockBytes A.variant) (blockBytes A.variant))

/-- A lane that still holds its block of the last whole segment finishes as it does after flushing it: LaneFinal takes a full tail for a
message block (spec/41_streaming.md R226). -/
theorem laneDigest_succ {n c q k w : Nat} {m : List Byte} (A : Alg w) {l : Lane w} (hl : l.cntLo.toNat < 2 ^ 61) (hk : k < n)
    (hc : n * blockBytes A.variant = c) (hm : m.length = (q + 1) * c) : laneDigest n c (q + 1) m A k l = laneDigest n c q m A k l := by
  have hk' : (k + 1) * blockBytes A.variant ≤ c := hc ▸ Nat.mul_le_mul_right _ hk
  rw [Nat.add_mul, Nat.one_mul] at hk' hm
  have hfull : (slice m (q * c + k * blockBytes A.variant) (blockBytes A.variant)).length = blockBytes A.variant := by
    rw [slice_length]
    omega
  have hnone : slice m ((q + 1) * c + k * blockBytes A.variant) (blockBytes A.variant) = [] := by
    rw [← List.length_eq_zero_iff, slice_length, Nat.add_mul, Nat.one_mul]
    omega
  rw [laneDigest, laneDigest, hnone, flushLane_succ n c q m A k l hk, laneFinal_full A (flushLane_count n c q m A k hl) hfull]

/-- Values read off two passes over one lane file are equal if they are for every lane file of its variant, its size and its lanes'
properties. -/
theorem fromLanes_mapBank_congr {α : Type} {F G : {w : Nat} → Alg w → List (Lane w) → α}
    {f g : {w : Nat} → Alg w → Nat → Lane w → Lane w} {P : {w : Nat} → Alg w → Nat → Lane w → Prop} {b : HashBank} (hP : everyLane P b)
    (h : ∀ {w : Nat} (A : Alg w) (lanes : List (Lane w)), A.variant = b.variant → lanes.length = laneFileSize b →
      (∀ k l, lanes[k]? = some l → P A k l) → F A (lanes.mapIdx (f A)) = G A (lanes.mapIdx (g A))) :
    fromLanes F (mapBank f b) = fromLanes G (mapBank g b) := by
  cases b with
  | sha256 unit => exact h alg256 unit.lanes rfl rfl hP
  | sha512 unit => exact h alg512 unit.lanes rfl rfl hP

theorem getElem?_eq_some_laneAt {w : Nat} (A : Alg w) {lanes : List (Lane w)} {k : Nat} (hk : k < lanes.length) :
    lanes[k]? = some (laneAt A lanes k) := by
  rw [laneAt, List.getD_eq_getElem _ _ hk, List.getElem?_eq_getElem hk]

section
variable {s t u : State} {m : List Byte} {q : Nat}

theorem Absorbed.digest_eq_of_same (a : Absorbed s m q t) (b : Absorbed s m q u) : t.digest = u.digest := by
  have hhash : t.hash = u.hash := a.hash.trans b.hash.symm
  have hheld : t.buffered = u.buffered := a.held.trans b.held.symm
  have hcfg : t.cfg = u.cfg := a.cfg.trans b.cfg.symm
  have hcount : t.laneCount = u.laneCount := a.laneCount.trans b.laneCount.symm
  rw [State.digest, State.digest, a.takesTree, b.takesTree, State.treeFinal, State.treeFinal, State.seqFinal, State.seqFinal,
    hhash, hheld, hcfg, hcount]

/-- The lane hashes of a stream, in the bytes it started with. -/
theorem Absorbed.laneHashes_eq (a : Absorbed s m q t) {w : Nat} (A : Alg w) {lanes : List (Lane w)} (hn : s.laneCount ≤ lanes.length) :
    laneHashes A t.laneCount t.buffered (lanes.mapIdx (flushLane s.laneCount s.capacity q (s.buffered ++ m) A)) =
      (List.range s.laneCount).map
        (fun k => laneDigest s.laneCount s.capacity q (s.buffered ++ m) A k (laneAt A lanes k)) := by
  rw [Machine.laneHashes_eq A _ _ _ (by rwa [a.laneCount, List.length_mapIdx]), a.laneCount, a.held]
  apply List.map_congr_left
  intro k hk
  rw [laneAt_mapIdx A _ _ ((List.mem_range.1 hk).trans_le hn), slice_drop]
  rfl

/-- With one lane, SeqFinal is that lane's digest. -/
theorem Absorbed.finishMessage_eq (a : Absorbed s m q t) (hfits : BufferFits s) (hseq : s.laneCount = 1) {w : Nat} (A : Alg w)
    (hA : A.variant = s.hash.variant) {lanes : List (Lane w)} (hn : 0 < lanes.length) :
    finishMessage A (laneAt A (lanes.mapIdx (flushLane s.laneCount s.capacity q (s.buffered ++ m) A)) 0) t.buffered =
      laneDigest s.laneCount s.capacity q (s.buffered ++ m) A 0 (laneAt A lanes 0) := by
  have hc : blockBytes A.variant = s.capacity := by rw [← State.capacity_eq hA, hseq, Nat.one_mul]
  have hfit : t.buffered.length ≤ blockBytes A.variant := by
    rw [State.buffered_length (a.fits hfits), hc, ← a.capacity]
    exact (a.fits hfits).held
  have htail : t.buffered = slice (s.buffered ++ m) (q * s.capacity + 0 * blockBytes A.variant) (blockBytes A.variant) := by
    rw [Nat.zero_mul, Nat.add_zero, slice, ← a.held, List.take_of_length_le hfit]
  rw [finishMessage_short A _ hfit, laneAt_mapIdx A _ _ hn, htail]
  rfl

/-- A full buffer's segment gives every lane in use the same digest whether it is still held or flushed. -/
theorem Absorbed.laneDigest_succ (a : Absorbed s m q t) (b : Absorbed s m (q + 1) u) (hfits : BufferFits s) {w : Nat} (A : Alg w)
    (hA : A.variant = s.hash.variant) {lanes : List (Lane w)} (hn : s.laneCount ≤ lanes.length)
    (hcnt : ∀ (k : Nat) (l : Lane w), lanes[k]? = some l → l.cntLo.toNat < 2 ^ 61) {k : Nat} (hk : k < s.laneCount) :
    laneDigest s.laneCount s.capacity (q + 1) (s.buffered ++ m) A k (laneAt A lanes k) =
      laneDigest s.laneCount s.capacity q (s.buffered ++ m) A k (laneAt A lanes k) := by
  have hm : (s.buffered ++ m).length = (q + 1) * s.capacity := by
    rw [List.length_append, State.buffered_length hfits]
    exact a.high.antisymm b.low
  exact Machine.laneDigest_succ A (hcnt k _ (getElem?_eq_some_laneAt A (hk.trans_le hn))) hk (State.capacity_eq hA) hm

/-- On the tree path every lane hash is the same. -/
theorem Absorbed.treeFinal_eq_of_succ (a : Absorbed s m q t) (b : Absorbed s m (q + 1) u) (hs : Inv s) : t.treeFinal = u.treeFinal := by
  have hle : s.laneCount ≤ laneFileSize s.hash := hs.lane_file ▸ (State.laneCount_bounds hs.config).2
  rw [State.treeFinal, State.treeFinal, a.hash, b.hash, a.cfg, b.cfg]
  refine fromLanes_mapBank_congr hs.counters fun A lanes hA hsize hcnt => ?_
  rw [a.laneHashes_eq A (hsize ▸ hle), b.laneHashes_eq A (hsize ▸ hle)]
  exact congrArg _ (List.map_congr_left fun k hk =>
    (a.laneDigest_succ b hs.fits A hA (hsize ▸ hle) hcnt (List.mem_range.1 hk)).symm)

/-- In sequential mode the one lane's digest is the same. -/
theorem Absorbed.seqFinal_eq_of_succ (a : Absorbed s m q t) (b : Absorbed s m (q + 1) u) (hs : Inv s) (hseq : s.laneCount = 1) :
    t.seqFinal = u.seqFinal := by
  have hle : s.laneCount ≤ laneFileSize s.hash := hs.lane_file ▸ (State.laneCount_bounds hs.config).2
  rw [State.seqFinal, State.seqFinal, a.hash, b.hash]
  refine fromLanes_mapBank_congr hs.counters fun A lanes hA hsize hcnt => ?_
  rw [a.finishMessage_eq hs.fits hseq A hA (by omega), b.finishMessage_eq hs.fits hseq A hA (by omega)]
  exact (a.laneDigest_succ b hs.fits A hA (hsize ▸ hle) hcnt (by omega)).symm

/-- A whole segment absorbed is enough for the tree path in parallel mode. -/
theorem Absorbed.digest_eq_of_succ (a : Absorbed s m q t) (b : Absorbed s m (q + 1) u) (hs : Inv s) : t.digest = u.digest := by
  have hreaches : s.capacity ≤ s.mlen + m.length := (Nat.le_mul_of_pos_left _ q.succ_pos).trans b.low
  rw [State.digest, State.digest, a.takesTree, b.takesTree]
  cases hp : s.parallel with
  | true => simpa [hreaches] using a.treeFinal_eq_of_succ b hs
  | false => simpa using a.seqFinal_eq_of_succ b hs (by simp [State.laneCount, hp])

end

/-- The digest of absorbed bytes does not depend on how far the stream has flushed. -/
theorem Absorbed.digest_eq {s t u : State} {m : List Byte} {q r : Nat} (a : Absorbed s m q t) (b : Absorbed s m r u) (hs : Inv s) :
    t.digest = u.digest := by
  have hqr := a.le_succ b hs.fits
  have hrq := b.le_succ a hs.fits
  obtain rfl | rfl | rfl : q = r ∨ r = q + 1 ∨ q = r + 1 := by omega
  · exact a.digest_eq_of_same b
  · exact a.digest_eq_of_succ b hs
  · exact (b.digest_eq_of_succ a hs).symm

/-- Settles O38: chunk by chunk and at once are two ways to absorb the same bytes. -/
theorem digestIsChunkInvariant : Obligations.DigestIsChunkInvariant := by
  intro s chunks hs
  obtain ⟨q, a⟩ := State.foldl_absorb_spec hs.fits chunks
  obtain ⟨r, b⟩ := State.absorb_spec hs.fits chunks.flatten
  exact ⟨a.digest_eq b hs, a.demotes_eq b⟩

/-- Settles O39: with nothing held at the start, `Absorbed` says what was flushed and what is held. -/
theorem bufferHoldsTheUnflushedBytes : Obligations.BufferHoldsTheUnflushedBytes := by
  intro s chunks hs hempty
  obtain ⟨q, a⟩ := State.foldl_absorb_spec hs.fits chunks
  have hnone : s.buffered = [] := by rw [State.buffered, hempty, List.take_zero]
  have hhash := a.hash
  have hheld := a.held
  rw [hnone, List.nil_append] at hhash hheld
  exact ⟨q, a.flushed_or_full hs.fits hempty, hheld, hhash ▸ lanesRelated_mapBank fun _ _ _ _ => rfl⟩

end Sys2Proof.Machine
end

section
/-! REACHED (spec/42_tree.md R282): what a command leaves in it, that no other event but a hardware reset writes it, and that with MLEN it tells
whether a whole segment was absorbed (R284). -/

namespace Sys2Proof.Machine

open Sys2Proof Sys2Proof.Safety

/-- In parallel mode the two reasons to take the tree path, denied. -/
theorem State.takesTree_eq_false_iff {s : State} (hpar : s.parallel = true) :
    s.takesTree = false ↔ s.reached = false ∧ s.mlen < s.capacity := by
  simp [State.takesTree, hpar]

/-- Settles O40: `Absorbed.takesTree` from a stream that holds nothing and has flushed nothing. -/
theorem demotionIsDecidedByLength : Obligations.DemotionIsDecidedByLength := by
  intro s chunks hs hempty hpar t
  obtain ⟨q, a⟩ := State.foldl_absorb_spec hs.fits chunks
  obtain ⟨hmlen, hreached⟩ := hs.fresh hempty
  rw [← State.takesTree_eq_false_iff (a.parallel.trans hpar), a.takesTree, hpar, hreached, hmlen]
  simp

/-- Absorbing sets REACHED when it flushes in parallel mode; no bytes flush nothing, whatever is held. -/
theorem State.absorb_reached (s : State) (src : List Byte) :
    (s.absorb src).reached = (s.reached || (s.parallel && decide (src ≠ [] ∧ s.capacity < s.mlen + src.length))) := by
  rw [State.absorb]
  split
  case isTrue hnone => simp [hnone]
  case isFalse hsome =>
    split
    case isTrue hover =>
      simp only [State.absorbOverflow, State.keepRest_reached, State.segments_reached, State.segment_reached, State.segment_parallel,
        State.fillBuffer_reached, State.fillBuffer_parallel, State.startBuffering_reached, State.startBuffering_parallel]
      cases s.parallel <;> simp [hsome, hover]
    case isFalse hfit => simp [hfit]

@[simp] theorem State.memRead_length (s : State) (o n : Nat) : (s.memRead o n).length = n := by simp [State.memRead]

/-- REACHED after a successful command. -/
def reachedAfter (i : Instr) (s : State) : Bool :=
  match i with
  | .update => s.reached || (s.parallel && decide (s.length ≠ 0 ∧ s.capacity < s.mlen + s.length))
  | .finalize | .reset | .loadhdr | .setdeg _ | .wipe => false
  | .nop | .compress _ | .storehdr | .readlane _ => s.reached

theorem effect_reached (i : Instr) (s : State) : (effect i s).reached = reachedAfter i s := by
  cases i with
  | update => simp [effect, reachedAfter, State.absorb_reached, State.memRead_eq_nil]
  | nop | reset | finalize | compress k | loadhdr | storehdr | setdeg n | readlane k | wipe => rfl

/-- A command that changes REACHED succeeds. -/
theorem exec_reached {i : Instr} {s t : State} (h : exec i s = .next t) (hne : t.reached ≠ s.reached) :
    t.lastErr = 0 ∧ t.reached = reachedAfter i s := by
  rcases exec_next h with ⟨e, -, rfl⟩ | ⟨-, rfl⟩
  · exact absurd rfl hne
  · exact ⟨rfl, effect_reached i s⟩

theorem reachedAfter_setAgenda (i : Instr) (s : State) (rest : List Event) : reachedAfter i (s.setAgenda rest) = reachedAfter i s := by
  cases i <;> rfl

/-- Either form of the engine's turn, read off the agenda alone. -/
theorem State.turn.agenda {s : State} {rest : List Event} (h : s.turn rest) : s.agenda = [] ∨ s.agenda.head? = some .engine :=
  h.imp (fun hnone => hnone.1) (fun hnext => by rw [hnext]; rfl)

/-- The inversion of a step that changes REACHED: a successful command or a hardware reset. -/
theorem step_reached {s t : State} (h : step s = .next t) (hne : t.reached ≠ s.reached) :
    ((s.agenda = [] ∨ s.agenda.head? = some .engine) ∧ s.busy = true ∧ t.lastErr = 0 ∧
      ∃ i, decode s.latch.word = .ok i ∧ t.reached = reachedAfter i s) ∨
    (s.agenda.head? = some .hardwareReset ∧ t.reached = false) := by
  rcases step_cases h with ⟨rest, i, u, hturn, hbusy, hdecode, hexec, rfl⟩ | ⟨rest, e, -, -, -, rfl⟩ | ⟨rest, -, -, rfl⟩ |
    ⟨a, width, rest, -, rfl⟩ | ⟨a, width, v, rest, -, rfl⟩ | ⟨rest, hagenda, rfl⟩
  case inl =>
    obtain ⟨hok, hreached⟩ := exec_reached hexec hne
    exact .inl ⟨hturn.agenda, hbusy, hok, i, hdecode, hreached.trans (reachedAfter_setAgenda i s rest)⟩
  case inr.inl => exact absurd rfl hne
  case inr.inr.inl => exact absurd rfl hne
  case inr.inr.inr.inl => rw [State.hostRead_eq] at hne; exact absurd rfl hne
  case inr.inr.inr.inr.inl => rw [State.hostWrite_eq] at hne; exact absurd rfl hne
  case inr.inr.inr.inr.inr => exact .inr ⟨by rw [hagenda]; rfl, rfl⟩

/-- Only an overflowing UPDATE in parallel mode sets REACHED. -/
theorem reachedAfter_set {i : Instr} {s : State} (hclear : s.reached = false) (hset : reachedAfter i s = true) :
    i = .update ∧ s.parallel = true ∧ s.capacity < s.mlen + s.length := by
  cases i with
  | update =>
    obtain ⟨hpar, -, hover⟩ : s.parallel = true ∧ s.length ≠ 0 ∧ s.capacity < s.mlen + s.length := by
      simpa [reachedAfter, hclear] using hset
    exact ⟨rfl, hpar, hover⟩
  | finalize | reset | loadhdr | setdeg n | wipe => cases hset
  | nop | compress k | storehdr | readlane k => exact absurd (hclear.symm.trans hset) Bool.false_ne_true

/-- Only a command that restarts or erases the stream clears REACHED. -/
theorem reachedAfter_cleared {i : Instr} {s : State} (hset : s.reached = true) (hclear : reachedAfter i s = false) :
    i = .finalize ∨ i = .reset ∨ i = .loadhdr ∨ (∃ n, i = .setdeg n) ∨ i = .wipe := by
  cases i with
  | update => simp [reachedAfter, hset] at hclear
  | finalize | reset | loadhdr | setdeg n | wipe => simp
  | nop | compress k | storehdr | readlane k => exact absurd (hclear.symm.trans hset) Bool.false_ne_true

/-- Settles O29: a step that changes REACHED is a successful command's or a hardware reset, and `reachedAfter` says which commands set and
clear it. -/
theorem reachedIsSetByDispatchAlone : Obligations.ReachedIsSetByDispatchAlone := by
  refine ⟨State.dispatch_reached, fun s t h => ⟨fun hfalse htrue => ?set, fun htrue hfalse => ?cleared⟩⟩
  case set =>
    rcases step_reached h (by simp [hfalse, htrue]) with ⟨hturn, hbusy, hok, i, hdecode, hreached⟩ | ⟨-, hreset⟩
    · obtain ⟨rfl, hpar, hover⟩ := reachedAfter_set hfalse (hreached.symm.trans htrue)
      exact ⟨hturn, hbusy, hpar, hdecode, hover, hok⟩
    · exact absurd (hreset.symm.trans htrue) Bool.false_ne_true
  case cleared =>
    rcases step_reached h (by simp [hfalse, htrue]) with ⟨hturn, hbusy, hok, i, hdecode, hreached⟩ | ⟨hreset, -⟩
    · exact .inl ⟨hturn, hbusy, hok, i, hdecode, reachedAfter_cleared htrue (hreached.symm.trans hfalse)⟩
    · exact .inr hreset

end Sys2Proof.Machine
end

section
/-! The control commands of spec/43_config_control.md: NOP (R341), WIPE (R339), and what a WIPED engine refuses and still does (R340). -/

namespace Sys2Proof.Machine

open Sys2Proof Sys2Proof.Safety

/-- Where one word decodes to a command, no other does. -/
theorem decode_eq_iff {w x : Word32} {i : Instr} (hx : decode x = .ok i) : decode w = .ok i ↔ w = x :=
  ⟨fun hw => decode_injective hw hx, fun hwx => hwx ▸ hx⟩

/-- Settles O12: NOP has no check to fail, and its effect is its success alone. -/
theorem nopOnlyClearsLastError : Obligations.NopOnlyClearsLastError :=
  ⟨fun _ => decode_eq_iff (by decide), fun _ => exec_of_ok rfl⟩

@[simp] theorem lanesRelated_withScratch {R : {w : Nat} → Alg w → Nat → Lane w → Lane w → Prop} (f : {w : Nat} → Alg w → Scratch w)
    (b c : HashBank) : lanesRelated R b (withScratch f c) ↔ lanesRelated R b c := by
  cases b <;> cases c <;> rfl

theorem scratchIs_withScratch {P : {w : Nat} → Alg w → Scratch w → Prop} {f : {w : Nat} → Alg w → Scratch w} (b : HashBank)
    (h : ∀ {w : Nat} (A : Alg w), P A (f A)) : scratchIs P (withScratch f b) := by
  cases b with
  | sha256 u => exact h alg256
  | sha512 u => exact h alg512

theorem eq_zero_of_mem_zeros {n : Nat} {b : Byte} (h : b ∈ zeros n) : b = 0 := List.eq_of_mem_replicate h

theorem State.lanesRelated_erase (s : State) : lanesRelated (fun {w} _ _ _ l' => l' = clearLane w) s.hash s.erase.hash := by
  rw [State.erase_hash, lanesRelated_withScratch, clearLanes_eq]
  exact lanesRelated_mapBank fun _ _ _ _ => rfl

theorem State.scratchIs_erase (s : State) :
    scratchIs (fun {w} _ x => (∀ b ∈ x.laneHashes, b = 0) ∧ (∀ b ∈ x.branchHashes, b = 0) ∧ x.root = clearLane w) s.erase.hash := by
  rw [State.erase_hash]
  exact scratchIs_withScratch _ fun _ => ⟨fun _ => eq_zero_of_mem_zeros, fun _ => eq_zero_of_mem_zeros, rfl⟩

theorem State.byteAt_erase (s : State) {a : Nat} (ha : mapped s.params a) : s.erase.byteAt a = 0 := by
  rw [State.byteAt, State.erase_mem, memLookup_zeroWindows, if_pos ha, Option.getD_some]
  rfl

/-- Settles O24: WIPE has no check to fail, and its effect is the erasure. -/
theorem wipeErasesEverything : Obligations.WipeErasesEverything :=
  ⟨fun _ => decode_eq_iff (by decide), fun s =>
    ⟨s.erase.complete, exec_of_ok rfl, s.lanesRelated_erase, rfl, rfl, rfl, s.scratchIs_erase, fun _ ha => s.byteAt_erase ha,
      rfl, rfl, rfl, rfl, rfl, rfl, rfl, rfl, rfl, rfl, rfl, rfl, rfl, rfl, rfl⟩⟩

/-- The commands that use the stream's digest, which a WIPED engine refuses (spec/43_config_control.md R340). -/
abbrev UsesDigest (i : Instr) : Prop := i = .update ∨ i = .finalize ∨ ∃ k, i = .compress k

/-- The commands that write CFG (spec/10_state.md R36). -/
abbrev Configures (i : Instr) : Prop := i = .loadhdr ∨ ∃ n, i = .setdeg n

/-- The commands that WIPED does not hinder and that do not leave it (spec/43_config_control.md R340). -/
abbrev KeepsWiped (i : Instr) : Prop := i = .nop ∨ i = .storehdr ∨ i = .wipe ∨ ∃ k, i = .readlane k

/-- ContractViolation has code 6, so it sets bit 6 of ERR_STICKY (spec/60_exceptions.md R381). -/
theorem State.raise_contractViolation_eq (s : State) :
    s.raise .contractViolation = { s with busy := false, lastErr := 6, errSticky := s.errSticky ||| 0x00000040#32 } := rfl

theorem State.eq_withFsm {s : State} {f : Fsm} (h : s.fsm = f) : s = { s with fsm := f } := h ▸ rfl

section
variable {i : Instr} {s : State}

theorem firstError_of_wiped (hwiped : s.fsm = .wiped) (hi : UsesDigest i) : firstError i s = some .contractViolation := by
  rcases hi with rfl | rfl | ⟨k, rfl⟩ <;> exact if_pos hwiped

/-- No other command's checks look at FSM. -/
theorem firstError_withFsm (hi : ¬ UsesDigest i) (s : State) (f : Fsm) : firstError i { s with fsm := f } = firstError i s := by
  cases i with
  | update | finalize | compress k => exact (hi (by simp [UsesDigest])).elim
  | nop | reset | loadhdr | storehdr | setdeg n | readlane k | wipe => rfl

theorem Configures.not_usesDigest (hi : Configures i) : ¬ UsesDigest i := by
  rcases hi with rfl | ⟨n, rfl⟩ <;> simp [UsesDigest]

theorem KeepsWiped.not_usesDigest (hi : KeepsWiped i) : ¬ UsesDigest i := by
  rcases hi with rfl | rfl | rfl | ⟨k, rfl⟩ <;> simp [UsesDigest]

/-- A new configuration restarts the stream, whatever FSM was. -/
theorem Configures.effect_withFsm (hi : Configures i) (s : State) (f : Fsm) : effect i { s with fsm := f } = effect i s := by
  rcases hi with rfl | ⟨n, rfl⟩ <;> rfl

theorem Configures.effect_fsm (hi : Configures i) (s : State) : (effect i s).fsm = .empty := by
  rcases hi with rfl | ⟨n, rfl⟩ <;> rfl

/-- FSM before the command shows in FSM after it at most. -/
theorem KeepsWiped.effect_withFsm (hi : KeepsWiped i) (s : State) (f g : Fsm) :
    { effect i { s with fsm := f } with fsm := g } = { effect i s with fsm := g } := by
  rcases hi with rfl | rfl | rfl | ⟨k, rfl⟩ <;> rfl

theorem KeepsWiped.effect_fsm (hi : KeepsWiped i) (hwiped : s.fsm = .wiped) : (effect i s).fsm = .wiped := by
  rcases hi with rfl | rfl | rfl | ⟨k, rfl⟩
  case inr.inr.inl => rfl
  all_goals exact hwiped

/-- LOADHDR and SETDEG end as on an engine in any other streaming state, and on success in the same state (spec/43_config_control.md
R340). -/
theorem Configures.exec_withFsm (hi : Configures i) (s : State) (f : Fsm) :
    ∃ t u, exec i s = .next t ∧ exec i { s with fsm := f } = .next u ∧ t.lastErr = u.lastErr ∧ (t.lastErr = 0 → t = u ∧ t.fsm = .empty) := by
  have hcheck := firstError_withFsm hi.not_usesDigest s f
  cases herr : firstError i s with
  | some e =>
    exact ⟨_, _, exec_of_error herr, exec_of_error (hcheck.trans herr), rfl, fun h0 => absurd h0 (State.raise_lastErr_ne_zero herr)⟩
  | none =>
    have hsame : (effect i s).complete = (effect i { s with fsm := f }).complete :=
      congrArg State.complete (hi.effect_withFsm s f).symm
    exact ⟨_, _, exec_of_ok herr, exec_of_ok (hcheck.trans herr), rfl, fun _ => ⟨hsame, hi.effect_fsm s⟩⟩

/-- NOP, STOREHDR, WIPE and READLANE do on a WIPED engine what they do in any other streaming state, but for staying WIPED
(spec/43_config_control.md R340). -/
theorem KeepsWiped.exec_withFsm (hi : KeepsWiped i) (hwiped : s.fsm = .wiped) (f : Fsm) :
    ∃ t u, exec i s = .next t ∧ exec i { s with fsm := f } = .next u ∧ t = { u with fsm := .wiped } := by
  have hcheck := firstError_withFsm hi.not_usesDigest s f
  cases herr : firstError i s with
  | some e => exact ⟨_, _, exec_of_error herr, exec_of_error (hcheck.trans herr), State.eq_withFsm hwiped⟩
  | none =>
    have hsame : effect i s = { effect i { s with fsm := f } with fsm := .wiped } :=
      (State.eq_withFsm (hi.effect_fsm hwiped)).trans (hi.effect_withFsm s f .wiped).symm
    exact ⟨_, _, exec_of_ok herr, exec_of_ok (hcheck.trans herr), congrArg State.complete hsame⟩

end

/-- Settles O31, bullet by bullet of R340: the refusals are the first check of the three commands, and no other check looks at FSM. -/
theorem wipedEngineRefusesUse : Obligations.WipedEngineRefusesUse := by
  intro s hwiped
  refine ⟨fun i hi => ?refused, ⟨s.resetStream.complete, exec_of_ok rfl, rfl, rfl⟩, fun i hi => ?configured, fun i hi => ?kept⟩
  case refused => rw [exec_of_error (firstError_of_wiped hwiped hi), State.raise_contractViolation_eq]
  case configured => exact Configures.exec_withFsm hi s .empty
  case kept => exact KeepsWiped.exec_withFsm hi hwiped .empty

end Sys2Proof.Machine
end

section
/-! How errors are reported (spec/60_exceptions.md): the code and the sticky bit `State.raise` writes, and which error a command and the
engine's turn report. -/

namespace Sys2Proof.Machine

open Sys2Proof Sys2Proof.Safety

section
variable {i : Instr} {s t : State} {rest : List Event}

/-- LAST_ERR holds the number of R381 (spec/60_exceptions.md): the nine codes fit its four bits. -/
theorem State.raise_lastErr_toNat (s : State) (e : ErrorKind) : (s.raise e).lastErr.toNat = reportedCode e := by
  cases e <;> rfl

theorem State.raise_errSticky_reportedCode (s : State) (e : ErrorKind) :
    (s.raise e).errSticky = s.errSticky ||| (1#32 <<< reportedCode e) := by
  rw [State.raise_errSticky, stickyBit, reportedCode_eq]

/-- All of R380 for one error: the sticky bit is the one that LAST_ERR numbers, and no other field moves. -/
theorem State.raise_precise (s : State) (e : ErrorKind) :
    s.raise e =
      { s with
        busy := false
        lastErr := (s.raise e).lastErr
        errSticky := s.errSticky ||| (1#32 <<< (s.raise e).lastErr.toNat) } := by
  rw [State.raise_lastErr_toNat, ← State.raise_errSticky_reportedCode]
  rfl

theorem State.useScratch_errSticky (s : State) : s.useScratch.errSticky = s.errSticky := by
  rw [State.useScratch]
  split <;> rfl

theorem State.writeDigest_errSticky (s : State) : s.writeDigest.errSticky = s.errSticky := s.useScratch_errSticky

/-- No effect writes ERR_STICKY (spec/60_exceptions.md R381). -/
theorem effect_errSticky (i : Instr) (s : State) : (effect i s).errSticky = s.errSticky := by
  cases i with
  | update => exact State.absorb_errSticky s _
  | finalize => exact s.writeDigest_errSticky
  | nop | reset | compress k | loadhdr | storehdr | setdeg n | readlane k | wipe => rfl

theorem endCode_of_error {e : ErrorKind} (h : firstError i s = some e) : endCode i s = reportedCode e := by
  rw [endCode, h]

theorem endCode_of_ok (h : firstError i s = none) : endCode i s = 0 := by rw [endCode, h]

/-- No check looks at the events to come. -/
theorem firstError_setAgenda (i : Instr) (s : State) (rest : List Event) : firstError i (s.setAgenda rest) = firstError i s := by
  cases i <;> rfl

theorem endCode_setAgenda (i : Instr) (s : State) (rest : List Event) : endCode i (s.setAgenda rest) = endCode i s := by
  rw [endCode, firstError_setAgenda, endCode]

/-- What a command reports: its first error in both registers, or 0 and no sticky bit. -/
theorem exec_reports (h : exec i s = .next t) :
    t.lastErr.toNat = endCode i s ∧
    (firstError i s = none → t.errSticky = s.errSticky) ∧
    (∀ e, firstError i s = some e → t.errSticky = s.errSticky ||| (1#32 <<< reportedCode e)) := by
  rcases exec_next h with ⟨e, he, rfl⟩ | ⟨hok, rfl⟩
  case inl =>
    refine ⟨(s.raise_lastErr_toNat e).trans (endCode_of_error he).symm, fun hok => ?_, fun e' he' => ?_⟩
    · rw [he] at hok; cases hok
    · obtain rfl : e = e' := Option.some.inj (he.symm.trans he')
      exact s.raise_errSticky_reportedCode e
  case inr =>
    refine ⟨(endCode_of_ok hok).symm, fun _ => effect_errSticky i s, fun e he => ?_⟩
    rw [hok] at he; cases he

theorem State.exists_turn (h : s.agenda = [] ∨ s.agenda.head? = some .engine) : ∃ rest, s.turn rest := by
  rcases h with hnone | hnext
  · exact ⟨[], .inl ⟨hnone, rfl⟩⟩
  · obtain ⟨rest, hrest⟩ := List.head?_eq_some_iff.1 hnext
    exact ⟨rest, .inr hrest⟩

/-- The engine's turn on a command ends as the command does, and then settles. -/
theorem step_command (hturn : s.turn rest) (hbusy : s.busy = true) (hdecode : decode s.latch.word = .ok i) (h : step s = .next t) :
    ∃ u, exec i (s.setAgenda rest) = .next u ∧ t = u.settle := by
  obtain ⟨u, hu⟩ := exec_total i (s.setAgenda rest)
  rw [step_turn hturn, engineTurn_ok (s := s.setAgenda rest) hbusy hdecode hu] at h
  cases h
  exact ⟨u, hu, rfl⟩

end

/-- Settles O9: a command that did not complete has raised, and `State.raise` is precise. -/
theorem errorsArePrecise : Obligations.ErrorsArePrecise := by
  intro i s t h herr
  rcases exec_next h with ⟨e, -, rfl⟩ | ⟨-, rfl⟩
  case inl => exact s.raise_precise e
  case inr => exact absurd rfl herr

/-- Settles O11: the decoder's error first, then `exec_reports`, whose checks do not see that the engine's event is gone. -/
theorem firstErrorIsReported : Obligations.FirstErrorIsReported := by
  intro s t hbusy hagenda hstep
  obtain ⟨rest, hturn⟩ := State.exists_turn hagenda
  refine ⟨fun e hreserved => ?illegal, fun i hdecode => ?command⟩
  case illegal =>
    rw [step_illegalCommand hturn hbusy hreserved] at hstep
    cases hstep
    exact ⟨rfl, rfl⟩
  case command =>
    obtain ⟨u, hexec, rfl⟩ := step_command hturn hbusy hdecode hstep
    have hreport := exec_reports hexec
    rw [firstError_setAgenda, endCode_setAgenda] at hreport
    exact hreport

end Sys2Proof.Machine
end

section
/-! The encoder against the decoder and the opcode map (spec/30_encoding.md R120 to R127): a word's three fields decide what it decodes to and
which row it selects. -/

namespace Sys2Proof.Machine

open Sys2Proof Sys2Proof.Safety

/-- The law of every command's word, from the law of each command. -/
theorem encode_selects_own_row (i : Instr) : Laws.RowMatch.Statement i := by
  cases i with
  | nop => exact Laws.RowMatch.nop
  | reset => exact Laws.RowMatch.reset
  | update => exact Laws.RowMatch.update
  | finalize => exact Laws.RowMatch.finalize
  | compress k => exact Laws.RowMatch.compress k
  | loadhdr => exact Laws.RowMatch.loadhdr
  | storehdr => exact Laws.RowMatch.storehdr
  | setdeg n => exact Laws.RowMatch.setdeg n
  | readlane k => exact Laws.RowMatch.readlane k
  | wipe => exact Laws.RowMatch.wipe

theorem commandOf_opcode (i : Instr) : commandOf (opcode i) (immediate i) = .ok i := by cases i <;> rfl

theorem opcode_le_nine (i : Instr) : opcode i ≤ 0x09 := by cases i <;> simp [opcode]

theorem immediate_eq_zero_of_takesImm {i : Instr} (h : takesImm (opcode i) = false) : immediate i = 0 := by
  cases i with
  | compress k | setdeg n | readlane k => cases h
  | nop | reset | update | finalize | loadhdr | storehdr | wipe => rfl

/-- IMM8 holds every immediate a command term can have but those above 255. -/
theorem wellFormed_iff {i : Instr} : i.WellFormed ↔ immediate i < 256 := by
  cases i with
  | compress k | setdeg n | readlane k => exact decide_eq_true_iff
  | nop | reset | update | finalize | loadhdr | storehdr | wipe => exact iff_of_true rfl (by decide)

/-- A word with a command's fields decodes to the command. -/
theorem decode_of_fields {w : Word32} {i : Instr} (hopc : fieldOpc w = opcode i) (himm : fieldImm w = immediate i)
    (hrsv : fieldRsv w = 0) : decode w = .ok i := by
  have hstray : ¬ (immediate i ≠ 0 ∧ takesImm (opcode i) = false) := fun h => h.1 (immediate_eq_zero_of_takesImm h.2)
  rw [decode, hopc, himm, if_neg (not_not.2 hrsv), if_neg (Nat.not_lt.2 (opcode_le_nine i)), if_neg hstray, commandOf_opcode]

theorem decode_encode {i : Instr} (hi : i.WellFormed) : decode (encode i) = .ok i := by
  obtain ⟨hopc, himm, hrsv, -⟩ := encode_selects_own_row i hi
  exact decode_of_fields hopc himm hrsv

theorem fieldImm_lt (w : Word32) : fieldImm w < 256 := (w.extractLsb' 8 8).isLt

theorem wellFormed_of_decode {w : Word32} {i : Instr} (h : decode w = .ok i) : i.WellFormed := by
  obtain ⟨-, himm, -⟩ := fields_of_decode h
  exact wellFormed_iff.2 (himm ▸ fieldImm_lt w)

theorem encode_of_decode {w : Word32} {i : Instr} (h : decode w = .ok i) : encode i = w :=
  decode_injective (decode_encode (wellFormed_of_decode h)) h

/-- Settles O1: the fields of a command's word are its opcode and immediate, and a word is spelled out by its fields. -/
theorem decodeAndEncodeAgree : Obligations.DecodeAndEncodeAgree :=
  ⟨fun _ => decode_encode, fun _ _ h => ⟨wellFormed_of_decode h, encode_of_decode h⟩⟩

theorem opcodeTable_mnemonic_injective {r r' : OpcodeRow} (hr : r ∈ opcodeTable) (hr' : r' ∈ opcodeTable)
    (h : r.mnemonic = r'.mnemonic) : r = r' := by
  have hall : ∀ r ∈ opcodeTable, ∀ r' ∈ opcodeTable, r.mnemonic = r'.mnemonic → r = r' := by decide
  exact hall r hr r' hr' h

/-- Of the rows, a command's word selects the one that names the command. -/
theorem selects_encode_iff {i : Instr} (hi : i.WellFormed) {r : OpcodeRow} (hr : r ∈ opcodeTable) :
    r.selects (encode i) = true ↔ r.mnemonic = mnemonic i := by
  obtain ⟨-, -, -, hrows⟩ := encode_selects_own_row i hi
  constructor
  · intro hsel
    have hmem : r.mnemonic ∈ (opcodeTable.filter (fun r => r.selects (encode i))).map OpcodeRow.mnemonic :=
      List.mem_map_of_mem (List.mem_filter.2 ⟨hr, hsel⟩)
    rw [hrows] at hmem
    exact List.mem_singleton.1 hmem
  · intro hname
    have hmem : mnemonic i ∈ (opcodeTable.filter (fun r => r.selects (encode i))).map OpcodeRow.mnemonic := by
      rw [hrows]; exact List.mem_singleton.2 rfl
    obtain ⟨r', hr', hname'⟩ := List.mem_map.1 hmem
    obtain ⟨hin, hsel⟩ := List.mem_filter.1 hr'
    rwa [opcodeTable_mnemonic_injective hr hin (hname.trans hname'.symm)]

theorem selects_iff {r : OpcodeRow} {w : Word32} : r.selects w = true ↔ w &&& r.maskBits = r.matchBits := beq_iff_eq

/-- Every row fixes OPC and RSV, and IMM8 too unless the command takes one. -/
theorem opcodeTable_masks : ∀ r ∈ opcodeTable,
    r.maskBits.extractLsb' 0 8 = BitVec.allOnes 8 ∧ fieldOpc r.matchBits ≤ 0x09 ∧
    r.maskBits.extractLsb' 16 16 = BitVec.allOnes 16 ∧ fieldRsv r.matchBits = 0 ∧
    (takesImm (fieldOpc r.matchBits) = false → r.maskBits.extractLsb' 8 8 = BitVec.allOnes 8 ∧ fieldImm r.matchBits = 0) := by
  decide

/-- A field that the mask keeps whole is the same in the masked word. -/
theorem extractLsb'_of_mask {w mask : Word32} {lo n : Nat} (h : mask.extractLsb' lo n = BitVec.allOnes n) :
    (w &&& mask).extractLsb' lo n = w.extractLsb' lo n := by
  rw [BitVec.extractLsb'_and, h, BitVec.and_allOnes]

/-- A word that selects a row passes the decoder's three checks. -/
theorem exists_decode_of_selects {w : Word32} {r : OpcodeRow} (hr : r ∈ opcodeTable) (hsel : w &&& r.maskBits = r.matchBits) :
    ∃ i, decode w = .ok i := by
  obtain ⟨hopcMask, hopc, hrsvMask, hrsv, himm⟩ := opcodeTable_masks r hr
  have hopcEq : fieldOpc r.matchBits = fieldOpc w := by rw [← hsel, fieldOpc, extractLsb'_of_mask hopcMask, fieldOpc]
  have hrsvEq : fieldRsv r.matchBits = fieldRsv w := by rw [← hsel, fieldRsv, extractLsb'_of_mask hrsvMask, fieldRsv]
  cases hw : decode w with
  | ok i => exact ⟨i, rfl⟩
  | error e =>
    rcases (decode_error_iff w).1 ⟨e, hw⟩ with hbad | hbad | ⟨hstray, hnone⟩
    · exact absurd (hrsvEq ▸ hrsv) hbad
    · exact absurd (hopcEq ▸ hopc) (Nat.not_le.2 hbad)
    · obtain ⟨himmMask, himmZero⟩ := himm (hopcEq ▸ hnone)
      have himmEq : fieldImm r.matchBits = fieldImm w := by rw [← hsel, fieldImm, extractLsb'_of_mask himmMask, fieldImm]
      exact absurd (himmEq ▸ himmZero) hstray

/-- Settles O2: a word that decodes is its command's word, which selects its own row alone, and a selected row fixes the fields the decoder
checks. -/
theorem opcodeMapSelectsTheCommand : Obligations.OpcodeMapSelectsTheCommand := by
  intro w
  have hrow : ∀ i, decode w = .ok i → ∀ r ∈ opcodeTable, (w &&& r.maskBits = r.matchBits ↔ r.mnemonic = mnemonic i) := by
    intro i h r hr
    rw [← selects_iff, ← encode_of_decode h]
    exact selects_encode_iff (wellFormed_of_decode h) hr
  refine ⟨hrow, fun ⟨i, h⟩ => ?_, fun ⟨r, hr, hsel⟩ => exists_decode_of_selects hr hsel⟩
  have hnamed : ∃ r ∈ opcodeTable, r.mnemonic = mnemonic i := by cases i <;> simp [opcodeTable, mnemonic]
  obtain ⟨r, hr, hname⟩ := hnamed
  exact ⟨r, hr, (hrow i h r hr).2 hname⟩

/-- Settles O4: the decoder evaluated on each listed word. -/
theorem listedWordsDecode : Obligations.ListedWordsDecode := by
  refine ⟨?_, ?_, ?_, ?_, ?_, ?_, ?_, ?_, ?_, ?_, ?_, ?_, ?_, fun w hw => (decode_error_iff w).2 ?reserved⟩
  case reserved =>
    simp only [List.mem_cons, List.not_mem_nil, or_false] at hw
    rcases hw with rfl | rfl | rfl | rfl | rfl | rfl <;> decide
  all_goals decide

theorem decodeTableWord_toNat (w : Word32) : decodeTableWord 32 w.toNat = (decode w).toOption := by
  rw [decodeTableWord, Nat.mod_eq_of_lt w.isLt, BitVec.ofNat_toNat, BitVec.setWidth_eq]
  cases decode w <;> rfl

theorem State.withFetchWord_toNat (s : State) (w : Word32) : s.withFetchWord 32 w.toNat = s.issueNow w := by
  rw [State.withFetchWord, Nat.mod_eq_of_lt w.isLt, BitVec.ofNat_toNat, BitVec.setWidth_eq]

/-- Settles O6: the placed word is issued with the engine's event first, so the next step is the engine's turn on the issued command. -/
theorem placedCommandRunsNext : Obligations.PlacedCommandRunsNext := by
  intro s t i hi
  refine ⟨by rw [decodeTableWord_toNat, decode_encode hi]; rfl, fun hexec => ?_⟩
  rw [State.withFetchWord_toNat]
  have hturn : (s.issueNow (encode i)).turn s.agenda := .inr rfl
  rw [step_turn hturn]
  exact engineTurn_ok (s := s.issue (encode i)) rfl (decode_encode hi) hexec

end Sys2Proof.Machine
end

section
/-! The invariant of Safety.lean under every operation a step is made of: the registers and the error codes (spec/60_exceptions.md R380), the
windows (spec/20_memory.md R82, R90), the stream (spec/41_streaming.md R224, R234), and the hardware reset (spec/70_reset_and_hazards.md R431). -/

namespace Sys2Proof.Machine

open Sys2Proof Sys2Proof.Safety

/-- Setting a bit of the mask sets no bit outside it. -/
theorem or_and_not_eq_zero {x y mask : Word32} (hx : x &&& ~~~mask = 0) (hy : y &&& ~~~mask = 0) : (x ||| y) &&& ~~~mask = 0 := by
  rw [BitVec.and_comm, BitVec.and_or_distrib_left, BitVec.and_comm _ x, BitVec.and_comm _ y, hx, hy]
  rfl

theorem and_and_not_eq_zero {x mask : Word32} (hx : x &&& ~~~mask = 0) (y : Word32) : (x &&& y) &&& ~~~mask = 0 := by
  rw [BitVec.and_assoc, BitVec.and_comm y, ← BitVec.and_assoc, hx]
  exact BitVec.zero_and

theorem stickyBit_raisable {n : Nat} (hlo : 1 ≤ n) (hhi : n ≤ 7) : stickyBit n &&& ~~~raisableMask = 0 := by
  interval_cases n <;> rfl

section
variable {s : State}

theorem inv_powerOn {v : Variant} {p : Params} (hp : LegalParams v p) : Inv (State.powerOn v p) where
  params := by rwa [State.powerOn_variant]
  lane_file := by rw [State.powerOn_variant]; exact laneFileSize_powerOnHash v p
  counters := everyLane_imp (everyLane_powerOnHash v p) fun A _ _ _ hl => by rw [hl]; exact Nat.two_pow_pos 61
  idle_lanes _ := everyLane_imp (everyLane_powerOnHash v p) fun _ _ _ _ hl _ => hl
  wiped_lanes h := nomatch h
  datapath := by cases v <;> exact ⟨rfl, Nat.zero_lt_succ _⟩
  buffer := by rw [State.powerOn_variant]; exact zeros_length _
  occupancy := Nat.zero_le _
  unstarted _ := ⟨rfl, rfl⟩
  settled := ⟨nofun, nofun⟩
  reached_parallel h := nomatch h
  config := by
    rw [State.powerOn_variant]
    cases v <;> simp [State.powerOn, resetConfig, digestBytes, LegalConfig]
  last_error := Nat.zero_le _
  sticky := BitVec.zero_and
  memory := List.Pairwise.nil
  memory_mapped := by simp [State.powerOn]
  latched h := nomatch h

theorem inv_setAgenda (h : Inv s) (rest : List Event) : Inv (s.setAgenda rest) := { h with params := h.params }

/-- Another hash unit of the same variant and size, whose lanes and window are as they must be. -/
theorem inv_withHash (h : Inv s) {b : HashBank} (hvariant : b.variant = s.hash.variant) (hsize : laneFileSize b = laneFileSize s.hash)
    (hcount : everyLane (fun _ _ l => l.cntLo.toNat < 2 ^ 61) b)
    (hidle : s.fsm ≠ .wiped → everyLane (fun A k l => s.laneCount ≤ k → l = initLane A) b)
    (hwiped : s.fsm = .wiped → everyLane (fun {w} _ _ l => l = clearLane w) b) (hshape : datapathShaped b) :
    Inv { s with hash := b } := by
  have hv : State.variant { s with hash := b } = s.variant := hvariant
  have hn : State.laneCount { s with hash := b } = s.laneCount := by rw [State.laneCount, hv]; rfl
  have hc : State.capacity { s with hash := b } = s.capacity := by simp only [State.capacity, hn, hv]
  exact
    { h with
      params := hv ▸ h.params
      lane_file := by rw [hv]; exact hsize.trans h.lane_file
      counters := hcount
      idle_lanes := hn ▸ hidle
      wiped_lanes := hwiped
      datapath := hshape
      buffer := hv ▸ h.buffer
      occupancy := hc ▸ h.occupancy
      config := hv ▸ h.config }

theorem inv_settle (h : Inv s) : Inv s.settle :=
  have hunit := inv_withHash h (b := withDatapath (freeDatapath s.freeCtr) s.hash) (withDatapath_variant ..) (laneFileSize_withDatapath ..)
    ((everyLane_withDatapath ..).2 h.counters) (fun hw => (everyLane_withDatapath ..).2 (h.idle_lanes hw))
    (fun hw => (everyLane_withDatapath ..).2 (h.wiped_lanes hw)) (datapathShaped_free ..)
  { hunit with params := hunit.params }

theorem inv_complete (h : Inv s) : Inv s.complete :=
  { h with last_error := Nat.zero_le 7, latched := nofun }

theorem inv_raise (h : Inv s) {e : ErrorKind} (hlo : 1 ≤ errorCode e) (hhi : errorCode e ≤ 7) : Inv (s.raise e) :=
  { h with
    last_error := by rw [State.raise_lastErr, BitVec.toNat_ofNat]; exact (Nat.mod_le _ _).trans hhi
    sticky := or_and_not_eq_zero h.sticky (stickyBit_raisable hlo hhi)
    latched := nofun }

theorem inv_violation (h : Inv s) : Inv s.violation :=
  { h with sticky := or_and_not_eq_zero h.sticky rfl }

theorem inv_hostRead (h : Inv s) (a : Word32) (width : Nat) : Inv (s.hostRead a width) := by
  rw [State.hostRead]
  split
  case h_1 v _ => exact { h with params := h.params }
  case h_2 => exact { inv_violation h with params := h.params }

theorem inv_storeValue (h : Inv s) {a width : Nat} (hin : inWindow s.params a width) (v : Word32) : Inv (s.storeValue a width v) :=
  { h with
    memory := memStoreBytes_wf h.memory a _
    memory_mapped := fun c hc => by
      rcases mem_memStoreBytes hc with ⟨hlo, hhi⟩ | hold
      · rw [leBytes_length] at hhi
        simp only [mapped, State.storeValue_params]
        omega
      · exact h.memory_mapped c hold }

/-- A register write on an idle engine: the latch is filled with what it must agree with. -/
theorem inv_regWrite (h : Inv s) (hidle : s.busy = false) (offset : Nat) (v : Word32) : Inv (s.regWrite offset v) := by
  have hlatch : ∀ l : Latch, s.busy = true → s.latch = l := fun l hb => by rw [hidle] at hb; cases hb
  unfold State.regWrite
  split
  case h_1 => exact { h with latched := fun _ => rfl }
  case h_2 => exact { h with latched := hlatch _ }
  case h_3 => exact { h with latched := hlatch _ }
  case h_4 => exact { h with sticky := and_and_not_eq_zero h.sticky _ }
  case h_5 => exact inv_violation h

theorem inv_hostWrite (h : Inv s) (a : Word32) (width : Nat) (v : Word32) : Inv (s.hostWrite a width v) := by
  suffices heffect : Inv (s.writeEffect a.toNat width v) from { heffect with params := heffect.params }
  rw [State.writeEffect]
  split_ifs with hbusy
  case pos => exact inv_violation h
  case neg =>
    split
    case h_1 => exact inv_regWrite h (Bool.not_eq_true _ ▸ hbusy) _ v
    case h_2 b htarget =>
      obtain ⟨rfl, -, -, hin⟩ := targetOf_window.1 htarget
      exact inv_storeValue h hin v
    case h_3 => exact inv_violation h

theorem inv_hardwareReset (h : Inv s) : Inv s.hardwareReset :=
  { inv_powerOn h.params with params := (inv_powerOn h.params).params }

theorem inv_memWrite (h : Inv s) {o : Nat} {bs : List Byte} (hout : ¬ s.params.outSize < o + bs.length) : Inv (s.memWrite o bs) :=
  { h with
    memory := memStoreBytes_wf h.memory _ _
    memory_mapped := fun c hc => by
      rcases mem_memStoreBytes hc with hnew | hold
      · simp only [mapped, State.memWrite_params]
        omega
      · exact h.memory_mapped c hold }

/-- A new message under a legal configuration (spec/43_config_control.md R330). -/
theorem inv_reconfigure (h : Inv s) {c : TreeParams} (hc : LegalConfig s.variant s.params c) : Inv (s.reconfigure c) where
  params := by simpa using h.params
  lane_file := by
    rw [State.reconfigure_hash, onLanes_init, laneFileSize_mapBank, State.reconfigure_variant]
    exact h.lane_file
  counters := by
    rw [State.reconfigure_hash, onLanes_init]
    exact everyLane_mapBank.2 (everyLane_imp h.counters fun _ _ _ _ _ => Nat.two_pow_pos 61)
  idle_lanes _ := by
    rw [State.reconfigure_hash, onLanes_init]
    exact everyLane_mapBank.2 (everyLane_imp h.counters fun _ _ _ _ _ _ => rfl)
  wiped_lanes hw := nomatch hw
  datapath := by
    rw [State.reconfigure_hash, onLanes_init]
    exact (datapathShaped_mapBank ..).2 h.datapath
  buffer := by simp
  occupancy := Nat.zero_le _
  unstarted _ := ⟨rfl, rfl⟩
  settled := ⟨nofun, nofun⟩
  reached_parallel hr := nomatch hr
  config := by simpa using hc
  last_error := h.last_error
  sticky := h.sticky
  memory := h.memory
  memory_mapped := h.memory_mapped
  latched := h.latched

theorem inv_resetStream (h : Inv s) : Inv s.resetStream := inv_reconfigure h h.config

theorem inv_erase (h : Inv s) : Inv s.erase where
  params := by simpa using h.params
  lane_file := by simpa [laneFileSize_withScratch, clearLanes_eq] using h.lane_file
  counters := by
    rw [State.erase_hash, everyLane_withScratch, clearLanes_eq]
    exact everyLane_mapBank.2 (everyLane_imp h.counters fun _ _ _ _ _ => Nat.two_pow_pos 61)
  idle_lanes hw := absurd rfl hw
  wiped_lanes _ := by
    rw [State.erase_hash, everyLane_withScratch, clearLanes_eq]
    exact everyLane_mapBank.2 (everyLane_imp h.counters fun _ _ _ _ _ => rfl)
  datapath := by
    rw [State.erase_hash, datapathShaped_withScratch, clearLanes_eq]
    exact (datapathShaped_mapBank ..).2 h.datapath
  buffer := by simp
  occupancy := Nat.zero_le _
  unstarted _ := ⟨rfl, rfl⟩
  settled := ⟨nofun, nofun⟩
  reached_parallel hr := nomatch hr
  config := by simpa using h.config
  last_error := h.last_error
  sticky := h.sticky
  memory := zeroWindows_wf h.params.2.2.2.1
  memory_mapped := fun c hc => mem_zeroWindows hc
  latched := h.latched

theorem inv_compressAt (h : Inv s) (hw : s.fsm ≠ .wiped) {k : Nat} (hk : k < s.laneCount) (blk : List Byte) :
    Inv (s.compressAt k blk) := by
  have hhash := s.compressAt_hash_eq k blk
  refine inv_withHash h (b := (s.compressAt k blk).hash) ?_ ?_ ?counters (fun _ => ?idle) (fun hw' => absurd hw' hw) ?_ <;> rw [hhash]
  case counters =>
    refine everyLane_mapBank.2 (everyLane_imp h.counters fun A j l _ hl => ?_)
    split
    · exact (compressLane_total A blk hl).2
    · exact hl
  case idle =>
    refine everyLane_mapBank.2 (everyLane_imp (h.idle_lanes hw) fun A j l _ hl hj => ?_)
    rw [if_neg (by omega), hl hj]
  · exact mapBank_variant ..
  · exact laneFileSize_mapBank ..
  · exact (datapathShaped_mapBank ..).2 h.datapath

/-- Absorbing some bytes starts the buffering; `Absorbed` says what it does to the lanes and the buffer. -/
theorem inv_absorb (h : Inv s) (hw : s.fsm ≠ .wiped) (src : List Byte) : Inv (s.absorb src) := by
  by_cases hnone : src = []
  · rwa [hnone, State.absorb_nil]
  obtain ⟨q, a⟩ := State.absorb_spec h.fits src
  have hfsm : (s.absorb src).fsm = .buffering := by rw [a.fsm, if_neg hnone]
  exact
    { params := by simpa using h.params
      lane_file := by rw [a.hash, laneFileSize_mapBank]; simpa using h.lane_file
      counters := by
        rw [a.hash]
        exact everyLane_mapBank.2 (everyLane_imp h.counters fun A k _ _ hl => flushLane_count _ _ _ _ A k hl)
      idle_lanes := fun _ => by
        rw [a.hash, a.laneCount]
        refine everyLane_mapBank.2 (everyLane_imp (h.idle_lanes hw) fun A k l _ hl hk => ?_)
        rw [flushLane, if_neg (Nat.not_lt.2 hk), hl hk]
      wiped_lanes := fun hw' => by rw [hfsm] at hw'; cases hw'
      datapath := by rw [a.hash]; exact (datapathShaped_mapBank ..).2 h.datapath
      buffer := by rw [a.room]; simpa using h.buffer
      occupancy := (a.fits h.fits).held
      unstarted := fun hb => absurd hfsm hb
      settled := by rw [hfsm]; exact ⟨nofun, nofun⟩
      reached_parallel := fun hr => by
        rw [a.reached] at hr
        rw [a.parallel]
        cases hp : s.parallel with
        | true => rfl
        | false => rw [hp, Bool.false_and, Bool.or_false] at hr; exact hp ▸ h.reached_parallel hr
      config := by simpa using h.config
      last_error := by simpa using h.last_error
      sticky := by simpa using h.sticky
      memory := by simpa using h.memory
      memory_mapped := by simpa using h.memory_mapped
      latched := by simpa using h.latched }

theorem inv_useScratch (h : Inv s) : Inv s.useScratch := by
  rw [State.useScratch]
  split
  case isFalse => exact h
  case isTrue =>
    exact inv_withHash h (withScratch_variant ..) (laneFileSize_withScratch ..) ((everyLane_withScratch ..).2 h.counters)
      (fun hw => (everyLane_withScratch ..).2 (h.idle_lanes hw)) (fun hw => (everyLane_withScratch ..).2 (h.wiped_lanes hw))
      ((datapathShaped_withScratch ..).2 h.datapath)

theorem State.useScratch_params (s : State) : s.useScratch.params = s.params := by
  rw [State.useScratch]
  split <;> rfl

theorem inv_writeDigest (h : Inv s) (hout : ¬ s.params.outSize < s.offset + digestBytes s.variant) : Inv s.writeDigest :=
  have hstored : Inv (s.useScratch.memWrite s.offset s.digest) :=
    inv_memWrite (inv_useScratch h) (by rwa [State.useScratch_params, State.digest_length])
  { hstored with params := hstored.params }

/-- Where no check fails, the effect of every command keeps the invariant. -/
theorem inv_effect (h : Inv s) {i : Instr} (hok : firstError i s = none) : Inv (effect i s) := by
  cases i with
  | nop => exact h
  | reset => exact inv_resetStream h
  | wipe => exact inv_erase h
  | update =>
    rw [firstError] at hok
    split_ifs at hok with hw hin
    exact inv_absorb h hw _
  | finalize =>
    rw [firstError] at hok
    split_ifs at hok with hw hout
    exact inv_resetStream (inv_writeDigest h hout)
  | compress k =>
    rw [firstError] at hok
    split_ifs at hok with hw hk hin
    exact inv_compressAt h hw (Nat.lt_of_not_le hk) _
  | loadhdr =>
    rw [firstError] at hok
    split_ifs at hok with hin hlen hc
    exact inv_reconfigure h hc
  | storehdr =>
    rw [firstError] at hok
    split_ifs at hok with hout
    exact inv_memWrite h (by rwa [headerBytes_length])
  | setdeg n =>
    rw [firstError] at hok
    split_ifs at hok with hn hc
    exact inv_reconfigure h hc
  | readlane k =>
    rw [firstError] at hok
    split_ifs at hok with hk hout
    exact inv_memWrite h (by rwa [State.laneImageAt_length])

theorem inv_exec (h : Inv s) {i : Instr} {t : State} (hexec : exec i s = .next t) : Inv t := by
  rcases exec_next hexec with ⟨e, he, rfl⟩ | ⟨hok, rfl⟩
  · obtain ⟨hlo, hhi⟩ := firstError_code he
    exact inv_raise h hlo hhi
  · exact inv_complete (inv_effect h hok)

end

/-- Settles O59: the power-on state for legal parameters, and for those of Config. -/
theorem powerOnIsWellFormed : Obligations.PowerOnIsWellFormed :=
  ⟨fun _ _ => inv_powerOn, rfl, inv_powerOn (by decide)⟩

/-- Settles O60: case by case of what a step can be. -/
theorem stepsKeepStatesWellFormed : Obligations.StepsKeepStatesWellFormed := by
  intro s t h hstep
  rcases step_cases hstep with ⟨rest, i, u, -, -, -, hexec, rfl⟩ | ⟨rest, e, -, -, -, rfl⟩ | ⟨rest, -, -, rfl⟩ |
    ⟨a, width, rest, -, rfl⟩ | ⟨a, width, v, rest, -, rfl⟩ | ⟨rest, -, rfl⟩
  case inl => exact inv_settle (inv_exec (inv_setAgenda h rest) hexec)
  case inr.inl => exact inv_settle (inv_raise (inv_setAgenda h rest) (by decide) (by decide))
  case inr.inr.inl => exact inv_setAgenda h rest
  case inr.inr.inr.inl => exact inv_hostRead (inv_setAgenda h rest) a width
  case inr.inr.inr.inr.inl => exact inv_hostWrite (inv_setAgenda h rest) a width v
  case inr.inr.inr.inr.inr => exact inv_hardwareReset (inv_setAgenda h rest)

end Sys2Proof.Machine
end

section
/-! The engine's turn (spec/10_state.md R33, spec/20_memory.md R93), and what no command writes: the host's side (spec/30_encoding.md R122),
CFG and DEMOTED but by their own commands, and OUTMEM outside its own bytes (spec/20_memory.md R90). -/

namespace Sys2Proof.Machine

open Sys2Proof Sys2Proof.Safety

section
variable {i : Instr} {s t : State}

theorem engineTurn_total (s : State) : ∃ t, engineTurn s = .next t := by
  cases hbusy : s.busy with
  | false => exact ⟨s, engineTurn_idle hbusy⟩
  | true =>
    cases hdecode : decode s.latch.word with
    | error e => exact ⟨_, engineTurn_error hbusy hdecode⟩
    | ok i =>
      obtain ⟨u, hu⟩ := exec_total i s
      exact ⟨_, engineTurn_ok hbusy hdecode hu⟩

/-- Settles O8, event by event. -/
theorem noStepHalts : Obligations.NoStepHalts := by
  intro s
  have hengine : ∀ rest, s.turn rest → ∃ t, step s = .next t := fun rest hturn => by
    rw [step_turn hturn]
    exact engineTurn_total _
  cases hagenda : s.agenda with
  | nil => exact hengine [] (.inl ⟨hagenda, rfl⟩)
  | cons e rest =>
    cases e with
    | read a width => exact ⟨_, step_read hagenda⟩
    | write a width v => exact ⟨_, step_write hagenda⟩
    | engine => exact hengine rest (.inr hagenda)
    | hardwareReset => exact ⟨_, step_hardwareReset hagenda⟩

/-- Settles O5: both forms of the engine's turn are one step of `engineTurn`. -/
theorem stepRunsTheDecodedCommand : Obligations.StepRunsTheDecodedCommand := by
  intro s t i hbusy hdecode
  refine ⟨fun hnone hexec => ?_, fun rest hnext hexec => ?_, rfl, t.blankDatapath_settle⟩
  · have hself : s.setAgenda [] = s := by rw [← hnone, State.setAgenda_self]
    rw [step_turn (.inl ⟨hnone, rfl⟩), hself]
    exact engineTurn_ok hbusy hdecode hexec
  · rw [step_turn (.inr hnext)]
    exact engineTurn_ok (s := s.setAgenda rest) hbusy hdecode hexec

/-- Settles O10: LAST_ERR 0 rules out that the command raised. -/
theorem successKeepsErrSticky : Obligations.SuccessKeepsErrSticky := by
  intro i s t hexec hok
  rcases exec_next hexec with ⟨e, he, rfl⟩ | ⟨-, rfl⟩
  · exact absurd hok (State.raise_lastErr_ne_zero he)
  · exact ⟨effect_errSticky i s, rfl⟩

/-- FINALIZE's own writes: the scratch of the hash unit on the tree path, the digest's bytes and DEMOTED. -/
theorem State.writeDigest_eq (s : State) :
    s.writeDigest =
      { s with hash := s.useScratch.hash, mem := memStoreBytes s.mem (outBase + s.offset) s.digest, demoted := s.demotes } := by
  unfold State.writeDigest State.useScratch
  split <;> rfl

@[simp] theorem State.writeDigest_params (s : State) : s.writeDigest.params = s.params := by rw [State.writeDigest_eq]
@[simp] theorem State.writeDigest_cmd (s : State) : s.writeDigest.cmd = s.cmd := by rw [State.writeDigest_eq]
@[simp] theorem State.writeDigest_argOff (s : State) : s.writeDigest.argOff = s.argOff := by rw [State.writeDigest_eq]
@[simp] theorem State.writeDigest_argLen (s : State) : s.writeDigest.argLen = s.argLen := by rw [State.writeDigest_eq]
@[simp] theorem State.writeDigest_latch (s : State) : s.writeDigest.latch = s.latch := by rw [State.writeDigest_eq]
@[simp] theorem State.writeDigest_cfg (s : State) : s.writeDigest.cfg = s.cfg := by rw [State.writeDigest_eq]
@[simp] theorem State.writeDigest_agenda (s : State) : s.writeDigest.agenda = s.agenda := by rw [State.writeDigest_eq]
@[simp] theorem State.writeDigest_reads (s : State) : s.writeDigest.reads = s.reads := by rw [State.writeDigest_eq]
@[simp] theorem State.writeDigest_epoch (s : State) : s.writeDigest.epoch = s.epoch := by rw [State.writeDigest_eq]
@[simp] theorem State.writeDigest_freeCtr (s : State) : s.writeDigest.freeCtr = s.freeCtr := by rw [State.writeDigest_eq]
@[simp] theorem State.writeDigest_hash (s : State) : s.writeDigest.hash = s.useScratch.hash := by rw [State.writeDigest_eq]
@[simp] theorem State.writeDigest_mem (s : State) : s.writeDigest.mem = memStoreBytes s.mem (outBase + s.offset) s.digest := by
  rw [State.writeDigest_eq]
@[simp] theorem State.writeDigest_demoted (s : State) : s.writeDigest.demoted = s.demotes := by rw [State.writeDigest_eq]

theorem State.absorb_hostSide (s : State) (src : List Byte) : HostSideKept s (s.absorb src) := by
  simp only [HostSideKept, State.absorb_params, State.absorb_cmd, State.absorb_argOff, State.absorb_argLen, State.absorb_latch,
    State.absorb_agenda, State.absorb_reads, State.absorb_epoch, State.absorb_freeCtr, and_self]

theorem effect_hostSide (i : Instr) (s : State) : HostSideKept s (effect i s) := by
  cases i with
  | update => exact s.absorb_hostSide _
  | nop | reset | finalize | compress k | loadhdr | storehdr | setdeg n | readlane k | wipe => simp [effect, HostSideKept]

theorem exec_hostSide (h : exec i s = .next t) : HostSideKept s t := by
  rcases exec_next h with ⟨e, -, rfl⟩ | ⟨-, rfl⟩
  · exact ⟨rfl, rfl, rfl, rfl, rfl, rfl, rfl, rfl, rfl⟩
  · exact effect_hostSide i s

/-- Settles O25: neither an error nor an effect writes the host's side. -/
theorem commandsKeepTheHostSide : Obligations.CommandsKeepTheHostSide := fun _ _ _ => exec_hostSide

/-- Only the commands that configure write CFG (spec/10_state.md R36). -/
theorem effect_cfg (hi : ¬ Configures i) (s : State) : (effect i s).cfg = s.cfg := by
  cases i with
  | loadhdr | setdeg n => exact (hi (by simp [Configures])).elim
  | update => exact State.absorb_cfg s _
  | nop | reset | finalize | compress k | storehdr | readlane k | wipe => simp [effect]

/-- Only FINALIZE writes DEMOTED (spec/10_state.md R48). -/
theorem effect_demoted (hi : i ≠ .finalize) (s : State) : (effect i s).demoted = s.demoted := by
  cases i with
  | finalize => exact absurd rfl hi
  | update => exact State.absorb_demoted s _
  | nop | reset | compress k | loadhdr | storehdr | setdeg n | readlane k | wipe => simp [effect]

/-- A step completes a command, or is a hardware reset, or writes neither CFG nor DEMOTED. -/
theorem step_completes_or_keeps (h : step s = .next t) :
    ((s.agenda = [] ∨ s.agenda.head? = some .engine) ∧ s.busy = true ∧ ∃ rest i, decode s.latch.word = .ok i ∧
      t = (effect i (s.setAgenda rest)).complete.settle) ∨
    s.agenda.head? = some .hardwareReset ∨ (t.cfg = s.cfg ∧ t.demoted = s.demoted) := by
  rcases step_cases h with ⟨rest, i, u, hturn, hbusy, hdecode, hexec, rfl⟩ | ⟨rest, e, -, -, -, rfl⟩ | ⟨rest, -, -, rfl⟩ |
    ⟨a, width, rest, -, rfl⟩ | ⟨a, width, v, rest, -, rfl⟩ | ⟨rest, hreset, rfl⟩
  case inl =>
    rcases exec_next hexec with ⟨e, -, rfl⟩ | ⟨-, rfl⟩
    · exact .inr (.inr ⟨rfl, rfl⟩)
    · exact .inl ⟨hturn.agenda, hbusy, rest, i, hdecode, rfl⟩
  case inr.inl => exact .inr (.inr ⟨rfl, rfl⟩)
  case inr.inr.inl => exact .inr (.inr ⟨rfl, rfl⟩)
  case inr.inr.inr.inl => rw [State.hostRead_eq]; exact .inr (.inr ⟨rfl, rfl⟩)
  case inr.inr.inr.inr.inl => rw [State.hostWrite_eq]; exact .inr (.inr ⟨rfl, rfl⟩)
  case inr.inr.inr.inr.inr => exact .inr (.inl (by rw [hreset]; rfl))

/-- Settles O27: only LOADHDR's and SETDEG's effects write CFG. -/
theorem onlyConfigurationChangesCfg : Obligations.OnlyConfigurationChangesCfg := by
  intro s t h hne
  rcases step_completes_or_keeps h with ⟨hturn, hbusy, rest, i, hdecode, rfl⟩ | hreset | ⟨hcfg, -⟩
  case inl =>
    have hi : Configures i := by_contra fun hi => hne (effect_cfg hi (s.setAgenda rest))
    refine .inl ⟨hturn, hbusy, ?_, rfl⟩
    rcases hi with rfl | ⟨n, rfl⟩
    · exact .inl hdecode
    · exact .inr ⟨n, hdecode⟩
  case inr.inl => exact .inr hreset
  case inr.inr => exact absurd hcfg hne

/-- Settles O28: only FINALIZE's effect writes DEMOTED. -/
theorem onlyFinalizeWritesDemoted : Obligations.OnlyFinalizeWritesDemoted := by
  intro s t h hne
  rcases step_completes_or_keeps h with ⟨hturn, hbusy, rest, i, hdecode, rfl⟩ | hreset | ⟨-, hdemoted⟩
  case inl =>
    obtain rfl : i = .finalize := by_contra fun hi => hne (effect_demoted hi (s.setAgenda rest))
    exact .inl ⟨hturn, hbusy, hdecode, rfl⟩
  case inr.inl => exact .inr hreset
  case inr.inr => exact absurd hdemoted hne

theorem State.byteAt_memWrite_outside {o a : Nat} {bs : List Byte} (ha : ¬ (outBase + o ≤ a ∧ a < outBase + o + bs.length)) :
    (s.memWrite o bs).byteAt a = s.byteAt a := by
  rw [State.byteAt_memWrite, if_neg ha]

theorem State.byteAt_memWrite_inside {o j : Nat} {bs : List Byte} (hj : j < bs.length) :
    (s.memWrite o bs).byteAt (outBase + o + j) = bs.getD j 0 := by
  rw [State.byteAt_memWrite, if_pos ⟨Nat.le_add_right .., Nat.add_lt_add_left hj _⟩, Nat.add_sub_cancel_left]

/-- What FINALIZE stores is the digest. -/
theorem State.byteAt_writeDigest (s : State) (a : Nat) : s.writeDigest.byteAt a = (s.memWrite s.offset s.digest).byteAt a :=
  State.byteAt_congr (by simp) (by simp) a

/-- The bytes a command does not own (spec/20_memory.md R90). -/
theorem effect_byteAt (hi : i ≠ .wipe) {a : Nat} (ha : ¬ (outBase + s.offset ≤ a ∧ a < outBase + s.offset + outBytes i s)) :
    (effect i s).byteAt a = s.byteAt a := by
  cases i with
  | wipe => exact absurd rfl hi
  | update => exact State.byteAt_congr (State.absorb_mem ..) (State.absorb_epoch ..) a
  | finalize => exact (s.byteAt_writeDigest a).trans (State.byteAt_memWrite_outside (by rwa [State.digest_length]))
  | storehdr => exact State.byteAt_memWrite_outside (by rwa [headerBytes_length])
  | readlane k => exact State.byteAt_memWrite_outside (by rwa [State.laneImageAt_length])
  | nop | reset | compress k | loadhdr | setdeg n => rfl

end

/-- Settles O26: an error stores nothing, and an effect only the command's bytes. -/
theorem commandsStoreOnlyTheirBytes : Obligations.CommandsStoreOnlyTheirBytes := by
  intro i s t hexec hi
  rcases exec_next hexec with ⟨e, -, rfl⟩ | ⟨hok, rfl⟩
  · exact ⟨fun _ => rfl, fun _ _ => rfl⟩
  · exact ⟨fun herr => absurd hok herr, fun _ ha => effect_byteAt hi ha⟩

end Sys2Proof.Machine
end

section
/-! The result of each command that succeeds: the streaming commands (spec/41_streaming.md R224, R227), COMPRESS (spec/40_compression.md R178)
and the configuration commands (spec/43_config_control.md R331 to R337). -/

namespace Sys2Proof.Machine

open Sys2Proof Sys2Proof.Safety

section
variable {s : State}

theorem firstError_update_eq_none (hw : s.fsm ≠ .wiped) (hin : s.offset + s.length ≤ s.params.inSize) : firstError .update s = none := by
  rw [firstError, if_neg hw, if_neg (Nat.not_lt.2 hin)]

theorem exec_update (hw : s.fsm ≠ .wiped) (hin : s.offset + s.length ≤ s.params.inSize) :
    exec .update s = .next (s.absorb (s.memRead s.offset s.length)).complete :=
  exec_of_ok (firstError_update_eq_none hw hin)

/-- Settles O17: UPDATE's effect is State.absorb of the bytes at its range. -/
theorem updateAbsorbsItsBytes : Obligations.UpdateAbsorbsItsBytes := fun _ => exec_update

/-- Settles O14: a range of no bytes holds nothing to absorb. -/
theorem emptyUpdateChangesNothing : Obligations.EmptyUpdateChangesNothing := by
  intro s hw hoff hlen
  rw [exec_update hw (by omega), State.memRead_eq_nil.2 hlen, State.absorb_nil]
  rfl

/-- Settles O15: the fit branch of State.absorb appends the bytes of the range at MLEN. -/
theorem fittingUpdateIsBuffered : Obligations.FittingUpdateIsBuffered := by
  intro s h hw hin hpos hfit
  have hsome : s.memRead s.offset s.length ≠ [] := fun hnone => hpos.ne' (State.memRead_eq_nil.1 hnone)
  obtain ⟨heq, hbuffered, hroom⟩ := State.absorb_fit h.fits hsome (by rwa [State.memRead_length])
  refine ⟨_, exec_update hw hin, hbuffered, ?frame, hroom, ?behind⟩
  case frame => rw [heq, State.memRead_length]; rfl
  case behind =>
    have hbehind := splice_drop (s := s.mb) (new := s.memRead s.offset s.length) (i := s.mlen)
      (by rw [State.memRead_length]; exact hfit.trans h.fits.room)
    rw [State.memRead_length] at hbehind
    rw [heq]
    exact hbehind

/-- Settles O16: the overflow branch of State.absorb is one pass of `flushLane` over the lanes. -/
theorem overflowingUpdateFlushesSegments : Obligations.OverflowingUpdateFlushesSegments := by
  intro s h hw hin hover m
  obtain ⟨hhash, hbuffered, hmlen, -, hreached, hfsm⟩ :=
    State.absorb_overflow (src := s.memRead s.offset s.length) h.fits (by rwa [State.memRead_length])
  have hlength : m.length = s.mlen + s.length := by simp [m, State.buffered_length h.fits]
  refine ⟨_, exec_update hw hin, hmlen.trans (by rw [← hlength]; rfl), hbuffered, ?lanes, ?hidden, ?frame⟩
  case lanes =>
    rw [State.complete_hash, hhash]
    exact lanesRelated_mapBank fun _ _ _ _ => rfl
  case hidden => rw [State.complete_hash, hhash, hiddenParts_mapBank]
  case frame =>
    rw [State.absorb_eq, hreached, hfsm]
    rfl

theorem State.takesTree_of_sequential (hseq : s.parallel = false) : s.takesTree = false := by
  rw [State.takesTree, hseq, Bool.false_and]

theorem State.digest_of_takesTree (h : s.takesTree = true) : s.digest = s.treeFinal ∧ s.demotes = false :=
  ⟨by rw [State.digest, if_pos h], by rw [State.demotes, h, Bool.not_true, Bool.and_false]⟩

theorem State.digest_of_not_takesTree (h : s.takesTree = false) : s.digest = s.seqFinal ∧ s.demotes = s.parallel :=
  ⟨by rw [State.digest, h, if_neg Bool.false_ne_true], by rw [State.demotes, h, Bool.not_false, Bool.and_true]⟩

@[simp] theorem lanesRelated_withScratch_left {R : {w : Nat} → Alg w → Nat → Lane w → Lane w → Prop} (f : {w : Nat} → Alg w → Scratch w)
    (b c : HashBank) : lanesRelated R (withScratch f b) c ↔ lanesRelated R b c := by
  cases b <;> cases c <;> rfl

theorem State.lanesRelated_useScratch {R : {w : Nat} → Alg w → Nat → Lane w → Lane w → Prop} (s : State) (c : HashBank) :
    lanesRelated R s.useScratch.hash c ↔ lanesRelated R s.hash c := by
  rw [State.useScratch]
  split
  · exact lanesRelated_withScratch_left (freeScratch s.freeCtr s.params) s.hash c
  · rfl

@[simp] theorem State.useScratch_variant (s : State) : s.useScratch.variant = s.variant := by
  rw [State.useScratch]
  split
  · exact withScratch_variant (freeScratch s.freeCtr s.params) s.hash
  · rfl

@[simp] theorem State.writeDigest_variant (s : State) : s.writeDigest.variant = s.variant :=
  (congrArg HashBank.variant s.writeDigest_hash).trans s.useScratch_variant

theorem State.writeDigest_restarts (s : State) : StreamRestarted s s.writeDigest.resetStream := by
  refine ⟨?_, by rw [State.resetStream_mb, State.writeDigest_variant, State.writeDigest_params], rfl, rfl, rfl⟩
  have hlanes := s.writeDigest.resetStream_restarts.1
  rwa [State.writeDigest_hash, State.lanesRelated_useScratch] at hlanes

@[simp] theorem State.byteAt_complete (s : State) (a : Nat) : s.complete.byteAt a = s.byteAt a := rfl

@[simp] theorem State.byteAt_resetStream (s : State) (a : Nat) : s.resetStream.byteAt a = s.byteAt a := rfl

theorem exec_finalize (hw : s.fsm ≠ .wiped) (hout : s.offset + digestBytes s.variant ≤ s.params.outSize) :
    exec .finalize s = .next s.writeDigest.resetStream.complete :=
  exec_of_ok (by rw [firstError, if_neg hw, if_neg (Nat.not_lt.2 hout)])

/-- Settles O18: the digest and DEMOTED by the three paths, stored before the stream restarts. -/
theorem finalizeWritesTheDigest : Obligations.FinalizeWritesTheDigest := by
  intro s hw hoff hout
  refine ⟨_, s.digest, s.demotes, exec_finalize hw (by omega), fun hseq => ?sequential, fun hpar hreached hshort => ?demoted,
    fun hpar hlong => ?tree, s.digest_length, fun j hj => ?stored, fun a ha => ?others, s.writeDigest_demoted,
    s.writeDigest_restarts, rfl, rfl, s.writeDigest_cfg, s.writeDigest_errSticky, effect_hostSide .finalize s⟩
  case sequential => exact hseq ▸ State.digest_of_not_takesTree (State.takesTree_of_sequential hseq)
  case demoted => exact hpar ▸ State.digest_of_not_takesTree ((State.takesTree_eq_false_iff hpar).2 ⟨hreached, hshort⟩)
  case tree =>
    refine State.digest_of_takesTree ?_
    rcases hlong with hreached | hlong
    · simp [State.takesTree, hpar, hreached]
    · simp [State.takesTree, hpar, hlong]
  case stored =>
    rw [State.byteAt_complete, State.byteAt_resetStream, State.byteAt_writeDigest,
      State.byteAt_memWrite_inside (by rwa [State.digest_length])]
  case others =>
    rw [State.byteAt_complete, State.byteAt_resetStream, State.byteAt_writeDigest,
      State.byteAt_memWrite_outside (by rwa [State.digest_length])]

/-- A pass over the lanes relates the two files lane by lane, given what holds of every lane before it. -/
theorem lanesRelated_mapBank_of_everyLane {R : {w : Nat} → Alg w → Nat → Lane w → Lane w → Prop}
    {P : {w : Nat} → Alg w → Nat → Lane w → Prop} {f : {w : Nat} → Alg w → Nat → Lane w → Lane w} {b : HashBank} (hP : everyLane P b)
    (h : ∀ {w : Nat} (A : Alg w) (k : Nat) (l : Lane w), A.variant = b.variant → P A k l → R A k l (f A k l)) :
    lanesRelated R b (mapBank f b) := by
  cases b with
  | sha256 u =>
    refine ⟨by simp, fun k l l' hl hl' => ?_⟩
    simp only [List.getElem?_mapIdx, hl, Option.map_some, Option.some.injEq] at hl'
    exact hl' ▸ h _ _ _ rfl (hP k l hl)
  | sha512 u =>
    refine ⟨by simp, fun k l l' hl hl' => ?_⟩
    simp only [List.getElem?_mapIdx, hl, Option.map_some, Option.some.injEq] at hl'
    exact hl' ▸ h _ _ _ rfl (hP k l hl)

/-- The lanes in use are registers that exist. -/
theorem laneCount_le_laneFileSize (h : Inv s) : s.laneCount ≤ laneFileSize s.hash :=
  h.lane_file ▸ (State.laneCount_bounds h.config).2

theorem exec_compress {k : Nat} (hw : s.fsm ≠ .wiped) (hk : k < s.laneCount) (hin : s.offset + blockBytes s.variant ≤ s.params.inSize) :
    exec (.compress k) s = .next (s.compressAt k (s.memRead s.offset (blockBytes s.variant))).complete :=
  exec_of_ok (by rw [firstError, if_neg hw, if_neg (Nat.not_le.2 hk), if_neg (Nat.not_lt.2 hin)])

theorem State.complete_compressAt (s : State) (k : Nat) (blk : List Byte) :
    (s.compressAt k blk).complete = { s with hash := (s.compressAt k blk).hash, busy := false, lastErr := 0 } := rfl

/-- Settles O19: one lane is compressed, and its counter counts the block. -/
theorem compressChangesOneLane : Obligations.CompressChangesOneLane := by
  intro s k h hw hk hin
  have hhash := s.compressAt_hash_eq k (s.memRead s.offset (blockBytes s.variant))
  refine ⟨_, exec_compress hw hk hin, ?register, ?lanes, ?hidden, s.complete_compressAt k _⟩ <;> rw [State.complete_hash, hhash]
  case register =>
    rw [laneFileSize_mapBank]
    exact hk.trans_le (laneCount_le_laneFileSize h)
  case lanes =>
    refine lanesRelated_mapBank_of_everyLane h.counters fun A j l hA hcount => ⟨fun hne => if_neg hne, fun heq => ?_⟩
    rw [if_pos heq, show s.variant = A.variant from hA.symm]
    exact ⟨rfl, (compressLane_total A _ hcount).1⟩
  case hidden => exact hiddenParts_mapBank ..

/-- The value of two fields one above the other. -/
theorem toNat_append_eq_add {m n : Nat} (x : BitVec m) (y : BitVec n) : (x ++ y).toNat = x.toNat * 2 ^ n + y.toNat := by
  rw [BitVec.toNat_append, ← Nat.shiftLeft_add_eq_or_of_lt y.isLt, Nat.shiftLeft_eq]

/-- The header at a range's start, field by field from its bytes (spec/10_state.md R43). -/
theorem State.headerAt_eq (s : State) (o : Nat) :
    let h := fun j => s.byteAt (inBase + o + j)
    s.headerAt o =
      { digestLength := h 0, keyLength := h 1, treeDepth := h 2, leafLength := h 6 ++ h 5 ++ h 4 ++ h 3, parallelDegree := h 7,
        subTreeLength := h 8, nodeOffset := h 9, reserved1 := h 11 ++ h 10, reserved2 := h 15 ++ h 14 ++ h 13 ++ h 12 } := by
  intro h
  have four : ∀ a b c d : Byte, BitVec.ofNat 32 (leNat [a, b, c, d]) = d ++ c ++ b ++ a := by
    intro a b c d
    apply BitVec.eq_of_toNat_eq
    have := a.isLt; have := b.isLt; have := c.isLt; have := d.isLt
    simp only [leNat, BitVec.toNat_ofNat, toNat_append_eq_add]
    omega
  have two : ∀ a b : Byte, BitVec.ofNat 16 (leNat [a, b]) = b ++ a := by
    intro a b
    apply BitVec.eq_of_toNat_eq
    have := a.isLt; have := b.isLt
    simp only [leNat, BitVec.toNat_ofNat, toNat_append_eq_add]
    omega
  rw [← four, ← four, ← two]
  rfl

theorem State.reconfigure_restarts (s : State) (c : TreeParams) : StreamRestarted s (s.reconfigure c) :=
  State.resetStream_restarts { s with cfg := c }

theorem State.hiddenParts_reconfigure (s : State) (c : TreeParams) : hiddenParts (s.reconfigure c).hash = hiddenParts s.hash :=
  State.hiddenParts_resetStream { s with cfg := c }

/-- Settles O20: the check of the header's fields decides between the new configuration and ConfigurationError. -/
theorem loadhdrSetsTheConfiguration : Obligations.LoadhdrSetsTheConfiguration := by
  intro s hin hlen h c
  have hcheck : firstError .loadhdr s = if ¬ LegalConfig s.variant s.params c then some .configurationError else none := by
    rw [firstError, if_neg (Nat.not_lt.2 hin), if_neg (Nat.not_lt.2 hlen)]
    exact congrArg (fun c => if ¬ LegalConfig s.variant s.params c then some ErrorKind.configurationError else none) (s.headerAt_eq s.offset)
  by_cases hlegal : LegalConfig s.variant s.params c
  · rw [if_neg (not_not.2 hlegal)] at hcheck
    exact ⟨_, exec_of_ok hcheck, fun _ => ⟨s.headerAt_eq s.offset, s.reconfigure_restarts _, rfl, rfl, rfl, rfl, rfl,
      s.hiddenParts_reconfigure _, effect_hostSide .loadhdr s⟩, fun hillegal => absurd hlegal hillegal⟩
  · rw [if_pos hlegal] at hcheck
    exact ⟨_, exec_of_error hcheck, fun h => absurd h hlegal, fun _ => rfl⟩

/-- The degree SETDEG sets is legal wherever CFG was and the subtree checks hold for it. -/
theorem legalConfig_withDegree {v : Variant} {p : Params} {c : TreeParams} {n : Nat} (hc : LegalConfig v p c) (hn : n < 256)
    (heven : n % 2 = 0) (hlo : 2 ≤ n) (hhi : n ≤ p.maxDegree)
    (hsubtree : c.treeDepth.toNat = 2 → (n * interleave v) % c.subTreeLength.toNat = 0 ∧
      (p.strictPairing = true → c.subTreeLength.toNat % 2 = 0 ∧ (n * interleave v / c.subTreeLength.toNat) % 2 = 0)) :
    LegalConfig v p (withDegree c n) := by
  rw [legalConfig_iff] at hc ⊢
  obtain ⟨hdepth, hdigest, hreserved, -, -, htwo, -⟩ := hc
  have hdegree : (withDegree c n).parallelDegree.toNat = n := by
    rw [withDegree, BitVec.toNat_ofNat, Nat.mod_eq_of_lt hn]
  have hdepth' : (withDegree c n).treeDepth.toNat = if c.treeDepth.toNat = 0 then 1 else c.treeDepth.toNat := by
    rw [withDegree, apply_ite BitVec.toNat]
    exact if_congr BitVec.toNat_eq rfl rfl
  have hsub : (withDegree c n).treeDepth.toNat = 2 → c.treeDepth.toNat = 2 := by
    rw [hdepth']
    split <;> omega
  rw [ValidConfig, hdegree]
  refine ⟨?_, hdigest, hreserved, ?_, fun _ => ⟨heven, hlo, hhi⟩, fun h2 => ⟨(htwo (hsub h2)).1, (hsubtree (hsub h2)).1⟩,
    fun h2 => (hsubtree (hsub h2)).2⟩ <;> rw [hdepth'] <;> split <;> omega

theorem State.parallel_withDegree (c : TreeParams) (n : Nat) (hcfg : s.cfg = withDegree c n) : s.parallel = true := by
  rw [State.parallel, hcfg, withDegree, decide_eq_true_eq]
  dsimp only
  split
  case isTrue => decide
  case isFalse h => exact Nat.one_le_iff_ne_zero.2 fun h0 => h (BitVec.eq_of_toNat_eq h0)

/-- Settles O21: SETDEG's two checks pass, and its effect is the reconfiguration. -/
theorem setdegSetsTheDegree : Obligations.SetdegSetsTheDegree := by
  intro s n h heven hlo hhi hsubtree
  obtain ⟨-, hmax, -⟩ := h.params
  have hn : n < 256 := by omega
  have hlegal := legalConfig_withDegree h.config hn heven hlo hhi hsubtree
  have hok : firstError (.setdeg n) s = none := by
    rw [firstError, if_neg (by omega), if_neg (not_not.2 hlegal)]
  exact ⟨_, exec_of_ok hok, by rw [State.complete_cfg, effect, State.reconfigure_cfg, withDegree, BitVec.toNat_ofNat, Nat.mod_eq_of_lt hn],
    rfl, rfl, s.reconfigure_restarts _, State.parallel_withDegree s.cfg n rfl, rfl, rfl, rfl, rfl, rfl, s.hiddenParts_reconfigure _,
    effect_hostSide (.setdeg n) s⟩

/-- A command that only stores into OUTMEM. -/
theorem State.complete_memWrite (s : State) (o : Nat) (bs : List Byte) :
    (s.memWrite o bs).complete = { s with mem := (s.memWrite o bs).mem, busy := false, lastErr := 0 } := rfl

/-- The bytes a store puts into OUTMEM, read back. -/
theorem State.map_byteAt_memWrite {o n : Nat} {bs : List Byte} (hn : bs.length = n) :
    (List.range n).map (fun j => (s.memWrite o bs).byteAt (outBase + o + j)) = bs := by
  subst hn
  apply List.ext_getElem
  · simp
  · intro j _ hj
    rw [List.getElem_map, List.getElem_range, State.byteAt_memWrite_inside hj, List.getD_eq_getElem _ _ hj]

theorem exec_storehdr (hout : s.offset + 16 ≤ s.params.outSize) :
    exec .storehdr s = .next (s.memWrite s.offset (headerBytes s.cfg)).complete :=
  exec_of_ok (if_neg (Nat.not_lt.2 hout))

theorem exec_readlane {k : Nat} (hk : k < s.laneCount) (hout : s.offset + (digestBytes s.variant + 16) ≤ s.params.outSize) :
    exec (.readlane k) s = .next (s.memWrite s.offset (s.laneImageAt k)).complete :=
  exec_of_ok (by rw [firstError, if_neg (Nat.not_le.2 hk), if_neg (Nat.not_lt.2 hout)])

/-- Settles O22: the sixteen bytes are the header of CFG, laid out by `headerBytes_eq`. -/
theorem storehdrWritesTheHeader : Obligations.StorehdrWritesTheHeader := by
  intro s hoff hout
  refine ⟨_, exec_storehdr (by omega), ?header, fun a ha => ?others, s.complete_memWrite _ _⟩
  case header =>
    simp only [State.byteAt_complete]
    rw [State.map_byteAt_memWrite (headerBytes_length s.cfg), headerBytes_eq]
  case others => rw [State.byteAt_complete, State.byteAt_memWrite_outside (by rwa [headerBytes_length])]

/-- A value read off lane k is read off the register of that number. -/
theorem everyLane_fromLanes {α : Type} (F : {w : Nat} → Lane w → α) (k : Nat) (b : HashBank) :
    everyLane (fun _ j l => j = k → fromLanes (fun A lanes => F (laneAt A lanes k)) b = F l) b := by
  have hlane : ∀ {w : Nat} (A : Alg w) (lanes : List (Lane w)) (j : Nat) (l : Lane w), lanes[j]? = some l → j = k → laneAt A lanes k = l := by
    rintro w A lanes j l hl rfl
    rw [laneAt, List.getD_eq_getElem?_getD, hl, Option.getD_some]
  cases b with
  | sha256 u => exact fun j l hl hj => congrArg F (hlane alg256 _ j l hl hj)
  | sha512 u => exact fun j l hl hj => congrArg F (hlane alg512 _ j l hl hj)

/-- A lane's bytes in the byte order of Safety.lean (spec/43_config_control.md R337). -/
theorem laneImage_eq_refBytes {w : Nat} (l : Lane w) :
    laneImage l =
      [l.words.a, l.words.b, l.words.c, l.words.d, l.words.e, l.words.f, l.words.g, l.words.h].flatMap
        (fun x => refBytes (w / 8) x.toNat) ++ refBytes 8 l.cntHi.toNat ++ refBytes 8 l.cntLo.toNat := by
  simp only [← beBytes_eq_refBytes]
  rfl

/-- Settles O23: what is stored is the image of the lane's register. -/
theorem readlaneWritesTheLane : Obligations.ReadlaneWritesTheLane := by
  intro s k h hk hoff hout
  refine ⟨_, exec_readlane hk (by omega), hk.trans_le (laneCount_le_laneFileSize h), ?lane, fun a ha => ?others, s.complete_memWrite _ _⟩
  case lane =>
    refine everyLane_imp (everyLane_fromLanes laneImage k s.hash) fun A j l _ himage hj i hi => ?_
    rw [← laneImage_eq_refBytes, ← himage hj, State.byteAt_complete, State.byteAt_memWrite_inside (by rwa [State.laneImageAt_length]),
      State.laneImageAt]
  case others => rw [State.byteAt_complete, State.byteAt_memWrite_outside (by rwa [State.laneImageAt_length])]

end

end Sys2Proof.Machine
end

section
/-! LaneFinal's compressions (spec/41_streaming.md R231), and the digests against the reference of Safety.lean: HashOf (spec/42_tree.md R288), and
what FINALIZE writes on a fresh stream in sequential mode, demoted, and by the tree (spec/41_streaming.md R229, spec/42_tree.md R285 to R292). -/

namespace Sys2Proof.Machine

open Sys2Proof Sys2Proof.Safety

section
variable {w : Nat} (A : Alg w)

/-- Padding compresses one block, or two where 0x80 and the length field do not both fit behind the tail. -/
theorem padLane_total (field : List Byte) {l : Lane w} (tail : List Byte) (hl : l.cntLo.toNat < 2 ^ 61) :
    laneTotal (padLane A field l tail) =
      (laneTotal l + if blockBytes A.variant - lengthBytes A.variant < tail.length + 1 then 2 * blockBytes A.variant
        else blockBytes A.variant) % 2 ^ 125 := by
  simp only [padLane]
  split
  case isTrue =>
    obtain ⟨hfirst, hlo⟩ := compressLane_total A (tail ++ [0x80#8] ++ zeros (blockBytes A.variant - tail.length - 1)) hl
    rw [(compressLane_total A _ hlo).1, hfirst]
    omega
  case isFalse => exact (compressLane_total A _ hl).1

/-- A full tail is one block by itself, and the padding after it one more. -/
theorem finishLane_total {l : Lane w} (tail : List Byte) (hl : l.cntLo.toNat < 2 ^ 61) :
    laneTotal (finishLane A l tail) =
      (laneTotal l + if blockBytes A.variant - lengthBytes A.variant < tail.length + 1 then 2 * blockBytes A.variant
        else blockBytes A.variant) % 2 ^ 125 := by
  rw [finishLane]
  split
  case isTrue hfull =>
    have hroom := length_lt_block A.variant
    obtain ⟨hfirst, hlo⟩ := compressLane_total A tail hl
    rw [padLane_total A _ [] hlo, hfirst, if_neg (by rw [List.length_nil]; omega), if_pos (by omega)]
    omega
  case isFalse => exact padLane_total A _ tail hl

/-- Settles O36: `finishLane_total`, with the numbers of either variant. -/
theorem paddingTakesOneOrTwoBlocks : Obligations.PaddingTakesOneOrTwoBlocks := by
  refine ⟨fun l tail hl _ => ?_, fun l tail hl _ => ?_⟩
  · rw [finishLane_total alg256 tail hl]
    change (laneTotal l + if 64 - 8 < tail.length + 1 then 2 * 64 else 64) % 2 ^ 125 = _
    congr 2
    split <;> split <;> omega
  · rw [finishLane_total alg512 tail hl]
    change (laneTotal l + if 128 - 16 < tail.length + 1 then 2 * 128 else 128) % 2 ^ 125 = _
    congr 2
    split <;> split <;> omega

/-- HashOf, whatever blocks it is cut into, is the digest of the whole padded message. -/
theorem hashOf_eq_paddedDigest (m : List Byte) : hashOf A m = paddedDigest A m := by
  obtain ⟨bs, hbs, hlane, hcut, htail⟩ := absorbBlocks_spec A m.length (initLane A) m le_rfl
  rw [hashOf, finishMessage, hlane, laneFinal_compressAll A hbs htail, hcut]

/-- Every block of a cut sequence is a whole one. -/
theorem length_of_mem_blocksOf {B : Nat} {s b : List Byte} (hb : b ∈ blocksOf B s) : b.length = B := by
  obtain ⟨i, hi, rfl⟩ := List.mem_map.1 hb
  have hin : (i + 1) * B ≤ s.length := (Nat.mul_le_mul_right B (List.mem_range.1 hi)).trans (Nat.div_mul_le_self ..)
  rw [Nat.add_mul, Nat.one_mul] at hin
  rw [slice_length]
  omega

/-- The reference's block size, length field and initial value are the model's too. -/
structure AgreesOnMessages (R : Reference w) : Prop extends Agrees A R where
  blockSize : R.block = blockBytes A.variant
  lengthField : R.lengthField = lengthBytes A.variant
  iv : R.iv = A.iv

section
variable {A} {R : Reference w} (h : AgreesOnMessages A R)
include h

theorem AgreesOnMessages.fipsPad_eq (m : List Byte) : fipsPad R m = paddedMessage A.variant m := by
  rw [fipsPad, paddedMessage, h.blockSize, h.lengthField, beBytes_eq_refBytes]
  rfl

theorem AgreesOnMessages.paddedDigest_eq (m : List Byte) : paddedDigest A m = fipsDigest R m := by
  have hfold : (blocksOf (blockBytes A.variant) (paddedMessage A.variant m)).foldl (transform A) A.iv =
      (blocksOf (blockBytes A.variant) (paddedMessage A.variant m)).foldl R.transform A.iv :=
    List.foldl_ext _ _ _ fun hash b hb => h.transform_eq hash (by rw [length_of_mem_blocksOf hb, h.blockSize])
  rw [paddedDigest, hfold, fipsDigest, h.fipsPad_eq, h.blockSize, h.iv]
  simp only [← beBytes_eq_refBytes]
  rfl

theorem AgreesOnMessages.hashOf_eq (m : List Byte) : hashOf A m = fipsDigest R m := by
  rw [hashOf_eq_paddedDigest, h.paddedDigest_eq]

end

end

theorem alg256_agreesOnMessages : AgreesOnMessages alg256 fips256 := ⟨alg256_agrees, rfl, rfl, rfl⟩

theorem alg512_agreesOnMessages : AgreesOnMessages alg512 fips512 := ⟨alg512_agrees, rfl, rfl, rfl⟩

/-- Settles O41: both are the digest of the whole padded message, and the transforms agree. -/
theorem hashOfIsFips : Obligations.HashOfIsFips := ⟨alg256_agreesOnMessages.hashOf_eq, alg512_agreesOnMessages.hashOf_eq⟩

/-- A value read off a pass over the lanes, for an algorithm whose HashOf is the FIPS digest of its variant. -/
theorem fromLanes_mapBank_eq {α : Type} {F : {w : Nat} → Alg w → List (Lane w) → α} {f : {w : Nat} → Alg w → Nat → Lane w → Lane w}
    {P : {w : Nat} → Alg w → Nat → Lane w → Prop} {b : HashBank} {x : α} (hP : everyLane P b)
    (h : ∀ {w : Nat} (A : Alg w) (lanes : List (Lane w)), A.variant = b.variant → (∀ m, hashOf A m = plainDigest b.variant m) →
      lanes.length = laneFileSize b → (∀ k l, lanes[k]? = some l → P A k l) → F A (lanes.mapIdx (f A)) = x) :
    fromLanes F (mapBank f b) = x := by
  cases b with
  | sha256 u => exact h alg256 u.lanes rfl alg256_agreesOnMessages.hashOf_eq rfl hP
  | sha512 u => exact h alg512 u.lanes rfl alg512_agreesOnMessages.hashOf_eq rfl hP

-- ---------------------------------------------------------------- the bytes of one lane

/-- Of the bytes of a message from byte `i` of the whole on, those of lane `k` of `n`: the blocks of `B` bytes go round the lanes. -/
def laneBytes (B n k i : Nat) (m : List Byte) : List Byte := ((m.zipIdx i).filter (fun x => x.2 / B % n = k)).map Prod.fst

theorem laneMessage_eq_laneBytes (v : Variant) (n k : Nat) (m : List Byte) : laneMessage v n k m = laneBytes (blockBytes v) n k 0 m := rfl

section
variable {B n k i : Nat} {m : List Byte}

theorem laneBytes_append (a b : List Byte) : laneBytes B n k i (a ++ b) = laneBytes B n k i a ++ laneBytes B n k (i + a.length) b := by
  simp only [laneBytes, List.zipIdx_append, List.filter_append, List.map_append]

theorem laneBytes_eq_self (h : ∀ j, i ≤ j → j < i + m.length → j / B % n = k) : laneBytes B n k i m = m := by
  rw [laneBytes, List.filter_eq_self.2, List.zipIdx_map_fst]
  exact fun x hx => decide_eq_true (h _ (List.le_snd_of_mem_zipIdx hx) (List.snd_lt_add_of_mem_zipIdx hx))

theorem laneBytes_eq_nil (h : ∀ j, i ≤ j → j < i + m.length → j / B % n ≠ k) : laneBytes B n k i m = [] := by
  rw [laneBytes, List.filter_eq_nil_iff.2, List.map_nil]
  exact fun x hx => mt of_decide_eq_true (h _ (List.le_snd_of_mem_zipIdx hx) (List.snd_lt_add_of_mem_zipIdx hx))

/-- A byte of a segment of n blocks that begins at a multiple of n · B belongs to the lane its block is for (spec/42_tree.md R281). -/
theorem laneIndex_eq (hB : 0 < B) {p r : Nat} (hr : r < n * B) : (p * (n * B) + r) / B % n = r / B := by
  rw [← Nat.mul_assoc, Nat.mul_comm _ B, Nat.mul_add_div hB, Nat.mul_comm p n, Nat.mul_add_mod,
    Nat.mod_eq_of_lt (Nat.div_lt_of_lt_mul (by rwa [Nat.mul_comm]))]

/-- Of at most one segment, lane k's bytes are block k, as far as it goes (spec/42_tree.md R286). -/
theorem laneBytes_segment (hB : 0 < B) (hk : k < n) (p : Nat) (hm : m.length ≤ n * B) :
    laneBytes B n k (p * (n * B)) m = slice m (k * B) B := by
  have hend : (k + 1) * B ≤ n * B := Nat.mul_le_mul_right B hk
  rw [Nat.add_mul, Nat.one_mul] at hend
  have hlane : ∀ r, r < n * B → ((p * (n * B) + r) / B % n = k ↔ k * B ≤ r ∧ r < k * B + B) := by
    intro r hr
    rw [laneIndex_eq hB hr, Nat.div_eq_iff hB]
    omega
  have hbefore : laneBytes B n k (p * (n * B)) (m.take (k * B)) = [] := by
    refine laneBytes_eq_nil fun j hlo hhi hj => ?_
    obtain ⟨r, rfl⟩ := Nat.exists_eq_add_of_le hlo
    rw [List.length_take] at hhi
    have hr := (hlane r (by omega)).1 hj
    omega
  have hblock : laneBytes B n k (p * (n * B) + (m.take (k * B)).length) (slice m (k * B) B) = slice m (k * B) B := by
    refine laneBytes_eq_self fun j hlo hhi => ?_
    rw [List.length_take] at hlo hhi
    rw [slice_length] at hhi
    obtain ⟨r, rfl⟩ := Nat.exists_eq_add_of_le ((Nat.le_add_right ..).trans hlo)
    exact (hlane r (by omega)).2 (by omega)
  have hafter : laneBytes B n k (p * (n * B) + (m.take (k * B)).length + (slice m (k * B) B).length) (m.drop (k * B + B)) = [] := by
    refine laneBytes_eq_nil fun j hlo hhi hj => ?_
    rw [List.length_take, slice_length] at hlo hhi
    rw [List.length_drop] at hhi
    obtain ⟨r, rfl⟩ := Nat.exists_eq_add_of_le ((Nat.le_add_right ..).trans ((Nat.le_add_right ..).trans hlo))
    have hr := (hlane r (by omega)).1 hj
    omega
  have hcut : m = m.take (k * B) ++ (slice m (k * B) B ++ m.drop (k * B + B)) := by
    rw [slice, ← List.drop_drop, List.take_append_drop, List.take_append_drop]
  conv_lhs => rw [hcut]
  rw [laneBytes_append, laneBytes_append, hbefore, hblock, hafter, List.append_nil, List.nil_append]

/-- Lane k's bytes: its block of each whole segment, then its part of the rest. -/
theorem laneBytes_eq_blocks (hB : 0 < B) (hk : k < n) {q : Nat} (hlow : q * (n * B) ≤ m.length) (hhigh : m.length ≤ (q + 1) * (n * B)) (p : Nat) :
    laneBytes B n k (p * (n * B)) m =
      ((List.range q).map (fun j => slice m (j * (n * B) + k * B) B)).flatten ++ slice m (q * (n * B) + k * B) B := by
  induction q generalizing m p with
  | zero => simpa using laneBytes_segment hB hk p (by simpa using hhigh)
  | succ q ih =>
    have hfirst : (m.take (n * B)).length = n * B := by
      rw [List.length_take, Nat.min_eq_left]
      exact (Nat.le_mul_of_pos_left _ q.succ_pos).trans hlow
    rw [Nat.add_mul, Nat.one_mul] at hlow hhigh
    have hrest := ih (m := m.drop (n * B)) (by rw [List.length_drop]; omega) (by rw [List.length_drop]; omega) (p + 1)
    have hend : (k + 1) * B ≤ n * B := Nat.mul_le_mul_right B hk
    rw [Nat.add_mul, Nat.one_mul] at hend
    rw [← List.take_append_drop (n * B) m, laneBytes_append, hfirst, laneBytes_segment hB hk p hfirst.le, slice_take (by omega)]
    rw [show p * (n * B) + n * B = (p + 1) * (n * B) by rw [Nat.add_mul, Nat.one_mul], hrest, List.take_append_drop]
    have hshift : ∀ j, slice (m.drop (n * B)) (j * (n * B) + k * B) B = slice m ((j + 1) * (n * B) + k * B) B := by
      intro j
      rw [slice_drop, Nat.add_mul, Nat.one_mul]
      congr 1
      omega
    simp only [hshift, List.range_succ_eq_map, List.map_cons, List.map_map, List.flatten_cons, List.append_assoc, Nat.zero_mul, Nat.zero_add]
    rfl

end

/-- A lane that has flushed its blocks of `m` from IV and finishes with its part of the rest has the digest of its bytes (spec/42_tree.md
R287). -/
theorem laneDigest_initLane {n c q k w : Nat} {m : List Byte} (A : Alg w) (hc : n * blockBytes A.variant = c) (hk : k < n)
    (hlow : q * c ≤ m.length) (hhigh : m.length ≤ (q + 1) * c) :
    laneDigest n c q m A k (initLane A) = hashOf A (laneMessage A.variant n k m) := by
  subst hc
  have hbytes := laneBytes_eq_blocks (block_pos A.variant) hk hlow hhigh 0
  rw [Nat.zero_mul] at hbytes
  have hflush : flushLane n (n * blockBytes A.variant) q m A k (initLane A) =
      compressAll A (initLane A)
        ((List.range q).map (fun j => slice m (j * (n * blockBytes A.variant) + k * blockBytes A.variant) (blockBytes A.variant))) := by
    rw [flushLane, if_pos hk, compressAll, List.foldl_map]
  rw [laneDigest, hflush, laneFinal_compressAll A _ (by rw [slice_length]; omega), ← hbytes, ← laneMessage_eq_laneBytes, hashOf_eq_paddedDigest]
  intro b hb
  obtain ⟨j, hj, rfl⟩ := List.mem_map.1 hb
  have hsegment : (j + 1) * (n * blockBytes A.variant) ≤ q * (n * blockBytes A.variant) := Nat.mul_le_mul_right _ (List.mem_range.1 hj)
  have hblock : (k + 1) * blockBytes A.variant ≤ n * blockBytes A.variant := Nat.mul_le_mul_right _ hk
  rw [Nat.add_mul, Nat.one_mul] at hsegment hblock
  rw [slice_length]
  omega

-- ---------------------------------------------------------------- a message on a fresh stream

/-- In sequential mode every byte is lane 0's. -/
theorem laneMessage_one (v : Variant) (m : List Byte) : laneMessage v 1 0 m = m :=
  laneBytes_eq_self fun _ _ _ => Nat.mod_one _

section
variable {s t : State} {m : List Byte} {q : Nat}

/-- A well-formed fresh stream holds nothing. -/
theorem State.buffered_of_fresh (h : Inv s) (hf : FreshStream s) : s.buffered = [] := by
  rw [State.buffered, (h.fresh hf.1).1, List.take_zero]

/-- From a fresh stream, the length alone decides the tree path. -/
theorem Absorbed.takesTree_of_fresh (a : Absorbed s m q t) (h : Inv s) (hf : FreshStream s) :
    t.takesTree = (s.parallel && decide (s.capacity ≤ m.length)) := by
  obtain ⟨hmlen, hreached⟩ := h.fresh hf.1
  rw [a.takesTree, hmlen, hreached, Bool.false_or, Nat.zero_add]

/-- The bytes absorbed from a fresh stream, between q and q + 1 segments. -/
theorem Absorbed.bounds_of_fresh (a : Absorbed s m q t) (h : Inv s) (hf : FreshStream s) :
    q * s.capacity ≤ m.length ∧ m.length ≤ (q + 1) * s.capacity := by
  have hlow := a.low
  have hhigh := a.high
  rw [(h.fresh hf.1).1, Nat.zero_add] at hlow hhigh
  exact ⟨hlow, hhigh⟩

theorem Absorbed.seqFinal_of_sequential (a : Absorbed s m q t) (h : Inv s) (hf : FreshStream s) (hseq : s.parallel = false) :
    t.seqFinal = plainDigest s.variant m := by
  have hone : s.laneCount = 1 := by rw [State.laneCount, hseq, if_neg Bool.false_ne_true]
  have hsize := laneCount_le_laneFileSize h
  obtain ⟨hlow, hhigh⟩ := a.bounds_of_fresh h hf
  rw [State.seqFinal, a.hash]
  refine fromLanes_mapBank_eq hf.2 fun A lanes hA hplain hlanes hinit => ?_
  have hpos : 0 < lanes.length := by omega
  rw [a.finishMessage_eq h.fits hone A hA hpos, hinit 0 _ (getElem?_eq_some_laneAt A hpos), State.buffered_of_fresh h hf, List.nil_append,
    laneDigest_initLane A (State.capacity_eq hA) (by omega) hlow hhigh, hone, laneMessage_one, hplain]
  rfl

theorem Absorbed.seqFinal_of_short (a : Absorbed s m q t) (h : Inv s) (hf : FreshStream s) (hshort : m.length < s.capacity) :
    t.seqFinal = plainDigest s.variant m := by
  have hsize := laneCount_le_laneFileSize h
  have hcount := (State.laneCount_bounds h.config).1
  obtain ⟨hlow, -⟩ := a.bounds_of_fresh h hf
  obtain rfl : q = 0 := by
    by_contra hq
    have := Nat.le_mul_of_pos_left s.capacity (Nat.pos_of_ne_zero hq)
    omega
  have hheld : t.buffered = m := by rw [a.held, State.buffered_of_fresh h hf, Nat.zero_mul, List.nil_append, List.drop_zero]
  rw [State.seqFinal, a.hash, hheld]
  refine fromLanes_mapBank_eq hf.2 fun A lanes hA hplain hlanes hinit => ?_
  have hpos : 0 < lanes.length := by omega
  rw [laneAt_mapIdx A _ _ hpos, flushLane_zero, hinit 0 _ (getElem?_eq_some_laneAt A hpos)]
  exact hplain m

/-- The lane hashes that the tree reduces are the leaves (spec/42_tree.md R286, R287). -/
theorem Absorbed.laneHashes_of_fresh (a : Absorbed s m q t) (h : Inv s) (hf : FreshStream s) {w : Nat} {A : Alg w}
    (hA : A.variant = s.hash.variant) (hplain : ∀ m, hashOf A m = plainDigest s.variant m) {lanes : List (Lane w)}
    (hlanes : lanes.length = laneFileSize s.hash) (hinit : ∀ (k : Nat) (l : Lane w), lanes[k]? = some l → l = initLane A) :
    laneHashes A t.laneCount t.buffered (lanes.mapIdx (flushLane s.laneCount s.capacity q (s.buffered ++ m) A)) =
      (List.range s.laneCount).map (fun k => plainDigest s.variant (laneMessage s.variant s.laneCount k m)) := by
  have hsize : s.laneCount ≤ lanes.length := hlanes ▸ laneCount_le_laneFileSize h
  obtain ⟨hlow, hhigh⟩ := a.bounds_of_fresh h hf
  rw [a.laneHashes_eq A hsize]
  refine List.map_congr_left fun k hk => ?_
  have hk := List.mem_range.1 hk
  rw [hinit k _ (getElem?_eq_some_laneAt A (hk.trans_le hsize)), State.buffered_of_fresh h hf, List.nil_append,
    laneDigest_initLane A (State.capacity_eq hA) hk hlow hhigh, hplain, hA]
  rfl

end

/-- The lane hashes of branch b, one by one (spec/42_tree.md R290). -/
theorem take_drop_eq_map_getD {α : Type} (xs : List α) (d : α) {b st : Nat} (h : b < xs.length / st) :
    (xs.drop (b * st)).take st = (List.range st).map (fun j => xs.getD (b * st + j) d) := by
  have hin : (b + 1) * st ≤ xs.length := (Nat.mul_le_mul_right st h).trans (Nat.div_mul_le_self ..)
  rw [Nat.add_mul, Nat.one_mul] at hin
  apply List.ext_getElem
  · simp
    omega
  · intro j hj _
    have hj : j < st := by simp at hj; omega
    simp [List.getD_eq_getElem?_getD, show b * st + j < xs.length by omega]

/-- The reductions of spec/42_tree.md R289 to R292 over any leaves, with HashOf the plain digest. -/
theorem reduceHashes_eq {w : Nat} {A : Alg w} {v : Variant} (hplain : ∀ m, hashOf A m = plainDigest v m) (c : TreeParams)
    (leaf : List (List Byte)) :
    reduceHashes A c leaf =
      if c.treeDepth.toNat = 1 then plainDigest v leaf.flatten
      else plainDigest v ((List.range (leaf.length / c.subTreeLength.toNat)).map
        (fun b => plainDigest v (((List.range c.subTreeLength.toNat).map (fun j => leaf.getD (b * c.subTreeLength.toNat + j) [])).flatten ++
          headerBytes { c with nodeOffset := BitVec.ofNat 8 (c.nodeOffset.toNat + b) }))).flatten := by
  have hbranch : ∀ b, b < leaf.length / c.subTreeLength.toNat → branchHash A c leaf b =
      plainDigest v (((List.range c.subTreeLength.toNat).map (fun j => leaf.getD (b * c.subTreeLength.toNat + j) [])).flatten ++
        headerBytes { c with nodeOffset := BitVec.ofNat 8 (c.nodeOffset.toNat + b) }) := by
    intro b hb
    rw [branchHash, hplain, take_drop_eq_map_getD leaf [] hb, branchConfig, BitVec.ofNat_add, BitVec.ofNat_toNat, BitVec.setWidth_eq]
  rw [reduceHashes, depth1, depth2, hplain, hplain, List.map_congr_left fun b hb => hbranch b (List.mem_range.1 hb)]

/-- Settles O42: no tree path, and lane 0 hashes the whole message. -/
theorem sequentialDigestIsFips : Obligations.SequentialDigestIsFips := by
  intro s m h hf hseq
  obtain ⟨q, a⟩ := State.absorb_spec h.fits m
  have htree := State.takesTree_of_sequential (a.parallel.trans hseq)
  obtain ⟨hdigest, hdemotes⟩ := State.digest_of_not_takesTree htree
  exact ⟨hdemotes.trans (a.parallel.trans hseq), hdigest.trans (a.seqFinal_of_sequential h hf hseq)⟩

/-- Settles O43: fewer than C bytes take no tree path, and lane 0 hashes them all from the buffer. -/
theorem demotedDigestIsFips : Obligations.DemotedDigestIsFips := by
  intro s m h hf hpar hshort
  obtain ⟨q, a⟩ := State.absorb_spec h.fits m
  have htree : (s.absorb m).takesTree = false := by
    rw [a.takesTree_of_fresh h hf, decide_eq_false (Nat.not_le.2 hshort), Bool.and_false]
  obtain ⟨hdigest, hdemotes⟩ := State.digest_of_not_takesTree htree
  exact ⟨hdemotes.trans (a.parallel.trans hpar), hdigest.trans (a.seqFinal_of_short h hf hshort)⟩

/-- Settles O44: at least C bytes take the tree path, whose lane hashes are the leaves and whose reductions are the tree's. -/
theorem parallelDigestIsTheTree : Obligations.ParallelDigestIsTheTree := by
  intro s m h hf hpar hlong
  obtain ⟨q, a⟩ := State.absorb_spec h.fits m
  have htree : (s.absorb m).takesTree = true := by rw [a.takesTree_of_fresh h hf, hpar, decide_eq_true hlong, Bool.and_self]
  obtain ⟨hdigest, hdemotes⟩ := State.digest_of_takesTree htree
  refine ⟨hdemotes, hdigest.trans ?_⟩
  have hcount : s.laneCount = s.cfg.parallelDegree.toNat * interleave s.variant := by rw [State.laneCount, if_pos hpar]
  rw [State.treeFinal, a.hash, a.cfg]
  refine fromLanes_mapBank_eq hf.2 fun A lanes hA hplain hlanes hinit => ?_
  rw [a.laneHashes_of_fresh h hf hA hplain hlanes hinit, reduceHashes_eq hplain, List.length_map, List.length_range, hcount]
  rfl

end Sys2Proof.Machine
end

section
/-! The lanes no command reads (spec/10_state.md R30), and the order of the lanes in a dispatch (spec/40_compression.md R179). -/

namespace Sys2Proof.Machine

open Sys2Proof Sys2Proof.Safety

/-- The lanes below `n` are the same in both lane files. -/
abbrev SameLanesBelow (n : Nat) (b c : HashBank) : Prop := lanesRelated (fun _ k l l' => k < n → l = l') b c

theorem lanesRelated_variant {R : {w : Nat} → Alg w → Nat → Lane w → Lane w → Prop} {b c : HashBank} (h : lanesRelated R b c) :
    c.variant = b.variant := by
  cases b <;> cases c
  case sha256.sha256 | sha512.sha512 => rfl
  case sha256.sha512 | sha512.sha256 => exact h.elim

section
variable {n : Nat} {b c : HashBank}

/-- A value that depends on the lanes below n alone. -/
theorem SameLanesBelow.fromLanes_eq {α : Type} {F : {w : Nat} → Alg w → List (Lane w) → α} (h : SameLanesBelow n b c)
    (hF : ∀ {w : Nat} (A : Alg w) (lanes lanes' : List (Lane w)), A.variant = b.variant → lanes.length = laneFileSize b →
      lanes'.length = lanes.length → (∀ k, k < n → lanes[k]? = lanes'[k]?) → F A lanes = F A lanes') : fromLanes F b = fromLanes F c := by
  have hsame : ∀ {w : Nat} (lanes lanes' : List (Lane w)), lanes.length = lanes'.length →
      (∀ k l l', lanes[k]? = some l → lanes'[k]? = some l' → k < n → l = l') → ∀ k, k < n → lanes[k]? = lanes'[k]? := by
    intro w lanes lanes' hlen hrel k hk
    rcases Nat.lt_or_ge k lanes.length with hin | hout
    · have hl := List.getElem?_eq_getElem hin
      have hl' := List.getElem?_eq_getElem (hlen ▸ hin)
      rw [hl, hl', hrel k _ _ hl hl' hk]
    · rw [List.getElem?_eq_none hout, List.getElem?_eq_none (hlen ▸ hout)]
  cases b <;> cases c
  case sha256.sha256 u u' => exact hF alg256 u.lanes u'.lanes rfl rfl h.1.symm (hsame _ _ h.1 h.2)
  case sha512.sha512 u u' => exact hF alg512 u.lanes u'.lanes rfl rfl h.1.symm (hsame _ _ h.1 h.2)
  case sha256.sha512 | sha512.sha256 => exact h.elim

/-- A pass over the lanes keeps them the same below n. -/
theorem SameLanesBelow.mapBank (h : SameLanesBelow n b c) (f : {w : Nat} → Alg w → Nat → Lane w → Lane w) :
    SameLanesBelow n (mapBank f b) (mapBank f c) := by
  have hsame : ∀ {w : Nat} (g : Nat → Lane w → Lane w) (lanes lanes' : List (Lane w)),
      (∀ k l l', lanes[k]? = some l → lanes'[k]? = some l' → k < n → l = l') →
      ∀ k l l', (lanes.mapIdx g)[k]? = some l → (lanes'.mapIdx g)[k]? = some l' → k < n → l = l' := by
    intro w g lanes lanes' hrel k l l' hl hl' hk
    rw [List.getElem?_mapIdx, Option.map_eq_some_iff] at hl hl'
    obtain ⟨x, hx, rfl⟩ := hl
    obtain ⟨x', hx', rfl⟩ := hl'
    rw [hrel k x x' hx hx' hk]
  cases b <;> cases c
  case sha256.sha256 => exact ⟨by simpa using h.1, hsame _ _ _ h.2⟩
  case sha512.sha512 => exact ⟨by simpa using h.1, hsame _ _ _ h.2⟩
  case sha256.sha512 | sha512.sha256 => exact h.elim

end

section
variable {s : State} {h : HashBank}

/-- The lane count and the segment size depend on the variant and CFG alone. -/
theorem State.laneCount_withHash (hv : h.variant = s.hash.variant) : State.laneCount { s with hash := h } = s.laneCount := by
  have hvariant : State.variant { s with hash := h } = s.variant := hv
  rw [State.laneCount, hvariant]
  rfl

theorem State.capacity_withHash (hv : h.variant = s.hash.variant) : State.capacity { s with hash := h } = s.capacity := by
  have hvariant : State.variant { s with hash := h } = s.variant := hv
  rw [State.capacity, hvariant, State.laneCount_withHash hv]
  rfl

theorem State.segment_withHash (s : State) (h : HashBank) (seg : List Byte) :
    State.segment { s with hash := h } seg = { s.segment seg with hash := (State.segment { s with hash := h } seg).hash } := by
  rw [State.segment_eq s seg, State.segment_eq { s with hash := h } seg]
  rfl

/-- A flush treats the lanes below N alike, whatever the others hold. -/
theorem SameLanesBelow.segment (hs : SameLanesBelow s.laneCount s.hash h) (seg : List Byte) :
    SameLanesBelow s.laneCount (s.segment seg).hash (State.segment { s with hash := h } seg).hash := by
  have hcount : State.laneCount { s with hash := h } = s.laneCount := State.laneCount_withHash (lanesRelated_variant hs)
  by_cases hp : s.parallel = true
  · have hp' : State.parallel { s with hash := h } = true := hp
    rw [State.segment, State.segment, if_pos hp, if_pos hp', State.dispatch_hash_eq, State.dispatch_hash_eq, hcount]
    exact hs.mapBank _
  · have hp' : ¬ State.parallel { s with hash := h } = true := hp
    rw [State.segment, State.segment, if_neg hp, if_neg hp', State.compressAt_hash_eq, State.compressAt_hash_eq]
    exact hs.mapBank _

theorem SameLanesBelow.segments (q : Nat) (src : List Byte) {s : State} {h : HashBank} (hs : SameLanesBelow s.laneCount s.hash h) :
    SameLanesBelow s.laneCount (State.segments q src s).hash (State.segments q src { s with hash := h }).hash := by
  induction q generalizing src s h with
  | zero => exact hs
  | succ q ih =>
    have hseg := hs.segment (src.take s.capacity)
    rw [← s.segment_laneCount (src.take s.capacity)] at hseg ⊢
    rw [State.segments, State.segments, State.capacity_withHash (lanesRelated_variant hs), State.segment_withHash s h]
    exact ih _ hseg

theorem SameLanesBelow.segments_segment (hs : SameLanesBelow s.laneCount s.hash h) (q : Nat) (src seg : List Byte) :
    SameLanesBelow s.laneCount (State.segments q src (s.segment seg)).hash
      (State.segments q src (State.segment { s with hash := h } seg)).hash := by
  have hseg := hs.segment seg
  rw [← s.segment_laneCount seg] at hseg ⊢
  rw [State.segment_withHash s h]
  exact SameLanesBelow.segments q src hseg

/-- Absorbing treats the lanes below N alike; what it writes into the buffer does not depend on the lanes at all. -/
theorem SameLanesBelow.absorb (hs : SameLanesBelow s.laneCount s.hash h) (m : List Byte) :
    SameLanesBelow s.laneCount (s.absorb m).hash (State.absorb { s with hash := h } m).hash := by
  have hcapacity := State.capacity_withHash (s := s) (lanesRelated_variant hs)
  rw [State.absorb, State.absorb, hcapacity]
  split
  case isTrue => exact hs
  case isFalse =>
    split
    case isFalse => exact hs
    case isTrue =>
      have hstart : State.capacity (State.startBuffering { s with hash := h }) = s.capacity := hcapacity
      simp only [State.absorbOverflow, hstart, State.startBuffering_capacity, State.keepRest_hash]
      have hfilled : ∀ src, SameLanesBelow (s.startBuffering.fillBuffer s.mlen src).laneCount (s.startBuffering.fillBuffer s.mlen src).hash h :=
        fun src => by rwa [State.fillBuffer_laneCount, State.startBuffering_laneCount]
      have hflushed := (hfilled (m.take (s.capacity - s.mlen))).segments_segment
      rw [State.fillBuffer_laneCount, State.startBuffering_laneCount] at hflushed
      exact hflushed _ _ _

end

theorem laneAt_congr {w : Nat} (A : Alg w) {lanes lanes' : List (Lane w)} {k : Nat} (h : lanes[k]? = lanes'[k]?) :
    laneAt A lanes k = laneAt A lanes' k := by
  rw [laneAt, laneAt, List.getD_eq_getElem?_getD, List.getD_eq_getElem?_getD, h]

/-- Settles O45: the digest reads lane 0 or the lanes below N, the readback its own lane, and absorbing is a pass over the lanes. -/
theorem idleLanesAreNotRead : Obligations.IdleLanesAreNotRead := by
  intro s h m hpos hle hs
  have hv := lanesRelated_variant hs
  have hcount := State.laneCount_withHash (s := s) hv
  refine ⟨?digest, fun k hk => ?image, SameLanesBelow.absorb hs m⟩
  case digest =>
    have htakes : State.takesTree { s with hash := h } = s.takesTree := by
      rw [State.takesTree, State.capacity_withHash hv]
      rfl
    rw [State.digest, State.digest, htakes]
    split
    case isTrue =>
      rw [State.treeFinal, State.treeFinal, hcount]
      refine SameLanesBelow.fromLanes_eq hs fun A lanes lanes' _ hsize hlen hsame => ?_
      rw [laneHashes_eq A _ _ _ (hsize ▸ hle), laneHashes_eq A _ _ _ (hlen ▸ hsize ▸ hle)]
      exact congrArg _ (List.map_congr_left fun k hk => congrArg (laneFinal A · _) (laneAt_congr A (hsame k (List.mem_range.1 hk))))
    case isFalse =>
      exact SameLanesBelow.fromLanes_eq hs fun A lanes lanes' _ _ _ hsame =>
        congrArg (finishMessage A · s.buffered) (laneAt_congr A (hsame 0 hpos))
  case image =>
    exact SameLanesBelow.fromLanes_eq hs fun A lanes lanes' _ _ _ hsame => congrArg laneImage (laneAt_congr A (hsame k hk))

/-- Lanes compressed one after the other, each once, are one pass over the lane file. -/
theorem State.foldl_compressAt_hash (blk : Nat → List Byte) {order : List Nat} (hnodup : order.Nodup) (s : State) :
    (order.foldl (fun x k => x.compressAt k (blk k)) s).hash =
      mapBank (fun A j l => if j ∈ order then compressLane A l (blk j) else l) s.hash := by
  induction order generalizing s with
  | nil => simp [mapBank_id]
  | cons k order ih =>
    obtain ⟨hk, horder⟩ := List.nodup_cons.1 hnodup
    rw [List.foldl_cons, ih horder, State.compressAt_hash_eq, mapBank_mapBank]
    refine mapBank_congr fun A j l _ => ?_
    by_cases hj : j = k
    · subst hj
      rw [if_neg hk, if_pos rfl, if_pos List.mem_cons_self]
    · rw [if_neg hj]
      exact if_congr (by simp [hj]) rfl rfl

/-- Settles O46: every lane below N is in the order once, and a pass does not see where. -/
theorem laneOrderDoesNotMatter : Obligations.LaneOrderDoesNotMatter := by
  intro s seg order hperm
  have hnodup : order.Nodup := hperm.nodup_iff.2 List.nodup_range
  rw [s.foldl_compressAt_hash (fun k => slice seg (k * blockBytes s.variant) (blockBytes s.variant)) hnodup, State.dispatch_hash_eq]
  refine mapBank_congr fun A j l hA => ?_
  rw [show s.variant = A.variant from hA.symm]
  exact if_congr (hperm.mem_iff.trans List.mem_range) rfl rfl

end Sys2Proof.Machine
end

section
/-! The admitted accesses of the bus (spec/20_memory.md R82 to R88): what each register reads, idle and busy, with its fields (spec/10_state.md R44
to R50), what a register or window write does, and the hardware reset (spec/70_reset_and_hazards.md R431). -/

namespace Sys2Proof.Machine

open Sys2Proof Sys2Proof.Safety

section
variable {s : State}

/-- Settles O58: the step is the reset, whose state is power-on's but for what the host owns. -/
theorem hardwareResetPowersOn : Obligations.HardwareResetPowersOn := by
  intro s rest hagenda
  exact ⟨_, step_hardwareReset hagenda, rfl, rfl, Nat.succ_ne_self s.epoch⟩

theorem State.hostRead_of_readValue {a : Word32} {width : Nat} {v : Word32} (h : s.readValue a.toNat width = some v) :
    s.hostRead a width = { s with reads := v :: s.reads } := by
  rw [State.hostRead, h]

theorem State.exists_readValue {a width : Nat} (h : ReadAdmitted s.params a width) : ∃ v, s.readValue a width = some v :=
  Option.isSome_iff_exists.1 ((s.readValue_isSome a width).2 h)

/-- Settles O49: a read's value does not depend on what the host has read before. -/
theorem admittedReadHasNoEffect : Obligations.AdmittedReadHasNoEffect := by
  intro s a width hadmitted
  obtain ⟨v, hv⟩ := State.exists_readValue hadmitted
  have hv' : State.readValue { s with reads := v :: s.reads } a.toNat width = some v := hv
  refine ⟨v, State.hostRead_of_readValue hv, ?_⟩
  rw [State.hostRead_of_readValue hv, State.hostRead_of_readValue hv']

/-- A whole, aligned read of a register. -/
theorem State.hostRead_reg (s : State) {a : Word32} (haligned : a.toNat % 4 = 0) (hreg : readableReg a.toNat) :
    s.hostRead a 4 = { s with reads := (if s.busy then s.busyRegValue a.toNat else s.regValue a.toNat) :: s.reads } := by
  have htarget : targetOf s.params a.toNat 4 = some (.reg a.toNat) := targetOf_reg.2 ⟨rfl, rfl, haligned, by omega⟩
  refine State.hostRead_of_readValue ?_
  simp only [State.readValue, htarget, if_pos hreg]

theorem State.reads_hostRead_idle (hidle : s.busy = false) {a : Word32} (haligned : a.toNat % 4 = 0) (hreg : readableReg a.toNat) :
    (s.hostRead a 4).reads = s.regValue a.toNat :: s.reads := by
  rw [s.hostRead_reg haligned hreg, hidle, if_neg Bool.false_ne_true]

theorem State.reads_hostRead_busy (hbusy : s.busy = true) {a : Word32} (haligned : a.toNat % 4 = 0) (hreg : readableReg a.toNat) :
    (s.hostRead a 4).reads = s.busyRegValue a.toNat :: s.reads := by
  rw [s.hostRead_reg haligned hreg, hbusy, if_pos rfl]

/-- The fields of STATUS (spec/10_state.md R48). -/
theorem statusWord_fields (busy : Bool) (fsm : BitVec 3) (par dem rea : Bool) (err : BitVec 4) :
    bits (statusWord busy fsm par dem rea err) 0 0 = busy.toNat ∧ bits (statusWord busy fsm par dem rea err) 3 1 = fsm.toNat ∧
    bits (statusWord busy fsm par dem rea err) 4 4 = par.toNat ∧ bits (statusWord busy fsm par dem rea err) 5 5 = dem.toNat ∧
    bits (statusWord busy fsm par dem rea err) 6 6 = rea.toNat ∧ bits (statusWord busy fsm par dem rea err) 7 7 = 0 ∧
    bits (statusWord busy fsm par dem rea err) 11 8 = err.toNat ∧ bits (statusWord busy fsm par dem rea err) 31 12 = 0 := by
  have := fsm.isLt
  have := err.isLt
  have := busy.toNat_lt
  have := par.toNat_lt
  have := dem.toNat_lt
  have := rea.toNat_lt
  simp only [bits, statusWord, toNat_append_eq_add, BitVec.toNat_ofBool, BitVec.toNat_ofNat]
  omega

/-- The value of a register of four byte fields. -/
theorem toNat_fourBytes (a b c d : BitVec 8) :
    BitVec.toNat (a ++ b ++ c ++ d : Word32) = ((a.toNat * 2 ^ 8 + b.toNat) * 2 ^ 8 + c.toNat) * 2 ^ 8 + d.toNat := by
  rw [← toNat_append_eq_add a b, ← toNat_append_eq_add (a ++ b) c]
  exact toNat_append_eq_add (a ++ b ++ c) d

theorem State.idWord_fields (h : LegalParams s.variant s.params) : IdFields s.variant s.params s.idWord := by
  obtain ⟨-, hmax, -⟩ := h
  simp only [IdFields, bits, State.idWord, toNat_fourBytes]
  cases s.variant <;> simp only [interleave, BitVec.toNat_ofNat] <;> omega

theorem State.infoWord_fields (s : State) : InfoFields s.variant s.infoWord := by
  simp only [InfoFields, bits, State.infoWord, toNat_fourBytes]
  cases s.variant <;> decide

/-- N and C with the numbers of spec/00_scope.md R2 (spec/10_state.md R45). -/
theorem State.laneCount_eq (s : State) :
    s.laneCount = if s.cfg.treeDepth = 0 then 1 else s.cfg.parallelDegree.toNat * interleave s.variant := by
  have hdepth : s.parallel = true ↔ ¬ s.cfg.treeDepth = 0 := by
    rw [State.parallel, decide_eq_true_eq, Nat.one_le_iff_ne_zero, BitVec.toNat_eq]
    rfl
  rw [State.laneCount, if_congr hdepth rfl rfl, ite_not]

theorem State.parallel_toNat (s : State) : s.parallel.toNat = if 1 ≤ s.cfg.treeDepth.toNat then 1 else 0 := by
  rw [State.parallel]
  split <;> simp [*]

/-- Settles O52, register by register. -/
theorem idleRegisterReads : Obligations.IdleRegisterReads := by
  intro s hidle hparams n
  have hread : ∀ a : Word32, a.toNat % 4 = 0 → readableReg a.toNat → (s.hostRead a 4).reads = s.regValue a.toNat :: s.reads :=
    fun _ => State.reads_hostRead_idle hidle
  have hinterleave : (match s.variant with | .sha256 => 4 | .sha512 => 2) = interleave s.variant := by cases s.variant <;> rfl
  have hlanes : n = s.laneCount :=
    (congrArg (fun i => if s.cfg.treeDepth = 0 then 1 else s.cfg.parallelDegree.toNat * i) hinterleave).trans s.laneCount_eq.symm
  have hcapacity : n * (match s.variant with | .sha256 => 64 | .sha512 => 128) = s.capacity := by
    rw [hlanes, State.capacity]; cases s.variant <;> rfl
  obtain ⟨hbusy, hfsm, hpar, hdem, hrea, hzero, herr, hhigh⟩ :=
    statusWord_fields s.busy (BitVec.ofNat 3 (fsmCode s.fsm)) s.parallel s.demoted s.reached s.lastErr
  refine ⟨⟨_, hread _ rfl (by decide), State.idWord_fields hparams⟩, hread _ rfl (by decide), hread _ rfl (by decide), hread _ rfl (by decide),
    ⟨_, hread _ rfl (by decide), ?busy, ?fsm, ?parallel, ?demoted, ?reached, hzero, herr, hhigh⟩, hread _ rfl (by decide),
    hread _ rfl (by decide), ?lanes, ?capacity, ⟨_, hread _ rfl (by decide), s.infoWord_fields⟩⟩
  case busy => exact hbusy.trans (by rw [hidle]; rfl)
  case fsm => exact hfsm.trans (by cases s.fsm <;> rfl)
  case parallel => exact hpar.trans s.parallel_toNat
  case demoted => exact hdem.trans (by cases s.demoted <;> rfl)
  case reached => exact hrea.trans (by cases s.reached <;> rfl)
  case lanes => exact hlanes ▸ hread 0x0000001C#32 rfl (by decide)
  case capacity => exact hcapacity ▸ hread 0x00000020#32 rfl (by decide)

/-- Settles O53, register by register; STATUS by the fields of the word that the busy engine shows. -/
theorem busyReadsShowBusy : Obligations.BusyReadsShowBusy := by
  intro s hbusy
  have hread : ∀ a : Word32, a.toNat % 4 = 0 → readableReg a.toNat → (s.hostRead a 4).reads = s.busyRegValue a.toNat :: s.reads :=
    fun _ => State.reads_hostRead_busy hbusy
  obtain ⟨hone, hfsm, hpar, -, -, hzero, -, hhigh⟩ :=
    statusWord_fields true (BitVec.ofNat 3 (((s.busyWord 0x10).extractLsb' 0 16).toNat % 5)) s.parallel
      ((s.busyWord 0x10).getLsbD 16) ((s.busyWord 0x10).getLsbD 17) ((s.busyWord 0x10).extractLsb' 18 4)
  refine ⟨hread _ rfl (by decide), hread _ rfl (by decide), State.idWord_fields, s.infoWord_fields, hread _ rfl (by decide),
    hread _ rfl (by decide), hread _ rfl (by decide), ⟨_, hread _ rfl (by decide), hone, ?parallel, ?fsm, hzero, hhigh⟩, fun a width hadmitted => ?sticky⟩
  case parallel => exact hpar.trans s.parallel_toNat
  case fsm =>
    refine hfsm.trans_le ?_
    rw [BitVec.toNat_ofNat]
    omega
  case sticky =>
    obtain ⟨v, hv⟩ := State.exists_readValue hadmitted
    rw [State.hostRead_of_readValue hv]

/-- A whole, aligned write below 0x40 to an idle engine goes to the register. -/
theorem State.hostWrite_reg (hidle : s.busy = false) {a : Word32} (haligned : a.toNat % 4 = 0) (hreg : a.toNat + 4 ≤ 0x40) (v : Word32) :
    s.hostWrite a 4 v = (s.regWrite a.toNat v).refresh := by
  have htarget : targetOf s.params a.toNat 4 = some (.reg a.toNat) := targetOf_reg.2 ⟨rfl, rfl, haligned, hreg⟩
  simp only [State.hostWrite, State.writeEffect, hidle, htarget, Bool.false_eq_true, if_false]

/-- Settles O51, register by register. -/
theorem registerWritesTakeEffect : Obligations.RegisterWritesTakeEffect := by
  intro s v hidle
  have hwrite : ∀ a : Word32, a.toNat % 4 = 0 → a.toNat + 4 ≤ 0x40 → s.hostWrite a 4 v = (s.regWrite a.toNat v).refresh :=
    fun _ haligned hreg => State.hostWrite_reg hidle haligned hreg v
  refine ⟨⟨_, hwrite _ rfl (by decide)⟩, ⟨_, hwrite _ rfl (by decide)⟩, ⟨_, hwrite _ rfl (by decide)⟩,
    ⟨_, s.errSticky &&& ~~~v, hwrite _ rfl (by decide), fun i => ?_⟩⟩
  rcases Nat.lt_or_ge i 32 with hi | hi
  · simp [hi]
  · simp [BitVec.getLsbD_of_ge _ _ hi]

/-- An admitted access at a window address lies in one window. -/
theorem inWindow_of_writeAdmitted {p : Params} {a width : Nat} (ha : inBase ≤ a) (h : WriteAdmitted p a width) :
    (width = 1 ∨ width = 2 ∨ width = 4) ∧ a % width = 0 ∧ inWindow p a width := by
  rcases h with ⟨-, hreg⟩ | hwindow
  · rw [inBase] at ha
    omega
  · exact hwindow

/-- Settles O50: an admitted window write is State.storeValue, an admitted window read the bytes of the window. -/
theorem busIsLittleEndian : Obligations.BusIsLittleEndian := by
  intro s a width v hidle ha hadmitted
  have htarget : targetOf s.params a.toNat width = some (.window a.toNat) :=
    targetOf_window.2 ⟨rfl, inWindow_of_writeAdmitted ha hadmitted⟩
  have hwrite : s.hostWrite a width v = (s.storeValue a.toNat width v).refresh := by
    simp only [State.hostWrite, State.writeEffect, hidle, htarget, Bool.false_eq_true, if_false]
  have hbyte : ∀ b, (s.hostWrite a width v).byteAt b = (s.storeValue a.toNat width v).byteAt b := fun b => by rw [hwrite]; rfl
  refine ⟨fun j hj => ?stored, fun b hb => ?others, ?frame, ?read⟩
  case stored =>
    rw [hbyte, State.byteAt_storeValue, leBytes_length, if_pos (by omega), Nat.add_sub_cancel_left, leBytes_getD _ _ _ hj]
    rfl
  case others => rw [hbyte, State.byteAt_storeValue, leBytes_length, if_neg hb]
  case frame => rw [hwrite]; rfl
  case read =>
    have hvalue : s.readValue a.toNat width = some (BitVec.ofNat 32 (leNat ((List.range width).map (fun i => s.byteAt (a.toNat + i))))) := by
      simp only [State.readValue, htarget, State.windowBytes, hidle, Bool.false_eq_true, if_false]
    rw [State.hostRead_of_readValue hvalue, leNat_map_range]

end

end Sys2Proof.Machine
end

section
/-! Runs (spec/20_memory.md R93): that BUSY falls, and what the events of a command line (spec/30_encoding.md R130) do on an idle
engine. -/

namespace Sys2Proof.Machine

open Sys2Proof Sys2Proof.Safety

section
variable {i : Instr} {s t : State}

theorem exec_busy (h : exec i s = .next t) : t.busy = false := by
  rcases exec_next h with ⟨e, -, rfl⟩ | ⟨-, rfl⟩ <;> rfl

theorem settle_busy_of_exec (h : exec i s = .next t) : t.settle.busy = false := (State.settle_busy t).trans (exec_busy h)

/-- The engine's turn leaves it idle. -/
theorem engineTurn_busy (h : engineTurn s = .next t) : t.busy = false := by
  cases hbusy : s.busy with
  | false =>
    rw [engineTurn_idle hbusy] at h
    cases h
    exact hbusy
  | true =>
    cases hdecode : decode s.latch.word with
    | error e =>
      rw [engineTurn_error hbusy hdecode] at h
      cases h
      rfl
    | ok i =>
      obtain ⟨u, hu⟩ := exec_total i s
      rw [engineTurn_ok hbusy hdecode hu] at h
      cases h
      exact settle_busy_of_exec hu

/-- Every step takes its event off the agenda. -/
theorem step_agenda (h : step s = .next t) : t.agenda = s.agenda.tail := by
  have hturn : ∀ {rest : List Event}, s.turn rest → rest = s.agenda.tail := by
    rintro rest (⟨hnone, rfl⟩ | hnext)
    · rw [hnone]; rfl
    · rw [hnext]; rfl
  rcases step_cases h with ⟨rest, i, u, hr, -, -, hexec, rfl⟩ | ⟨rest, e, hr, -, -, rfl⟩ | ⟨rest, hr, -, rfl⟩ |
    ⟨a, width, rest, hr, rfl⟩ | ⟨a, width, v, rest, hr, rfl⟩ | ⟨rest, hr, rfl⟩
  case inl =>
    obtain ⟨-, -, -, -, -, hagenda, -⟩ := exec_hostSide hexec
    exact hagenda.trans (hturn hr)
  case inr.inl => exact hturn hr
  case inr.inr.inl => exact hturn hr
  case inr.inr.inr.inl => rw [State.hostRead_eq, hr]; rfl
  case inr.inr.inr.inr.inl => rw [State.hostWrite_eq, hr]; rfl
  case inr.inr.inr.inr.inr => rw [hr]; rfl

end

/-- Settles O54: with nothing left on the agenda it is the engine's turn, and every step brings that nearer. -/
theorem busyReturnsToZero : Obligations.BusyReturnsToZero := by
  intro s hbusy
  generalize hagenda : s.agenda = agenda
  induction agenda generalizing s with
  | nil =>
    obtain ⟨t, ht⟩ := noStepHalts s
    have hturn := ht
    rw [step_turn (.inl ⟨hagenda, rfl⟩)] at hturn
    exact ⟨1, t, le_rfl, runSteps_succ 0 ht, engineTurn_busy hturn⟩
  | cons e rest ih =>
    obtain ⟨t, ht⟩ := noStepHalts s
    cases hstill : t.busy with
    | false => exact ⟨1, t, by simp, runSteps_succ 0 ht, hstill⟩
    | true =>
      obtain ⟨n, u, hn, hrun, hdone⟩ := ih t hstill (by rw [step_agenda ht, hagenda]; rfl)
      exact ⟨n + 1, u, Nat.succ_le_succ hn, (runSteps_succ n ht).trans hrun, hdone⟩

/-- The run of the events `es`, which stand first on the agenda, leads from `s` to `t`. -/
def Runs (es : List Event) (s t : State) : Prop := runSteps es.length s = .next t

/-- What a command's writes leave in the operand registers, CMD and the latch (spec/30_encoding.md R124, R130). -/
def State.commanded (s : State) (i : Instr) (o n : Word32) : State :=
  { s with
    argOff := if (formOf i).readsOffset then o else s.argOff
    argLen := if (formOf i).readsLength then n else s.argLen
    cmd := encode i
    latch := ⟨encode i, if (formOf i).readsOffset then o else s.argOff, if (formOf i).readsLength then n else s.argLen⟩
    busy := true }

section
variable {s t u : State} {rest : List Event}

theorem Runs.none (h : s.agenda = rest) : Runs [] s { s with agenda := rest } := h ▸ rfl

theorem Runs.append {es es' : List Event} (h : Runs es s t) (h' : Runs es' t u) : Runs (es ++ es') s u := by
  rw [Runs, List.length_append, runSteps_add _ h]
  exact h'

theorem Runs.single {e : Event} (h : step s = .next t) : Runs [e] s t := runSteps_succ 0 h

theorem step_writeReg {r : RegName} {v : Word32} (hidle : s.busy = false) (hagenda : s.agenda = writeReg r v :: rest) :
    step s = .next ((s.setAgenda rest).regWrite (regAddress r).toNat v).refresh := by
  rw [step_write hagenda, State.hostWrite_reg (s := s.setAgenda rest) hidle] <;> cases r <;> decide

/-- An ARG_OFF write, where the form makes one. -/
theorem runs_argOff (b : Bool) (o : Word32) (hidle : s.busy = false)
    (hagenda : s.agenda = (if b then [writeReg .argOff o] else []) ++ rest) :
    ∃ c, Runs (if b then [writeReg .argOff o] else []) s { s with argOff := if b then o else s.argOff, agenda := rest, freeCtr := c } := by
  cases b with
  | false => exact ⟨s.freeCtr, Runs.none hagenda⟩
  | true => exact ⟨s.freeCtr + 1, Runs.single (step_writeReg hidle hagenda)⟩

/-- An ARG_LEN write, where the form makes one. -/
theorem runs_argLen (b : Bool) (n : Word32) (hidle : s.busy = false)
    (hagenda : s.agenda = (if b then [writeReg .argLen n] else []) ++ rest) :
    ∃ c, Runs (if b then [writeReg .argLen n] else []) s { s with argLen := if b then n else s.argLen, agenda := rest, freeCtr := c } := by
  cases b with
  | false => exact ⟨s.freeCtr, Runs.none hagenda⟩
  | true => exact ⟨s.freeCtr + 1, Runs.single (step_writeReg hidle hagenda)⟩

theorem bits_status_busy (s : State) : bits s.status 0 0 = s.busy.toNat := by
  rw [State.status, (statusWord_fields ..).1]

theorem bits_busyStatus_busy (s : State) : bits s.busyStatus 0 0 = 1 := by
  rw [State.busyStatus, (statusWord_fields ..).1]
  rfl

theorem step_readStatus (hagenda : s.agenda = .read (regAddress .status) 4 :: rest) :
    step s = .next { s with agenda := rest, reads := (if s.busy then s.busyStatus else s.status) :: s.reads } := by
  rw [step_read hagenda, State.hostRead_reg (s.setAgenda rest) (by decide) (by decide)]
  rfl

theorem step_readStatus_idle (hidle : s.busy = false) (hagenda : s.agenda = .read (regAddress .status) 4 :: rest) :
    step s = .next { s with agenda := rest, reads := s.status :: s.reads } := by
  rw [step_readStatus hagenda, if_neg (by simp [hidle])]

/-- STATUS polls of a busy engine: each reads BUSY 1. -/
theorem runs_polls (polls : Nat) (hbusy : s.busy = true)
    (hagenda : s.agenda = List.replicate polls (.read (regAddress .status) 4) ++ rest) :
    ∃ seen, Runs (List.replicate polls (.read (regAddress .status) 4)) s { s with agenda := rest, reads := seen ++ s.reads } ∧
      seen.length = polls ∧ ∀ x ∈ seen, bits x 0 0 = 1 := by
  induction polls generalizing s with
  | zero => exact ⟨[], Runs.none hagenda, rfl, by simp⟩
  | succ polls ih =>
    have hfirst := step_readStatus hagenda
    obtain ⟨seen, hrun, hlen, hseen⟩ := ih (s := { s with
        agenda := List.replicate polls (.read (regAddress .status) 4) ++ rest
        reads := (if s.busy then s.busyStatus else s.status) :: s.reads }) hbusy rfl
    refine ⟨seen ++ [if s.busy then s.busyStatus else s.status], ?_, by simp [hlen], fun x hx => ?_⟩
    · rw [List.append_assoc]
      exact (Runs.single hfirst).append hrun
    · rcases List.mem_append.1 hx with hx | hx
      · exact hseen x hx
      · rw [List.mem_singleton.1 hx, if_pos hbusy]
        exact bits_busyStatus_busy s

/-- The writes of a command, run on an idle engine, issue it (spec/30_encoding.md R130). -/
theorem runs_issue {i : Instr} {o n : Word32} (hidle : s.busy = false)
    (hagenda : s.agenda = (if (formOf i).readsOffset then [writeReg .argOff o] else []) ++
      ((if (formOf i).readsLength then [writeReg .argLen n] else []) ++ (writeReg .cmd (encode i) :: rest))) :
    ∃ c, Runs ((if (formOf i).readsOffset then [writeReg .argOff o] else []) ++
        ((if (formOf i).readsLength then [writeReg .argLen n] else []) ++ [writeReg .cmd (encode i)])) s
      { s.commanded i o n with agenda := rest, freeCtr := c } := by
  obtain ⟨c, hoff⟩ := runs_argOff _ o hidle hagenda
  obtain ⟨c', hlen⟩ := runs_argLen (s := { s with
    argOff := if (formOf i).readsOffset then o else s.argOff
    agenda := (if (formOf i).readsLength then [writeReg .argLen n] else []) ++ (writeReg .cmd (encode i) :: rest)
    freeCtr := c }) _ n hidle rfl
  exact ⟨c' + 1, hoff.append (hlen.append (Runs.single (step_writeReg (r := .cmd) (v := encode i) (rest := rest) hidle rfl)))⟩

/-- The engine's event on a busy engine whose latched word decodes. -/
theorem step_engineEvent {i : Instr} {v : State} (hbusy : s.busy = true) (hdecode : decode s.latch.word = .ok i)
    (hagenda : s.agenda = .engine :: rest) (hexec : exec i { s with agenda := rest } = .next v) : step s = .next v.settle := by
  rw [step_turn (.inr hagenda)]
  exact engineTurn_ok (s := s.setAgenda rest) hbusy hdecode hexec

/-- The events of a command, run on an idle engine: its writes, the polls while it runs, the engine's step on it, and the last poll. -/
theorem runs_commandEvents {i : Instr} (hi : i.WellFormed) {o n : Word32} {polls : Nat} (hidle : s.busy = false)
    (hagenda : s.agenda = commandEvents polls i o n ++ rest) :
    ∃ c seen v,
      exec i { s.commanded i o n with agenda := .read (regAddress .status) 4 :: rest, reads := seen ++ s.reads, freeCtr := c } = .next v ∧
      Runs (commandEvents polls i o n) s { v.settle with agenda := rest, reads := v.settle.status :: (seen ++ s.reads) } ∧
      seen.length = polls ∧ ∀ x ∈ seen, bits x 0 0 = 1 := by
  simp only [commandEvents, List.append_assoc, List.cons_append, List.nil_append] at hagenda
  obtain ⟨c, hissue⟩ := runs_issue hidle hagenda
  obtain ⟨seen, hpolls, hcount, hseen⟩ := runs_polls (s := { s.commanded i o n with
    agenda := List.replicate polls (.read (regAddress .status) 4) ++ (.engine :: .read (regAddress .status) 4 :: rest)
    freeCtr := c }) polls rfl rfl
  obtain ⟨v, hv⟩ := exec_total i
    { s.commanded i o n with agenda := .read (regAddress .status) 4 :: rest, reads := seen ++ s.reads, freeCtr := c }
  have hengine : step { s.commanded i o n with
      agenda := .engine :: .read (regAddress .status) 4 :: rest, reads := seen ++ s.reads, freeCtr := c } = .next v.settle :=
    step_engineEvent rfl (decode_encode hi) rfl hv
  obtain ⟨-, -, -, -, -, hleft, hreads, -⟩ := exec_hostSide hv
  have hlast := step_readStatus_idle (settle_busy_of_exec hv) hleft
  rw [show v.settle.reads = seen ++ s.reads from hreads] at hlast
  refine ⟨c, seen, v, hv, ?_, hcount, hseen⟩
  have hrun := hissue.append (hpolls.append ((Runs.single (e := .engine) hengine).append (Runs.single (e := .read (regAddress .status) 4) hlast)))
  simpa only [commandEvents, List.append_assoc, List.cons_append, List.nil_append] using hrun

end

/-- Settles O55: the run of the line's events, read off field by field. -/
theorem commandLineRunsOnce : Obligations.CommandLineRunsOnce := by
  intro s i o n polls rest hidle hi hagenda
  obtain ⟨c, seen, v, hv, hrun, hcount, hseen⟩ := runs_commandEvents hi hidle hagenda
  have hdone : v.settle.busy = false := settle_busy_of_exec hv
  refine ⟨_, v, _, ?issued, hv, hrun, ?result, v.blankDatapath_settle, hdone, seen, rfl, hcount, hseen, ?shown⟩
  case issued => rfl
  case result => rfl
  case shown => exact (bits_status_busy v.settle).trans (congrArg Bool.toNat hdone)

end Sys2Proof.Machine
end

section
/-! The pseudo-command hash (spec/30_encoding.md R131): its two commands one after the other, and on a fresh stream the digest of its input. -/

namespace Sys2Proof.Machine

open Sys2Proof Sys2Proof.Safety

-- ---------------------------------------------------------------- what does not depend on the datapath

theorem fromLanes_blankDatapath {α : Type} (F : {w : Nat} → Alg w → List (Lane w) → α) (b : HashBank) :
    fromLanes F (blankDatapath b) = fromLanes F b := by
  cases b <;> rfl

theorem blankDatapath_variant (b : HashBank) : (blankDatapath b).variant = b.variant := withDatapath_variant ..

/-- A relation that looks at the second lane only holds of every lane of the second file. -/
theorem lanesRelated_second_iff {P : {w : Nat} → Alg w → Nat → Lane w → Prop} {b c : HashBank} :
    lanesRelated (fun A k _ l' => P A k l') b c ↔ c.variant = b.variant ∧ laneFileSize c = laneFileSize b ∧ everyLane P c := by
  have hlanes : ∀ {w : Nat} (Q : Nat → Lane w → Prop) (lanes lanes' : List (Lane w)),
      (lanes.length = lanes'.length ∧ ∀ k l l', lanes[k]? = some l → lanes'[k]? = some l' → Q k l') ↔
        lanes'.length = lanes.length ∧ ∀ k l', lanes'[k]? = some l' → Q k l' := by
    intro w Q lanes lanes'
    refine ⟨fun ⟨hlen, h⟩ => ⟨hlen.symm, fun k l' hl' => ?_⟩, fun ⟨hlen, h⟩ => ⟨hlen.symm, fun k _ l' _ hl' => h k l' hl'⟩⟩
    have hk : k < lanes.length := hlen ▸ (List.getElem?_eq_some_iff.1 hl').1
    exact h k _ l' (List.getElem?_eq_getElem hk) hl'
  cases b <;> cases c
  case sha256.sha256 u u' => exact (hlanes (P alg256) u.lanes u'.lanes).trans (and_iff_right rfl).symm
  case sha512.sha512 u u' => exact (hlanes (P alg512) u.lanes u'.lanes).trans (and_iff_right rfl).symm
  case sha256.sha512 | sha512.sha256 => exact iff_of_false id nofun

theorem laneFileSize_blankDatapath (b : HashBank) : laneFileSize (blankDatapath b) = laneFileSize b := laneFileSize_withDatapath ..

theorem everyLane_blankDatapath {P : {w : Nat} → Alg w → Nat → Lane w → Prop} (b : HashBank) :
    everyLane P (blankDatapath b) ↔ everyLane P b := everyLane_withDatapath ..

section
variable {s t : State}

/-- The digest and the demotion depend on the lanes, the buffered bytes, REACHED and CFG alone. -/
theorem State.digest_congr (hhash : blankDatapath t.hash = blankDatapath s.hash) (hmb : t.mb = s.mb) (hmlen : t.mlen = s.mlen)
    (hreached : t.reached = s.reached) (hcfg : t.cfg = s.cfg) : t.digest = s.digest ∧ t.demotes = s.demotes := by
  have hvariant : t.variant = s.variant := by
    rw [State.variant, State.variant, ← blankDatapath_variant, hhash, blankDatapath_variant]
  have hlanes : ∀ {α : Type} (F : {w : Nat} → Alg w → List (Lane w) → α), fromLanes F t.hash = fromLanes F s.hash := by
    intro α F
    rw [← fromLanes_blankDatapath, hhash, fromLanes_blankDatapath]
  have hparallel : t.parallel = s.parallel := by rw [State.parallel, State.parallel, hcfg]
  have hcount : t.laneCount = s.laneCount := by simp only [State.laneCount, hparallel, hcfg, hvariant]
  have hcapacity : t.capacity = s.capacity := by rw [State.capacity, State.capacity, hcount, hvariant]
  have htakes : t.takesTree = s.takesTree := by rw [State.takesTree, State.takesTree, hparallel, hreached, hcapacity, hmlen]
  have hbuffered : t.buffered = s.buffered := by rw [State.buffered, State.buffered, hmb, hmlen]
  simp only [State.digest, State.demotes, State.treeFinal, State.seqFinal, htakes, hparallel, hcount, hbuffered, hcfg, hlanes, and_self]

/-- The digest of a message on a fresh stream, by the three paths (spec/41_streaming.md R227). -/
theorem State.digest_absorb_of_fresh (h : Inv s) (hf : FreshStream s) (m : List Byte) :
    (s.absorb m).digest =
        (if s.parallel = true ∧ s.capacity ≤ m.length then treeDigest s.variant s.cfg m else plainDigest s.variant m) ∧
      ((s.absorb m).demotes = true ↔ s.parallel = true ∧ m.length < s.capacity) := by
  by_cases hpar : s.parallel = true
  · rcases Nat.lt_or_ge m.length s.capacity with hshort | hlong
    · obtain ⟨hdemotes, hdigest⟩ := demotedDigestIsFips s m h hf hpar hshort
      rw [if_neg fun hlong => Nat.not_le.2 hshort hlong.2]
      exact ⟨hdigest, iff_of_true hdemotes ⟨hpar, hshort⟩⟩
    · obtain ⟨hdemotes, hdigest⟩ := parallelDigestIsTheTree s m h hf hpar hlong
      rw [if_pos ⟨hpar, hlong⟩, hdemotes]
      exact ⟨hdigest, iff_of_false Bool.false_ne_true fun hshort => Nat.not_lt.2 hlong hshort.2⟩
  · obtain ⟨hdemotes, hdigest⟩ := sequentialDigestIsFips s m h hf (eq_false_of_ne_true hpar)
    rw [if_neg fun h => hpar h.1, hdemotes]
    exact ⟨hdigest, iff_of_false Bool.false_ne_true fun h => hpar h.1⟩

end

-- ---------------------------------------------------------------- the run of a hash line

/-- How the two commands of a hash line run (spec/30_encoding.md R131): UPDATE on `u`, which leaves `v`, and FINALIZE on `x`, which leaves
`y`; the host is left with `t`. -/
structure HashRun (s : State) (i n o : Word32) (rest : List Event) (u v x y t : State) : Prop where
  issued : u = { s with
    argOff := i, argLen := n, cmd := encode .update, latch := ⟨encode .update, i, n⟩, busy := true, agenda := u.agenda,
    reads := u.reads, freeCtr := u.freeCtr }
  update : exec .update u = .next v
  reissued : x = { v with
    argOff := o, cmd := encode .finalize, latch := ⟨encode .finalize, o, n⟩, busy := true, hash := x.hash, agenda := x.agenda,
    reads := x.reads, freeCtr := x.freeCtr }
  datapath : blankDatapath x.hash = blankDatapath v.hash
  finalize : exec .finalize x = .next y
  result : t = { y with hash := t.hash, agenda := rest, reads := t.reads, freeCtr := t.freeCtr }
  datapath_result : blankDatapath t.hash = blankDatapath y.hash

section
variable {s u v x y t : State} {i n o : Word32} {rest : List Event}

/-- The events of a hash line, run on an idle engine. -/
theorem runs_hashLine {polls polls' : Nat} (hidle : s.busy = false) (hagenda : s.agenda = lineEvents polls polls' (.hash i n o) ++ rest) :
    ∃ u v x y t, HashRun s i n o rest u v x y t ∧ Runs (lineEvents polls polls' (.hash i n o)) s t := by
  rw [lineEvents, List.append_assoc] at hagenda
  obtain ⟨c, seen, v, hupdate, hrun, -⟩ := runs_commandEvents (i := .update) (by decide) hidle hagenda
  have hdone : v.settle.busy = false := settle_busy_of_exec hupdate
  obtain ⟨c', seen', y, hfinalize, hrun', -⟩ := runs_commandEvents (i := .finalize) (polls := polls') (s := { v.settle with
    agenda := commandEvents polls' .finalize o 0 ++ rest, reads := v.settle.status :: (seen ++ s.reads) }) (by decide) hdone rfl
  obtain ⟨-, -, -, hlen, -⟩ := exec_hostSide hupdate
  have hlatched : n = v.argLen := hlen.symm
  refine ⟨_, v, _, y, _, ⟨?issued, hupdate, ?reissued, ?datapath, hfinalize, ?result, ?settled⟩, hrun.append hrun'⟩
  case issued => rfl
  case reissued =>
    rw [hlatched]
    rfl
  case datapath => exact v.blankDatapath_settle
  case result => rfl
  case settled => exact y.blankDatapath_settle

section
variable (r : HashRun s i n o rest u v x y t)
include r

theorem HashRun.inv_issued (h : Inv s) : Inv u := by
  rw [r.issued]
  exact { h with latched := fun _ => rfl }

theorem HashRun.variant_issued : u.variant = s.variant := by rw [r.issued]; rfl

/-- UPDATE's bytes are the line's range of INMEM as the line found it. -/
theorem HashRun.memRead_issued : u.memRead u.offset u.length = (List.range n.toNat).map (fun j => s.byteAt (inBase + i.toNat + j)) := by
  rw [r.issued]
  rfl

end

section
variable (r : HashRun s i n o rest u v x y t) (hempty : s.fsm = .empty) (hin : i.toNat + n.toNat ≤ s.params.inSize)
include r hempty hin

/-- UPDATE of a legal range on a fresh stream absorbs it. -/
theorem HashRun.absorbed : v = (u.absorb (u.memRead u.offset u.length)).complete := by
  have hupdate := exec_update (s := u) (by rw [r.issued, hempty]; nofun) (by rwa [r.issued])
  rw [r.update] at hupdate
  exact Host.Outcome.next.inj hupdate

/-- FINALIZE runs on what absorbing the line's bytes leaves, but for the registers the second command's writes fill. -/
theorem HashRun.reissued_absorbed :
    x = { u.absorb (u.memRead u.offset u.length) with
          argOff := o, cmd := encode .finalize, latch := ⟨encode .finalize, o, n⟩, busy := true, lastErr := 0, hash := x.hash,
          agenda := x.agenda, reads := x.reads, freeCtr := x.freeCtr } ∧
      blankDatapath x.hash = blankDatapath (u.absorb (u.memRead u.offset u.length)).hash := by
  have hv := r.absorbed hempty hin
  have hx := r.reissued
  have hblank := r.datapath
  rw [hv] at hx hblank
  exact ⟨hx, hblank⟩

theorem HashRun.digest_reissued :
    x.digest = (u.absorb (u.memRead u.offset u.length)).digest ∧ x.demotes = (u.absorb (u.memRead u.offset u.length)).demotes := by
  obtain ⟨hx, hblank⟩ := r.reissued_absorbed hempty hin
  exact State.digest_congr hblank (congrArg State.mb hx :) (congrArg State.mlen hx :) (congrArg State.reached hx :) (congrArg State.cfg hx :)

theorem HashRun.variant_reissued : x.variant = s.variant := by
  have hblank := congrArg HashBank.variant (r.reissued_absorbed hempty hin).2
  rw [blankDatapath_variant, blankDatapath_variant] at hblank
  exact hblank.trans ((State.absorb_variant ..).trans r.variant_issued)

theorem HashRun.params_reissued : x.params = s.params :=
  (congrArg State.params (r.reissued_absorbed hempty hin).1).trans ((State.absorb_params ..).trans (congrArg State.params r.issued :))

/-- On a fresh stream the digest is that of the line's bytes, by the three paths. -/
theorem HashRun.digest_of_fresh (h : Inv s) (hf : FreshStream s) {m : List Byte} (hm : u.memRead u.offset u.length = m) :
    x.digest = (if s.parallel = true ∧ s.capacity ≤ m.length then treeDigest s.variant s.cfg m else plainDigest s.variant m) ∧
      (x.demotes = true ↔ s.parallel = true ∧ m.length < s.capacity) := by
  have hfresh : FreshStream u := by rw [r.issued]; exact hf
  have hparallel : u.parallel = s.parallel := (congrArg State.parallel r.issued :)
  have hcapacity : u.capacity = s.capacity := (congrArg State.capacity r.issued :)
  have hcfg : u.cfg = s.cfg := (congrArg State.cfg r.issued :)
  obtain ⟨hdigest, hdemotes⟩ := r.digest_reissued hempty hin
  rw [hdigest, hdemotes, hm, ← hparallel, ← hcapacity, ← r.variant_issued, ← hcfg]
  exact State.digest_absorb_of_fresh (r.inv_issued h) hfresh m

/-- On a fresh stream FINALIZE succeeds, given room for the digest. -/
theorem HashRun.finalized (hout : o.toNat + digestBytes s.variant ≤ s.params.outSize) : y = x.writeDigest.resetStream.complete := by
  obtain ⟨hx, -⟩ := r.reissued_absorbed hempty hin
  have hfsm : x.fsm = if u.memRead u.offset u.length = [] then u.fsm else .buffering :=
    (congrArg State.fsm hx).trans (State.absorb_fsm ..)
  have hrunning : x.fsm ≠ .wiped := by
    rw [hfsm, congrArg State.fsm r.issued, hempty]
    split <;> nofun
  have hoffset : x.offset = o.toNat := congrArg State.offset hx
  have hfinalize := exec_finalize hrunning (by rwa [hoffset, r.variant_reissued hempty hin, r.params_reissued hempty hin])
  rw [r.finalize] at hfinalize
  exact Host.Outcome.next.inj hfinalize

/-- The bytes the host finds after the line: the digest over those it found before it. -/
theorem HashRun.byteAt_result (hout : o.toNat + digestBytes s.variant ≤ s.params.outSize) (a : Nat) :
    t.byteAt a = (s.memWrite o.toNat x.digest).byteAt a := by
  obtain ⟨hx, -⟩ := r.reissued_absorbed hempty hin
  have hoffset : x.offset = o.toNat := congrArg State.offset hx
  have hbytes : ∀ c, x.byteAt c = s.byteAt c := State.byteAt_congr
    ((congrArg State.mem hx).trans ((State.absorb_mem ..).trans (congrArg State.mem r.issued :)))
    ((congrArg State.epoch hx).trans ((State.absorb_epoch ..).trans (congrArg State.epoch r.issued :)))
  calc t.byteAt a = y.byteAt a := State.byteAt_congr (congrArg State.mem r.result) (congrArg State.epoch r.result) a
    _ = (x.memWrite x.offset x.digest).byteAt a := by
      rw [r.finalized hempty hin hout, State.byteAt_complete, State.byteAt_resetStream, State.byteAt_writeDigest]
    _ = (s.memWrite o.toNat x.digest).byteAt a := by
      rw [State.byteAt_memWrite, State.byteAt_memWrite, hbytes, hoffset]

/-- What the host finds in the registers after the line. -/
theorem HashRun.registers_result (hout : o.toNat + digestBytes s.variant ≤ s.params.outSize) :
    t.demoted = x.demotes ∧ t.lastErr = 0 ∧ t.busy = false ∧ t.errSticky = s.errSticky ∧ t.cfg = s.cfg ∧ t.agenda = rest := by
  obtain ⟨hx, -⟩ := r.reissued_absorbed hempty hin
  have ht := r.result
  rw [r.finalized hempty hin hout] at ht
  have hsticky : x.errSticky = s.errSticky :=
    (congrArg State.errSticky hx).trans ((State.absorb_errSticky ..).trans (congrArg State.errSticky r.issued :))
  have hcfg : x.cfg = s.cfg := (congrArg State.cfg hx).trans ((State.absorb_cfg ..).trans (congrArg State.cfg r.issued :))
  exact ⟨(congrArg State.demoted ht).trans x.writeDigest_demoted, (congrArg State.lastErr ht :), (congrArg State.busy ht :),
    (congrArg State.errSticky ht).trans (x.writeDigest_errSticky.trans hsticky),
    (congrArg State.cfg ht).trans (x.writeDigest_cfg.trans hcfg), (congrArg State.agenda ht :)⟩

/-- The line leaves a restarted stream. -/
theorem HashRun.restarts (h : Inv s) (hout : o.toNat + digestBytes s.variant ≤ s.params.outSize) : StreamRestarted s t := by
  have hy := r.finalized hempty hin hout
  have ht := r.result
  have hblank := r.datapath_result
  rw [hy] at ht hblank
  obtain ⟨hlanes, hmb, -⟩ := x.writeDigest_restarts
  rw [r.variant_reissued hempty hin, r.params_reissued hempty hin] at hmb
  refine ⟨?lanes, (congrArg State.mb ht).trans hmb, (congrArg State.mlen ht :), (congrArg State.reached ht :), (congrArg State.fsm ht :)⟩
  case lanes =>
    obtain ⟨q, a⟩ := State.absorb_spec (r.inv_issued h).fits (u.memRead u.offset u.length)
    have hsize : laneFileSize x.hash = laneFileSize s.hash := by
      rw [← laneFileSize_blankDatapath, (r.reissued_absorbed hempty hin).2, laneFileSize_blankDatapath, a.hash, laneFileSize_mapBank,
        congrArg State.hash r.issued]
    rw [lanesRelated_second_iff (P := fun A _ l' => l' = initLane A)] at hlanes ⊢
    obtain ⟨hvariant, hsize', hinit⟩ := hlanes
    rw [← blankDatapath_variant, ← laneFileSize_blankDatapath, ← everyLane_blankDatapath t.hash, hblank, blankDatapath_variant,
      laneFileSize_blankDatapath, everyLane_blankDatapath]
    exact ⟨hvariant.trans (r.variant_reissued hempty hin), hsize'.trans hsize, hinit⟩

end

end

/-- Settles O56: the run of its two commands, and on a fresh stream the digest of what UPDATE absorbs. -/
theorem hashLineWritesTheDigest : Obligations.HashLineWritesTheDigest := by
  intro s i n o polls polls' rest hidle hagenda
  obtain ⟨u, v, x, y, t, r, hrun⟩ := runs_hashLine hidle hagenda
  refine ⟨⟨u, v, x, y, t, r.issued, r.update, r.reissued, r.datapath, r.finalize, hrun, r.result, r.datapath_result⟩,
    fun h hf hin hout => ?_⟩
  intro m
  have hempty : s.fsm = .empty := hf.1
  obtain ⟨hdigest, hdemotes⟩ := r.digest_of_fresh hempty hin h hf (m := m) r.memRead_issued
  obtain ⟨hdemoted, hregisters⟩ := r.registers_result hempty hin hout
  have hlength : x.digest.length = digestBytes s.variant := by rw [x.digest_length, r.variant_reissued hempty hin]
  have hbytes := r.byteAt_result hempty hin hout
  refine ⟨t, hrun, ?stored, fun a ha => ?others, hdemoted ▸ hdemotes, r.restarts hempty hin h hout, hregisters⟩
  case stored =>
    simp only [hbytes]
    rw [State.map_byteAt_memWrite hlength, hdigest]
  case others => rw [hbytes, State.byteAt_memWrite_outside (by rwa [hlength])]

end Sys2Proof.Machine
end
